-- ==== Sys2Proof/Word.lean ====
section
/-! DEFINITION. The word types of the block (spec 00_scope.md R7, R9) and the numbers R7 fixes. -/

namespace Sys2Proof

/-- `u8` (R9). -/
abbrev Byte := BitVec 8

/-- `u16` (R9), also one LUT instruction (30_encoding.md R82). -/
abbrev Half := BitVec 16

/-- `u32` (R9), a register of the window and a LUT word (R7). -/
abbrev Word := BitVec 32

/-- The identity of a requester (10_state.md R21, R25). -/
abbrev Requester := Nat

/-- `LUT_WORDS` (R7). -/
def lutWords : Nat := 64

/-- `INSTR_PER_SEQ` (R7). -/
def instrPerSeq : Nat := 8

/-- `RX_WATERMARK_BYTES` (R7). -/
def rxWatermarkBytes : Nat := 4

/-- `TX_MIN_WORDS` (R7). -/
def txMinWords : Nat := 4

/-- `WINDOW_BYTES` (R8, decided 4096 by D9). -/
def windowBytes : Nat := 4096

end Sys2Proof
end

