-- ==== Sys2Proof/Config.lean ====
section
/-! DEFINITION. What the spec leaves open: the parameters of 00_scope.md R8 (a model takes each as an
argument, so they are plain data that State carries and no step changes, log 1), the checks of U19,
the named configuration T of 95_test_vectors.md, and the free values (log 2). -/

namespace Sys2Proof

/-- `RX_BYTE_ORDER` (20_memory.md R62). -/
inductive ByteOrder where
  | little
  | big
  deriving DecidableEq, Repr

/-- The byte offset of each register role (10_state.md R30), and that of `RXPTR_CLR` (R31). -/
structure Offsets where
  ctrl : Nat
  ipcmd : Nat
  flshcfg : Nat
  bufdesc : Nat
  addr : Nat
  rxctl : Nat
  status : Nat
  flags : Nat
  txstat : Nat
  sptrclr : Nat
  lutkey : Nat
  lckcr : Nat
  lut : Nat
  rxdata : Nat
  txdata : Nat
  rxptrClr : Nat
  deriving DecidableEq, Repr

/-- The mask of each field of 10_state.md R31 whose bits the source leaves open. -/
structure Masks where
  busy : Word
  rxwm : Word
  txfull : Word
  txne : Word
  rxpop : Word
  rxptrClr : Word
  seqptrClr : Word
  clrTxf : Word
  clrRxf : Word
  mdis : Word
  swrstAhb : Word
  swrstSf : Word
  rxwmk : Word
  deriving DecidableEq, Repr

/-- `OPC_<name>` for every opcode but STOP, which is 0 (30_encoding.md R85, D5). -/
structure Opcodes where
  cmd : BitVec 6
  addr : BitVec 6
  dummy : BitVec 6
  mode : BitVec 6
  mode2 : BitVec 6
  mode4 : BitVec 6
  read : BitVec 6
  write : BitVec 6
  jumpOnCs : BitVec 6
  addrDdr : BitVec 6
  modeDdr : BitVec 6
  mode2Ddr : BitVec 6
  mode4Ddr : BitVec 6
  readDdr : BitVec 6
  writeDdr : BitVec 6
  dataLearn : BitVec 6
  deriving DecidableEq, Repr

/-- The parameters of R8. `wiredPads` is the model's own: bit `c` says whether the flash and the board
wire the pad width of code `c`, which R119 leaves open (DESIGN CHOICE, log 19). `resetHold` is read by
no rule: the block does not measure the hold (R204, log 30). -/
structure Params where
  off : Offsets
  mask : Masks
  opc : Opcodes
  waitLimit : Nat
  txCapacity : Nat
  rxCapacity : Nat
  regBase : Nat
  resetHold : Nat
  lutKey : Word
  lckUnlock : Word
  lckLock : Word
  flashTiming : Word
  rxwmField4B : Word
  rxByteOrder : ByteOrder
  wiredPads : BitVec 4
  deriving DecidableEq, Repr

/-- The roles that are one register each (R30: all but `LUT` and `RXDATA`). -/
def Offsets.singles (o : Offsets) : List Nat :=
  [o.ctrl, o.ipcmd, o.flshcfg, o.bufdesc, o.addr, o.rxctl, o.status, o.flags, o.txstat, o.sptrclr,
    o.lutkey, o.lckcr, o.txdata]

/-- A register's offset is a multiple of 4 inside the window (R29, R65). -/
def Offsets.aligned (a : Nat) : Bool := decide (a % 4 = 0) && decide (a < windowBytes)

/-- `a` lies in neither the `LUT` range nor the `RXDATA` register. -/
def Offsets.clear (o : Offsets) (a : Nat) : Bool :=
  (decide (a < o.lut) || decide (o.lut + 4 * lutWords ≤ a)) && decide (a ≠ o.rxdata)

/-- R29, R30, R65 and D6: aligned, in the window, distinct, and `LUT` and `RXDATA` overlap no other role.
`RXPTR_CLR` may share the register of `CTRL` or `RXCTL` (R64, configuration T; DEDUCED, log 15) and is a
register of its own otherwise. -/
def Offsets.valid (o : Offsets) : Bool :=
  o.singles.all Offsets.aligned && decide o.singles.Nodup && o.singles.all o.clear &&
    (decide (o.lut % 4 = 0) && decide (o.lut + 4 * lutWords ≤ windowBytes)) &&
    Offsets.aligned o.rxdata && (decide (o.rxdata < o.lut) || decide (o.lut + 4 * lutWords ≤ o.rxdata)) &&
    (decide (o.rxptrClr = o.ctrl) || decide (o.rxptrClr = o.rxctl) ||
      (Offsets.aligned o.rxptrClr && o.clear o.rxptrClr && !o.singles.contains o.rxptrClr))

/-- R31: each mask is nonzero. -/
def Masks.valid (m : Masks) : Bool :=
  [m.busy, m.rxwm, m.txfull, m.txne, m.rxpop, m.rxptrClr, m.seqptrClr, m.clrTxf, m.clrRxf, m.mdis,
    m.swrstAhb, m.swrstSf, m.rxwmk].all (fun w => decide (w ≠ 0#32))

/-- The assigned opcode values besides STOP's. -/
def Opcodes.toList (o : Opcodes) : List (BitVec 6) :=
  [o.cmd, o.addr, o.dummy, o.mode, o.mode2, o.mode4, o.read, o.write, o.jumpOnCs, o.addrDdr, o.modeDdr,
    o.mode2Ddr, o.mode4Ddr, o.readDdr, o.writeDdr, o.dataLearn]

/-- D5: each value is in 1..63 and the values are distinct. -/
def Opcodes.valid (o : Opcodes) : Bool := decide o.toList.Nodup && !o.toList.contains 0#6

/-- The configurations that are not refused before any step (U19; R8, R32, D5, D33). -/
def Params.valid (p : Params) : Bool :=
  decide (1 ≤ p.waitLimit) && decide (txMinWords ≤ p.txCapacity) &&
    decide (rxWatermarkBytes ≤ p.rxCapacity) && decide (p.lckUnlock ≠ p.lckLock) &&
    p.off.valid && p.mask.valid && p.opc.valid

/-- The register an access reaches, by role (R30, R31). -/
inductive Role where
  | ctrl
  | ipcmd
  | flshcfg
  | bufdesc
  | addr
  | rxctl
  | status
  | flags
  | txstat
  | sptrclr
  | lutkey
  | lckcr
  | lut (j : Fin 64)
  | rxdata (m : Nat)
  | txdata
  | rxptrClr
  deriving DecidableEq, Repr

/-- Who moves next: the engine, the device, or an agent outside the block that writes a register
(00_scope.md R5; 70_reset_and_hazards.md R231; log 2, log 20). -/
inductive Turn where
  | engine
  | device
  | bus
  deriving DecidableEq, Repr, Inhabited

/-- The candidate opcode values of 93_implementation_defined.md G1 (PRESUMED, log 1). -/
def Opcodes.candidate : Opcodes where
  cmd := 1
  addr := 2
  dummy := 3
  mode := 4
  mode2 := 5
  mode4 := 6
  read := 7
  write := 8
  jumpOnCs := 9
  addrDdr := 10
  modeDdr := 11
  mode2Ddr := 12
  mode4Ddr := 13
  readDdr := 14
  writeDdr := 15
  dataLearn := 16

/-- Configuration T of 95_test_vectors.md; `BUFDESC` and `REG_BASE` from G4, which T does not give
(PRESUMED, log 1). `RESET_HOLD` is 1: it is OPEN (R8, D30) and neither T nor G4 gives a value, so that one is the
model's own choice, which no rule reads (DESIGN CHOICE, log 30). -/
def Params.configT : Params where
  off := { ctrl := 0x000, ipcmd := 0x008, flshcfg := 0x00C, bufdesc := 0x010, addr := 0x100,
           rxctl := 0x110, status := 0x15C, flags := 0x160, txstat := 0x150, sptrclr := 0x16C,
           lutkey := 0x300, lckcr := 0x304, lut := 0x310, rxdata := 0x200, txdata := 0x154,
           rxptrClr := 0x000 }
  mask := { busy := 0x1, rxwm := 0x10000, txfull := 0x8000000, txne := 0x1F00, rxpop := 0x10000,
            rxptrClr := 0x400, seqptrClr := 0x100, clrTxf := 0x800, clrRxf := 0x400, mdis := 0x4000,
            swrstAhb := 0x2, swrstSf := 0x1, rxwmk := 0x1F }
  opc := Opcodes.candidate
  waitLimit := 3
  txCapacity := 8
  rxCapacity := 128
  regBase := 0x021E0000
  resetHold := 1
  lutKey := 0x5AF05AF0
  lckUnlock := 0x2
  lckLock := 0x1
  flashTiming := 0x0
  rxwmField4B := 0x0
  rxByteOrder := .little
  wiredPads := 0b1111

/-- The free words: what the device's answers, the platform's answers and the device's own choices draw
from once the given answers are used up (R5, R202, U13, U21, U22). No body: nothing is known of it (log 2). -/
opaque Config.freeWord : Nat → Word

/-- The byte that a window offset of the LUT holds while nothing has written it (70_reset_and_hazards.md R221, U13:
drawn freely), by how often the LUT has become unspecified and by the offset. No body: nothing is known of it (log
5). -/
opaque Config.freeLut : Nat → Nat → Byte

/-- Who moves next once the given turns are used up: the device may take any number of steps between two
of the engine's (20_memory.md R70; log 2). -/
opaque Config.freeTurn : Nat → Turn

end Sys2Proof
end

