-- ==== Sys2Proof/Syntax.lean ====
section
/-! DEFINITION. The instructions: one constructor per row of spec/opcode_table.json. -/

namespace Sys2Proof

/-- A LUT instruction as ENCODE takes it and DECODE gives it: three naturals below 2^32
(10_state.md R21, D3). -/
structure Triple where
  opcode : Word
  pad : Word
  operand : Word
  deriving DecidableEq, Repr

/-- The instruction set of 00_scope.md R2: the LUT instructions, which the device executes
(40_lut_instructions.md R101 to R118), the requests of the upstream port (30_encoding.md R88), and the
IP-command word (R86). `pad` is the pad code, `operand` the 8-bit immediate (R82 to R84). -/
inductive Instr where
  | stop (pad : BitVec 2) (operand : Byte)
  | cmd (pad : BitVec 2) (operand : Byte)
  | addr (pad : BitVec 2) (operand : Byte)
  | dummy (pad : BitVec 2) (operand : Byte)
  | mode (pad : BitVec 2) (operand : Byte)
  | mode2 (pad : BitVec 2) (operand : Byte)
  | mode4 (pad : BitVec 2) (operand : Byte)
  | read (pad : BitVec 2) (operand : Byte)
  | write (pad : BitVec 2) (operand : Byte)
  | jumpOnCs (pad : BitVec 2) (operand : Byte)
  | addrDdr (pad : BitVec 2) (operand : Byte)
  | modeDdr (pad : BitVec 2) (operand : Byte)
  | mode2Ddr (pad : BitVec 2) (operand : Byte)
  | mode4Ddr (pad : BitVec 2) (operand : Byte)
  | readDdr (pad : BitVec 2) (operand : Byte)
  | writeDdr (pad : BitVec 2) (operand : Byte)
  | dataLearn (pad : BitVec 2) (operand : Byte)
  | unassigned (opcode : BitVec 6) (pad : BitVec 2) (operand : Byte)
  | encode (i0 i1 : Triple)
  | decode (w : Word)
  | writeSeq (index : BitVec 4) (words : Vector Word 4)
  | issue (seq : BitVec 4) (addr : Word) (size : Half)
  | drain (size : Word)
  | fill (seq : BitVec 4) (addr : Word) (data : List Word)
  | acquire (who : Requester)
  | release (who : Requester)
  | init
  | ipcmd (seqid : BitVec 4) (datsz : Half)
  deriving DecidableEq, Repr

/-- A request as the upstream port carries it: a kind tag and the arguments of R21 in R88's order, each a
natural. The source gives a request no bit layout, so it has none here (R88, D2; log 12). -/
structure Message where
  tag : Nat
  args : List Nat
  deriving DecidableEq, Repr

/-- A request on the port: every request carries the identity of its sender (R88). -/
structure Posted where
  sender : Requester
  msg : Message
  deriving DecidableEq, Repr

/-- The encoded forms (30_encoding.md R80): a LUT instruction, an IP-command word, a request. -/
inductive Encoded where
  | luti16 (h : Half)
  | ipcmd32 (w : Word)
  | req (m : Message)
  deriving DecidableEq, Repr

/-- Why a decoder rejects: R89's two cases, and the reserved bits of R91. -/
inductive Reject where
  | unknownTag (tag : Nat)
  | argumentWidth (tag : Nat)
  | reservedBits
  deriving DecidableEq, Repr

end Sys2Proof
end

