-- ==== Sys2Proof/WellFormed.lean ====
section
/-! DEFINITION. Which instructions are well formed under a configuration: what an `Instr` can write down
that no encoding stands for. Every other operand has its width by its type (10_state.md R21). -/

namespace Sys2Proof

/-- `n` is not STOP's value and no `OPC_<name>` (40_lut_instructions.md R118). -/
def Opcodes.isUnassigned (o : Opcodes) (n : BitVec 6) : Bool :=
  !((0#6 :: o.toList).contains n)

/-- The number of words of a FILL is below 2^32 (10_state.md R21); an unassigned opcode is one (R118). -/
def Instr.wf (p : Params) : Instr → Bool
  | .unassigned n _ _ => p.opc.isUnassigned n
  | .fill _ _ data => decide (data.length < 2 ^ 32)
  | .stop _ _ | .cmd _ _ | .addr _ _ | .dummy _ _ | .mode _ _ | .mode2 _ _ | .mode4 _ _ => true
  | .read _ _ | .write _ _ | .jumpOnCs _ _ | .addrDdr _ _ | .modeDdr _ _ | .mode2Ddr _ _ => true
  | .mode4Ddr _ _ | .readDdr _ _ | .writeDdr _ _ | .dataLearn _ _ => true
  | .encode _ _ | .decode _ | .writeSeq _ _ | .issue _ _ _ | .drain _ => true
  | .acquire _ | .release _ | .init | .ipcmd _ _ => true

end Sys2Proof
end

