-- ==== Sys2Proof/Decode.lean ====
section
/-! DEFINITION. The decoder, total on every LUT instruction, IP-command word and request message,
rejecting by name, and the encoder, both from 30_encoding.md R80 to R92; the block's own packing and
unpacking (41_encoder.md R130, R131) and the IP-command word (R86) are here too. -/

namespace Sys2Proof

/-! ### Bit fields -/

/-- `enc16` of 40_lut_instructions.md R100 on fields of their own width: `opcode` in [15:10], `pad` in
[9:8], `operand` in [7:0] (R82). -/
def packLut (op : BitVec 6) (pad : BitVec 2) (operand : Byte) : Half :=
  (op.setWidth 16 <<< 10) ||| (pad.setWidth 16 <<< 8) ||| operand.setWidth 16

/-- `opcode` of a LUT instruction (R82). -/
def lutOpcode (h : Half) : BitVec 6 := h.extractLsb' 10 6

/-- `pad` of a LUT instruction (R82). -/
def lutPad (h : Half) : BitVec 2 := h.extractLsb' 8 2

/-- `operand` of a LUT instruction (R82). -/
def lutOperand (h : Half) : Byte := h.extractLsb' 0 8

/-- `enc16(i)` of 41_encoder.md R130: each field masked to its width, then packed. -/
def Triple.enc16 (i : Triple) : Half :=
  packLut (i.opcode.setWidth 6) (i.pad.setWidth 2) (i.operand.setWidth 8)

/-- `dec16(h)` of R131. -/
def dec16 (h : Half) : Triple where
  opcode := (lutOpcode h).setWidth 32
  pad := (lutPad h).setWidth 32
  operand := (lutOperand h).setWidth 32

/-- Slot 0 of a LUT word is [15:0] (30_encoding.md R81). -/
def slot0 (w : Word) : Half := w.extractLsb' 0 16

/-- Slot 1 of a LUT word is [31:16] (R81). -/
def slot1 (w : Word) : Half := w.extractLsb' 16 16

/-- `ENCODE(i0, i1)` (R130). -/
def encodeWord (i0 i1 : Triple) : Word :=
  (i1.enc16.setWidth 32 <<< 16) ||| i0.enc16.setWidth 32

/-- `DECODE(w)` (R131). -/
def decodeWord (w : Word) : Triple × Triple := (dec16 (slot0 w), dec16 (slot1 w))

/-- `mask(i)` of R132. -/
def Triple.masked (i : Triple) : Triple where
  opcode := i.opcode &&& 0x3F#32
  pad := i.pad &&& 0x3#32
  operand := i.operand &&& 0xFF#32

/-- The IP-command word: `SEQID` in [27:24], `DATSZ` in [15:0], every other bit 0 (R86, R91). -/
def packIpcmd (seq : BitVec 4) (size : Half) : Word :=
  (seq.setWidth 32 <<< 24) ||| size.setWidth 32

/-- `SEQID = w[27:24]` (R86; 10_state.md R44). -/
def ipcmdSeq (w : Word) : BitVec 4 := w.extractLsb' 24 4

/-- `DATSZ = w[15:0]` (R86; R44). -/
def ipcmdSize (w : Word) : Half := w.extractLsb' 0 16

/-! ### The decoder -/

/-- A LUT instruction, total on all 2^16 values (R82, R90): opcode 0 is STOP, an assigned value its
`OPC_<name>`, any other value is unassigned (R85, R118). -/
def decodeLut (p : Params) (h : Half) : Instr :=
  let op := lutOpcode h
  let pad := lutPad h
  let x := lutOperand h
  if op = 0#6 then .stop pad x
  else if op = p.opc.cmd then .cmd pad x
  else if op = p.opc.addr then .addr pad x
  else if op = p.opc.dummy then .dummy pad x
  else if op = p.opc.mode then .mode pad x
  else if op = p.opc.mode2 then .mode2 pad x
  else if op = p.opc.mode4 then .mode4 pad x
  else if op = p.opc.read then .read pad x
  else if op = p.opc.write then .write pad x
  else if op = p.opc.jumpOnCs then .jumpOnCs pad x
  else if op = p.opc.addrDdr then .addrDdr pad x
  else if op = p.opc.modeDdr then .modeDdr pad x
  else if op = p.opc.mode2Ddr then .mode2Ddr pad x
  else if op = p.opc.mode4Ddr then .mode4Ddr pad x
  else if op = p.opc.readDdr then .readDdr pad x
  else if op = p.opc.writeDdr then .writeDdr pad x
  else if op = p.opc.dataLearn then .dataLearn pad x
  else .unassigned op pad x

/-- An IP-command word whose reserved bits [31:28] and [23:16] are 0 (R86, R91). -/
def decodeIpcmd (w : Word) : Except Reject Instr :=
  if w = packIpcmd (ipcmdSeq w) (ipcmdSize w) then .ok (.ipcmd (ipcmdSeq w) (ipcmdSize w))
  else .error .reservedBits

/-- Every argument is below `2 ^ n` (10_state.md R21, D11). -/
def allBelow (n : Nat) (l : List Nat) : Bool := l.all (fun a => decide (a < 2 ^ n))

/-- A list of u32. -/
def words32 (l : List Nat) : List Word := l.map (BitVec.ofNat 32)

/-- ENCODE's arguments (R88, R89): two triples of naturals below 2^32. -/
def decodeEncode : List Nat → Except Reject Instr
  | [o0, p0, x0, o1, p1, x1] =>
    if allBelow 32 [o0, p0, x0, o1, p1, x1] then
      .ok (.encode ⟨.ofNat 32 o0, .ofNat 32 p0, .ofNat 32 x0⟩ ⟨.ofNat 32 o1, .ofNat 32 p1, .ofNat 32 x1⟩)
    else .error (.argumentWidth 0)
  | _ => .error (.argumentWidth 0)

/-- DECODE's argument. -/
def decodeDecode : List Nat → Except Reject Instr
  | [w] => if allBelow 32 [w] then .ok (.decode (.ofNat 32 w)) else .error (.argumentWidth 1)
  | _ => .error (.argumentWidth 1)

/-- WRITE_SEQ's arguments: a u4 and four u32. -/
def decodeWriteSeq : List Nat → Except Reject Instr
  | [ix, a, b, c, d] =>
    if allBelow 4 [ix] && allBelow 32 [a, b, c, d] then
      .ok (.writeSeq (.ofNat 4 ix) #v[.ofNat 32 a, .ofNat 32 b, .ofNat 32 c, .ofNat 32 d])
    else .error (.argumentWidth 2)
  | _ => .error (.argumentWidth 2)

/-- ISSUE's arguments: a u4, a u32 and a u16, which is 0 when it is not given (R88). -/
def decodeIssue : List Nat → Except Reject Instr
  | [seq, addr, size] =>
    if allBelow 4 [seq] && allBelow 32 [addr] && allBelow 16 [size] then
      .ok (.issue (.ofNat 4 seq) (.ofNat 32 addr) (.ofNat 16 size))
    else .error (.argumentWidth 3)
  | [seq, addr] =>
    if allBelow 4 [seq] && allBelow 32 [addr] then .ok (.issue (.ofNat 4 seq) (.ofNat 32 addr) 0)
    else .error (.argumentWidth 3)
  | _ => .error (.argumentWidth 3)

/-- DRAIN's argument. -/
def decodeDrain : List Nat → Except Reject Instr
  | [size] => if allBelow 32 [size] then .ok (.drain (.ofNat 32 size)) else .error (.argumentWidth 4)
  | _ => .error (.argumentWidth 4)

/-- FILL's arguments: a u4, a u32 and a list of fewer than 2^32 u32 (10_state.md R21). -/
def decodeFill : List Nat → Except Reject Instr
  | seq :: addr :: data =>
    if allBelow 4 [seq] && allBelow 32 (addr :: data) && decide (data.length < 2 ^ 32) then
      .ok (.fill (.ofNat 4 seq) (.ofNat 32 addr) (words32 data))
    else .error (.argumentWidth 5)
  | _ => .error (.argumentWidth 5)

/-- ACQUIRE's argument, a requester. -/
def decodeAcquire : List Nat → Except Reject Instr
  | [who] => .ok (.acquire who)
  | _ => .error (.argumentWidth 6)

/-- RELEASE's argument, a requester. -/
def decodeRelease : List Nat → Except Reject Instr
  | [who] => .ok (.release who)
  | _ => .error (.argumentWidth 7)

/-- INIT has no argument. -/
def decodeInit : List Nat → Except Reject Instr
  | [] => .ok .init
  | _ => .error (.argumentWidth 8)

/-- A request by its tag and arguments (R88); a tag outside 0..8, or an argument that is missing, in
excess or outside its width, names no request (R89). -/
def decodeRequest (m : Message) : Except Reject Instr :=
  match m.tag with
  | 0 => decodeEncode m.args
  | 1 => decodeDecode m.args
  | 2 => decodeWriteSeq m.args
  | 3 => decodeIssue m.args
  | 4 => decodeDrain m.args
  | 5 => decodeFill m.args
  | 6 => decodeAcquire m.args
  | 7 => decodeRelease m.args
  | 8 => decodeInit m.args
  | t => .error (.unknownTag t)

/-- The decoder of all three encoded forms. -/
def decode (p : Params) : Encoded → Except Reject Instr
  | .luti16 h => .ok (decodeLut p h)
  | .ipcmd32 w => decodeIpcmd w
  | .req m => decodeRequest m

/-! ### The encoder -/

/-- The arguments of ENCODE's two triples in R88's order. -/
def Triple.args (i : Triple) : List Nat := [i.opcode.toNat, i.pad.toNat, i.operand.toNat]

/-- The encoded form of an instruction, from the same tables (R82, R86, R88). -/
def encode (p : Params) : Instr → Encoded
  | .stop pad x => .luti16 (packLut 0 pad x)
  | .cmd pad x => .luti16 (packLut p.opc.cmd pad x)
  | .addr pad x => .luti16 (packLut p.opc.addr pad x)
  | .dummy pad x => .luti16 (packLut p.opc.dummy pad x)
  | .mode pad x => .luti16 (packLut p.opc.mode pad x)
  | .mode2 pad x => .luti16 (packLut p.opc.mode2 pad x)
  | .mode4 pad x => .luti16 (packLut p.opc.mode4 pad x)
  | .read pad x => .luti16 (packLut p.opc.read pad x)
  | .write pad x => .luti16 (packLut p.opc.write pad x)
  | .jumpOnCs pad x => .luti16 (packLut p.opc.jumpOnCs pad x)
  | .addrDdr pad x => .luti16 (packLut p.opc.addrDdr pad x)
  | .modeDdr pad x => .luti16 (packLut p.opc.modeDdr pad x)
  | .mode2Ddr pad x => .luti16 (packLut p.opc.mode2Ddr pad x)
  | .mode4Ddr pad x => .luti16 (packLut p.opc.mode4Ddr pad x)
  | .readDdr pad x => .luti16 (packLut p.opc.readDdr pad x)
  | .writeDdr pad x => .luti16 (packLut p.opc.writeDdr pad x)
  | .dataLearn pad x => .luti16 (packLut p.opc.dataLearn pad x)
  | .unassigned n pad x => .luti16 (packLut n pad x)
  | .encode i0 i1 => .req ⟨0, i0.args ++ i1.args⟩
  | .decode w => .req ⟨1, [w.toNat]⟩
  | .writeSeq ix ws => .req ⟨2, [ix.toNat, ws[0].toNat, ws[1].toNat, ws[2].toNat, ws[3].toNat]⟩
  | .issue seq addr size => .req ⟨3, [seq.toNat, addr.toNat, size.toNat]⟩
  | .drain size => .req ⟨4, [size.toNat]⟩
  | .fill seq addr data => .req ⟨5, seq.toNat :: addr.toNat :: data.map BitVec.toNat⟩
  | .acquire who => .req ⟨6, [who]⟩
  | .release who => .req ⟨7, [who]⟩
  | .init => .req ⟨8, []⟩
  | .ipcmd seqid datsz => .ipcmd32 (packIpcmd seqid datsz)

/-! ### A sequence (30_encoding.md R87) -/

/-- The eight instructions `I0 .. I7` of four LUT words: `I(2k)` is slot 0 and `I(2k+1)` slot 1 of word
`k` (R87). -/
def seqInstrs (p : Params) (ws : List Word) : List Instr :=
  ws.flatMap (fun w => [decodeLut p (slot0 w), decodeLut p (slot1 w)])

/-- Opcode 0 of a LUT instruction (R101). -/
def Instr.isStop : Instr → Bool
  | .stop _ _ => true
  | .cmd _ _ | .addr _ _ | .dummy _ _ | .mode _ _ | .mode2 _ _ | .mode4 _ _ => false
  | .read _ _ | .write _ _ | .jumpOnCs _ _ | .addrDdr _ _ | .modeDdr _ _ | .mode2Ddr _ _ => false
  | .mode4Ddr _ _ | .readDdr _ _ | .writeDdr _ _ | .dataLearn _ _ | .unassigned _ _ _ => false
  | .encode _ _ | .decode _ | .writeSeq _ _ | .issue _ _ _ | .drain _ | .fill _ _ _ => false
  | .acquire _ | .release _ | .init | .ipcmd _ _ => false

/-- The effective length `L` of a sequence: the index of its first STOP, or 8 if there is none (R87, R92). -/
def effectiveLength (p : Params) (ws : List Word) : Nat := (seqInstrs p ws).findIdx Instr.isStop

/-! ### The opcode table's numbering -/

/-- The arguments a request of tag `t` has when every operand is 0 (a FILL of no words). -/
def zeroArgs (t : Nat) : List Nat :=
  match t with
  | 0 => [0, 0, 0, 0, 0, 0]
  | 1 => [0]
  | 2 => [0, 0, 0, 0, 0]
  | 3 => [0, 0, 0]
  | 4 => [0]
  | 5 => [0, 0]
  | 6 => [0]
  | 7 => [0]
  | _ => []

/-- The encoded form that a table row's bits stand for: 16 bits are a LUT instruction, 32 bits an
IP-command word, 8 bits a request's tag with every argument 0 (a request has no bit layout, R88; log 12). -/
def tableForm (nbits w : Nat) : Encoded :=
  if nbits = 16 then .luti16 (.ofNat 16 w)
  else if nbits = 32 then .ipcmd32 (.ofNat 32 w)
  else .req ⟨w, zeroArgs w⟩

/-- The instruction that the decoder reads from a row's bits under configuration T; `none` where it
rejects them. -/
def decodeTableWord (nbits w : Nat) : Option Instr :=
  match decode Params.configT (tableForm nbits w) with
  | .ok i => some i
  | .error _ => none

end Sys2Proof
end

