-- ==== Sys2Proof/Machine/State.lean ====
section
/-! DEFINITION. The state of the machine, as plain data: the engine (10_state.md R23), the upstream port,
the device behind the register window (R30 to R38), the configuration (00_scope.md R8) and the inputs the
free values draw from first; the outcomes' reasons; the state after reset (R39, R220, R221). -/

namespace Sys2Proof.Machine

/-! ### Responses, events, errors -/

/-- The error kinds (60_exceptions.md R190). -/
inductive ErrorKind where
  | busy
  | timeout
  | invalidSize
  | mapError
  | clockError
  deriving DecidableEq, Repr

/-- The numeric code of an error kind (R190, D16): a label. -/
def ErrorKind.code : ErrorKind → Nat
  | .busy => 1
  | .timeout => 2
  | .invalidSize => 3
  | .mapError => 4
  | .clockError => 5

/-- What `Ok` carries (00_scope.md R11). -/
inductive Result where
  | unit
  | word (w : Word)
  | pair (i0 i1 : Triple)
  | bytes (l : List Byte)
  | count (n : Nat)
  deriving DecidableEq, Repr

/-- A response (R11). -/
inductive Response where
  | ok (x : Result)
  | err (e : ErrorKind)
  deriving DecidableEq, Repr

/-- The numeric code of a response (R190, D16): `Ok` is 0. -/
def Response.code : Response → Nat
  | .ok _ => 0
  | .err e => e.code

/-- An entry of `hist`: one access at a window offset (R10). -/
inductive Event where
  | rd (off : Nat) (v : Word)
  | wr (off : Nat) (v : Word)
  deriving DecidableEq, Repr

/-- A trace event (60_exceptions.md R199). -/
inductive TraceEvent where
  | tableWrite (index : BitVec 4)
  | issueStart (seq : BitVec 4) (addr : Word) (size : Half)
  | issueComplete (seq : BitVec 4)
  | watermark (k : Nat)
  deriving DecidableEq, Repr

/-! ### The engine (10_state.md R22 to R27) -/

/-- `mode` (R24). -/
inductive Mode where
  | uninit
  | idle
  | active
  deriving DecidableEq, Repr

/-- Where a read-modify-write stands (20_memory.md R64, R66): before its read, or before its write with the
value read. -/
inductive ActPos where
  | start
  | write (v : Word)
  deriving DecidableEq, Repr

/-- The step position of WRITE_SEQ (42_lut_manager.md R140). -/
inductive WriteSeqPos where
  | key1
  | unlock
  | word (k : Fin 4)
  | key2
  | lock
  deriving DecidableEq, Repr

/-- The step position of ISSUE (43_transaction_engine.md R152); `i` is the poll counter of R150. -/
inductive IssuePos where
  | waitIdle (i : Nat)
  | addr
  | rxPtr (a : ActPos)
  | seqPtr (a : ActPos)
  | command
  | waitDone (i : Nat)
  deriving DecidableEq, Repr

/-- The step position of DRAIN (R153); its loop over the words of one watermark has the one index `m = 0`. -/
inductive DrainPos where
  | wait (i : Nat)
  | read
  | pop (a : ActPos)
  deriving DecidableEq, Repr

/-- The step position of FILL (R154); `issue` is inside its inner ISSUE. -/
inductive FillPos where
  | txne
  | clear (a : ActPos)
  | addr
  | wait (i : Nat)
  | word
  | issue (p : IssuePos)
  deriving DecidableEq, Repr

/-- The step position of INIT (70_reset_and_hazards.md R224). -/
inductive InitPos where
  | map
  | disable (a : ActPos)
  | resetSet (a : ActPos)
  | hold
  | resetClear (a : ActPos)
  | enable (a : ActPos)
  | clock
  | clearBuffers (a : ActPos)
  | watermark (a : ActPos)
  | timing
  deriving DecidableEq, Repr

/-- `req`, `pos` and `locals` of R23 together, so that no position belongs to another request: DRAIN's
`out` and `k`, FILL's `n` and `lim`, and in the positions the poll counter and the `v` of a
read-modify-write (R26). ENCODE, DECODE, ACQUIRE and RELEASE are served in one step and never stand here. -/
inductive Task where
  | writeSeq (index : BitVec 4) (words : Vector Word 4) (pos : WriteSeqPos)
  | issue (seq : BitVec 4) (addr : Word) (size : Half) (pos : IssuePos)
  | drain (size : Word) (pos : DrainPos) (out : List Byte) (k : Nat)
  | fill (seq : BitVec 4) (addr : Word) (data : List Word) (pos : FillPos) (n lim : Nat)
  | init (pos : InitPos)
  deriving DecidableEq, Repr

/-- An internal action that stands between two accesses in a rule's pseudocode, or after its last one: `Trace(ev)`,
or the response (`respond Ok(x)` or the one of `raise E`). Each is an engine step of its own (00_scope.md R5; log
3). -/
inductive Internal where
  | trace (ev : TraceEvent)
  | respond (r : Response)
  deriving DecidableEq, Repr

/-- The request being served: its sender, the mode to return to (R24), where it stands, and the internal actions
that its rule has before the next access (R22: part of the step position). -/
structure Service where
  sender : Requester
  resume : Mode
  task : Task
  todo : List Internal
  deriving DecidableEq, Repr

/-- The engine (R23); `offer` is the requester whose request stands at the port now (30_encoding.md R88). -/
structure Engine where
  mode : Mode
  owner : Option Requester
  job : Option Service
  offer : Requester
  hist : List Event
  trace : List TraceEvent
  deriving DecidableEq, Repr

/-! ### The device (10_state.md R33 to R53) -/

/-- `lut_lock` (R37). -/
inductive LockState where
  | locked
  | unlocked
  deriving DecidableEq, Repr

/-- `in_flight` (R37, R44). `start` is the cursor its execution began at (R100); `wild` marks a transaction
that the spec gives no constrained outcome (R110, R119, R233; log 7). -/
structure Flight where
  seq : BitVec 4
  addr : Word
  size : Half
  start : Nat
  wild : Bool
  deriving DecidableEq, Repr

/-- The device's state (R34 to R37), field by field as INVENTORY.md lists it. `mem` lists the LUT's bytes that an
effective write gave; every other byte holds the free value of the `lutGen`-th time the LUT became unspecified (log
5). `lawless` says that the device contract no longer binds its answers (R52, R53; log 6); `executed` records the
LUT instructions of the latest transaction (30_encoding.md R87; log 27). -/
structure Device where
  mem : List Host.Cell
  lutGen : Nat
  lutLock : LockState
  keyArmed : Bool
  seqPtr : Nat
  rxPtr : Nat
  inFlight : Option Flight
  addr : Word
  ipcmd : Word
  ctrl : Word
  rxctl : Word
  flshcfg : Word
  bufdesc : Word
  rxBuf : List Byte
  txBuf : List Word
  clockOn : Bool
  lawless : Bool
  executed : List Instr
  deriving DecidableEq, Repr

/-! ### The whole state -/

/-- The machine. `port` and `responses` are the upstream port (00_scope.md R6, R11); `foreign` holds
register writes of agents outside the block (log 20); `answers`, `schedule` and `drawn` feed the free
values (log 2). -/
structure State where
  cfg : Params
  eng : Engine
  dev : Device
  port : List Posted
  responses : List (Requester × Response)
  foreign : List (Nat × Word)
  answers : List Word
  schedule : List Turn
  drawn : Nat
  deriving DecidableEq, Repr

/-- Why the machine stops with a fault. -/
inductive Fault where
  /-- Raised by a register write of an agent outside the block at an offset that names no register of
  10_state.md R30, or a role R67 calls 'not written'. Safe: the model stops (log 21). -/
  | noSuchRegister (off : Nat)
  deriving DecidableEq, Repr

/-- Why the machine refuses: 60_exceptions.md R196 ('a model marks the run as refused, which errs toward
unprovable'), so each of these is safe. -/
inductive Refusal where
  /-- Raised by exec's arm of an instruction that has no meaning yet. Safe. -/
  | notModelled (mnemonic : String)
  /-- Raised by step before anything else: the configuration is refused before any step (U19). Safe. -/
  | badConfiguration
  /-- Raised by the fetch of a request: a tag outside 0..8, or an argument outside its width (R89). Safe. -/
  | notARequest (why : Reject)
  /-- Raised by WRITE_SEQ, ISSUE, DRAIN, FILL, ACQUIRE and RELEASE in Uninit (R196, R222). Safe. -/
  | uninitialised
  /-- Raised by INIT when the mode is not Uninit (R196, R224). Safe. -/
  | alreadyInitialised
  /-- Raised by ACQUIRE sent by the current owner (R170, R196). Safe. -/
  | nestedAcquire
  /-- Raised by ACQUIRE whose `who` is not its sender (R170). Safe. -/
  | notTheSender
  /-- Raised by RELEASE by a requester that is not the owner (R171, R196). Safe. -/
  | notTheOwner
  /-- Raised by a LUT instruction when no transaction is in flight: the device executes LUT instructions
  only as a transaction runs (R46), and the block never executes one (log 31). Safe. -/
  | noTransaction
  deriving DecidableEq, Repr

/-- The engine after the block's reset (R39, R220). -/
def Engine.reset : Engine where
  mode := .uninit
  owner := none
  job := none
  offer := 0
  hist := []
  trace := []

/-- The device at reset: the spec states no value of it (R39, R221), so every one of these is the model's. With the
family's layout (log 1) it takes the family's reset values: MCR 0x000F4000, FLSHCR 0x303, BUF0CR 3, LCKCR unlocked,
the rest 0 or empty (PRESUMED, unsafe, log 4). The LUT's bytes are free values (R221; log 5). -/
def Device.reset : Device where
  mem := []
  lutGen := 0
  lutLock := .unlocked
  keyArmed := false
  seqPtr := 0
  rxPtr := 0
  inFlight := none
  addr := 0
  ipcmd := 0
  ctrl := 0x000F4000
  rxctl := 0
  flshcfg := 0x00000303
  bufdesc := 0x00000003
  rxBuf := []
  txBuf := []
  clockOn := false
  lawless := false
  executed := []

/-- The machine right after reset, under configuration T (log 1), with no request sent. -/
def State.reset : State where
  cfg := Params.configT
  eng := Engine.reset
  dev := Device.reset
  port := []
  responses := []
  foreign := []
  answers := []
  schedule := []
  drawn := 0

end Sys2Proof.Machine
end

