-- ==== Sys2Proof/Machine/Operands.lean ====
section
/-! DEFINITION. The operands of the engine's accesses and of the device's instructions: the offset of each
role (10_state.md R30), where an action field is written (20_memory.md R64), the bytes of an RX word (R62),
the words of a FILL, and whether a pad width is wired (40_lut_instructions.md R119). -/

namespace Sys2Proof.Machine

/-- `OFF_<role>` (R30); `LUT[j]` is at `OFF_LUT + 4*j` (R34), the RX data window at `OFF_RXDATA + 4*m` (R35). -/
def offOf (p : Params) : Role → Nat
  | .ctrl => p.off.ctrl
  | .ipcmd => p.off.ipcmd
  | .flshcfg => p.off.flshcfg
  | .bufdesc => p.off.bufdesc
  | .addr => p.off.addr
  | .rxctl => p.off.rxctl
  | .status => p.off.status
  | .flags => p.off.flags
  | .txstat => p.off.txstat
  | .sptrclr => p.off.sptrclr
  | .lutkey => p.off.lutkey
  | .lckcr => p.off.lckcr
  | .lut j => p.off.lut + 4 * j.val
  | .rxdata m => p.off.rxdata + 4 * m
  | .txdata => p.off.txdata
  | .rxptrClr => p.off.rxptrClr

/-- The physical address of a window offset (R60): `REG_BASE + off`. -/
def busAddr (p : Params) (off : Nat) : Nat := p.regBase + off

/-- The role of the register that holds `RXPTR_CLR` (R31: its own offset; R64: it may be `CTRL` or `RXCTL`). -/
def rxptrRole (p : Params) : Role :=
  if p.off.rxptrClr = p.off.ctrl then .ctrl
  else if p.off.rxptrClr = p.off.rxctl then .rxctl
  else .rxptrClr

/-- The LUT word whose register is at offset `a`, if there is one (R34). -/
def lutIndex (p : Params) (a : Nat) : Option (Fin 64) :=
  if h : p.off.lut ≤ a ∧ (a - p.off.lut) % 4 = 0 ∧ (a - p.off.lut) / 4 < 64 then
    some ⟨(a - p.off.lut) / 4, h.2.2⟩
  else none

/-- The role of the register at an offset, for an access that an agent outside the block makes. -/
def roleAt (p : Params) (a : Nat) : Option Role :=
  if a = p.off.ctrl then some .ctrl
  else if a = p.off.ipcmd then some .ipcmd
  else if a = p.off.flshcfg then some .flshcfg
  else if a = p.off.bufdesc then some .bufdesc
  else if a = p.off.addr then some .addr
  else if a = p.off.rxctl then some .rxctl
  else if a = p.off.status then some .status
  else if a = p.off.flags then some .flags
  else if a = p.off.txstat then some .txstat
  else if a = p.off.sptrclr then some .sptrclr
  else if a = p.off.lutkey then some .lutkey
  else if a = p.off.lckcr then some .lckcr
  else if a = p.off.txdata then some .txdata
  else if a = p.off.rxdata then some (.rxdata 0)
  else if a = p.off.rxptrClr then some .rxptrClr
  else (lutIndex p a).map .lut

/-- The roles that 20_memory.md R67 calls 'not written'. -/
def readOnly : Role → Bool
  | .status | .txstat | .rxdata _ => true
  | .ctrl | .ipcmd | .flshcfg | .bufdesc | .addr | .rxctl | .flags | .sptrclr => false
  | .lutkey | .lckcr | .lut _ | .txdata | .rxptrClr => false

/-- A field is written by read-modify-write where its register is `CTRL` or `RXCTL`, and by a plain write
of its mask elsewhere (R64). -/
def isRmw : Role → Bool
  | .ctrl | .rxctl => true
  | .ipcmd | .flshcfg | .bufdesc | .addr | .status | .flags | .txstat | .sptrclr => false
  | .lutkey | .lckcr | .lut _ | .rxdata _ | .txdata | .rxptrClr => false

/-- An action field (R31): the role of its register and its mask. -/
structure Field where
  role : Role
  mask : Word
  deriving DecidableEq, Repr

/-- `RXPTR_CLR` (R31). -/
def fieldRxptrClr (p : Params) : Field := ⟨rxptrRole p, p.mask.rxptrClr⟩

/-- `SEQPTR_CLR`, in `SPTRCLR` (R31). -/
def fieldSeqptrClr (p : Params) : Field := ⟨.sptrclr, p.mask.seqptrClr⟩

/-- `RXPOP`, in `FLAGS` (R31). -/
def fieldRxpop (p : Params) : Field := ⟨.flags, p.mask.rxpop⟩

/-- `CLR_TXF`, in `CTRL` (R31). -/
def fieldClrTxf (p : Params) : Field := ⟨.ctrl, p.mask.clrTxf⟩

/-- `MDIS`, in `CTRL` (R31). -/
def fieldMdis (p : Params) : Field := ⟨.ctrl, p.mask.mdis⟩

/-- `SWRST_AHB.mask | SWRST_SF.mask` (70_reset_and_hazards.md R224). -/
def swrstMask (p : Params) : Word := p.mask.swrstAhb ||| p.mask.swrstSf

/-- The bits of `CTRL` that disable or reset the device (R31). -/
def haltMask (p : Params) : Word := p.mask.mdis ||| swrstMask p

/-- The value of `CTRL` or `RXCTL` after `RegSet` of a mask (00_scope.md R10). -/
def setBits (m v : Word) : Word := v ||| m

/-- The value after `RegClear` of a mask (R10). -/
def clearBits (m v : Word) : Word := v &&& ~~~m

/-- The value INIT writes to `RXCTL` (R224). -/
def watermarkValue (p : Params) (v : Word) : Word := (v &&& ~~~p.mask.rxwmk) ||| p.rxwmField4B

/-- The field tests true: `(v & F.mask) != 0` (10_state.md R31). -/
def fieldSet (m v : Word) : Bool := decide (v &&& m ≠ 0#32)

/-- `bytes(w)` of 43_transaction_engine.md R153, by `RX_BYTE_ORDER` (20_memory.md R62). -/
def rxBytes (o : ByteOrder) (w : Word) : List Byte :=
  let l := [w.extractLsb' 0 8, w.extractLsb' 8 8, w.extractLsb' 16 8, w.extractLsb' 24 8]
  match o with
  | .little => l
  | .big => l.reverse

/-- The RX word whose `bytes` are `a, b, c, d`, the oldest first (10_state.md R35; R62). -/
def rxWordOf (o : ByteOrder) (a b c d : Byte) : Word :=
  match o with
  | .little => d ++ c ++ b ++ a
  | .big => a ++ b ++ c ++ d

/-- The bytes DRAIN keeps of one RX word: `take(min(4, size - len(out)), bytes(w))` (R153). -/
def drainTake (o : ByteOrder) (size : Word) (out : List Byte) (w : Word) : List Byte :=
  out ++ (rxBytes o w).take (min 4 (size.toNat - out.length))

/-- `lim` of FILL (R154). -/
def fillLimit (p : Params) (data : List Word) : Nat := min data.length p.txCapacity

/-- The size FILL passes to its inner ISSUE: `(4*n) & 0xFFFF` (R154). -/
def fillSize (n : Nat) : Half := BitVec.ofNat 16 (4 * n)

/-- The pad width of code `c` is wired (R119; log 19). -/
def padWired (p : Params) (pad : BitVec 2) : Bool := p.wiredPads.getLsbD pad.toNat

/-- The number of data lines a pad code selects (30_encoding.md R83, D4). -/
def padLines (pad : BitVec 2) : Nat := 2 ^ pad.toNat

end Sys2Proof.Machine
end

