-- ==== Sys2Proof/Machine/Flags.lean ====
section
/-! DEFINITION. The status flags, which are the block's condition codes (10_state.md R38), and what a
register read answers: the device contract fixes some bits (R35, R38, R45, R48, R50, R51), the drawn word
gives the rest (00_scope.md R5; log 8, log 9); and whether the controller is enabled (R31). -/

namespace Sys2Proof.Machine

/-- `BUSY` reads set while a transaction is in flight (R45). -/
def Device.busy (d : Device) : Bool := d.inFlight.isSome

/-- `RXWM` is set while the RX buffer holds at least one watermark of 4 bytes (R48), whatever the `RXWMK` field of
`RXCTL` holds (DESIGN CHOICE, log 39). -/
def Device.rxwm (d : Device) : Bool := decide (rxWatermarkBytes ≤ d.rxBuf.length)

/-- `TXFULL` is set while the TX buffer holds its capacity (R50), which is `TX_CAPACITY_WORDS`, and clear below it
(DEDUCED, log 41). -/
def Device.txfull (p : Params) (d : Device) : Bool := decide (p.txCapacity ≤ d.txBuf.length)

/-- `TXNE` is set while the TX buffer holds a word (R51). -/
def Device.txne (d : Device) : Bool := !d.txBuf.isEmpty

/-- `w` with the field tested by `m` reading as `b` says, its other bits kept: a field is set when some bit of
its mask is (R31). -/
def putFlag (m : Word) (b : Bool) (w : Word) : Word :=
  if b then (if w &&& m = 0#32 then w ||| m else w) else w &&& ~~~m

/-- The flags of one register: the clear ones first, then the set ones, so that bits two masks share read set
(log 8). -/
def putFlags (fs : List (Word × Bool)) (w : Word) : Word :=
  let cleared := (fs.filter (fun f => !f.2)).foldl (fun v f => putFlag f.1 false v) w
  (fs.filter (fun f => f.2)).foldl (fun v f => putFlag f.1 true v) cleared

/-- What a read of `STATUS` answers, with the drawn word `w` for the bits no rule fixes. -/
def statusAnswer (p : Params) (d : Device) (w : Word) : Word :=
  putFlags [(p.mask.busy, d.busy), (p.mask.rxwm, d.rxwm), (p.mask.txfull, d.txfull p)] w

/-- What a read of `TXSTAT` answers. -/
def txstatAnswer (p : Params) (d : Device) (w : Word) : Word := putFlag p.mask.txne d.txne w

/-- What a read of `RXDATA + 4*m` answers: the word of buffer bytes `4m .. 4m+3` from the oldest (R35); a byte
the buffer does not hold is the drawn word's. -/
def rxAnswer (p : Params) (d : Device) (m : Nat) (w : Word) : Word :=
  let b := fun i => d.rxBuf.getD (4 * m + i) ((rxBytes p.rxByteOrder w).getD i 0)
  rxWordOf p.rxByteOrder (b 0) (b 1) (b 2) (b 3)

/-- Whether the controller is enabled: its clock is on (70_reset_and_hazards.md R225), `MDIS` is clear, for 'the
controller is disabled while set' (R31; log 10, log 37), and no software-reset bit is held set (R31, R224, which say
nothing of the device while one is: DEDUCED, log 40). -/
def Device.enabled (p : Params) (d : Device) : Bool := d.clockOn && !fieldSet (haltMask p) d.ctrl

/-- What the device answers to a read, with the drawn word `w`. Only `STATUS`, `TXSTAT` and `RXDATA` reads are bound
by the contract (R40 to R52); every other register answers the drawn word (R5; log 9). So does every register of a
lawless device (R52, R53; log 6), and of one whose clock is off (R225; log 10). -/
def readAnswer (p : Params) (d : Device) (r : Role) (w : Word) : Word :=
  if d.lawless || !d.clockOn then w
  else
    match r with
    | .status => statusAnswer p d w
    | .txstat => txstatAnswer p d w
    | .rxdata m => rxAnswer p d m w
    | .ctrl | .rxctl | .ipcmd | .flshcfg | .bufdesc | .addr | .flags | .sptrclr | .lutkey | .lckcr => w
    | .lut _ | .txdata | .rxptrClr => w

end Sys2Proof.Machine
end

