-- ==== Sys2Proof/Machine/Memory.lean ====
section
/-! DEFINITION. The LUT's storage (10_state.md R34, R40, R43) as a list of (window offset, byte) in one canonical
form: offsets strictly rising, each inside the window. The list holds the bytes that an effective write gave; to be
listed is the mark 'was written' of R53. Every other byte holds a free value (70_reset_and_hazards.md R221; log 5),
so none is left out for being equal to one. A 32-bit register lies as four bytes, the least significant at the
lowest offset; every access is 32 bits wide (20_memory.md R61), so no access can see that order (log 24). -/

namespace Sys2Proof.Machine

/-- What an offset that is not listed holds: the free byte of the LUT's `gen`-th unspecified content (R221; log 5). -/
def Memory.unlisted (gen a : Nat) : Byte := Config.freeLut gen a

/-- The byte an effective write gave an offset; `none` where nothing has written since the LUT was last unspecified
(R53). -/
def Memory.read : List Host.Cell → Nat → Option Byte
  | [], _ => none
  | (b, v) :: rest, a => if b = a then some v else Memory.read rest a

/-- The byte an offset holds, written or not (R221). -/
def Memory.value (gen : Nat) (m : List Host.Cell) (a : Nat) : Byte := (Memory.read m a).getD (Memory.unlisted gen a)

/-- Write one byte, keeping the offsets strictly rising. -/
def Memory.write : List Host.Cell → Nat → Byte → List Host.Cell
  | [], a, v => [(a, v)]
  | (b, w) :: rest, a, v =>
    if a < b then (a, v) :: (b, w) :: rest
    else if a = b then (a, v) :: rest
    else (b, w) :: Memory.write rest a v

/-- The canonical form. -/
def Memory.wf (m : List Host.Cell) : Bool :=
  decide ((m.map Prod.fst).Pairwise (· < ·)) && m.all (fun c => decide (c.1 < windowBytes))

/-- Write a 32-bit register. -/
def Memory.writeWord (m : List Host.Cell) (a : Nat) (w : Word) : List Host.Cell :=
  let m1 := Memory.write m a (w.extractLsb' 0 8)
  let m2 := Memory.write m1 (a + 1) (w.extractLsb' 8 8)
  let m3 := Memory.write m2 (a + 2) (w.extractLsb' 16 8)
  Memory.write m3 (a + 3) (w.extractLsb' 24 8)

/-- The 16 bits at an offset, if both bytes were written. -/
def Memory.readHalf (m : List Host.Cell) (a : Nat) : Option Half :=
  match Memory.read m a, Memory.read m (a + 1) with
  | some x, some y => some (y ++ x)
  | _, _ => none

/-- The 32 bits at an offset, if all four bytes were written. -/
def Memory.readWord (m : List Host.Cell) (a : Nat) : Option Word :=
  match Memory.readHalf m a, Memory.readHalf m (a + 2) with
  | some x, some y => some (y ++ x)
  | _, _ => none

/-- The offset of `LUT[j]` (R34). -/
def lutOff (p : Params) (j : Nat) : Nat := p.off.lut + 4 * j

/-- The value `LUT[j]` holds, written or not (R34, R221). -/
def Device.lutReg (p : Params) (d : Device) (j : Nat) : Word :=
  (Memory.value d.lutGen d.mem (lutOff p j + 3) ++ Memory.value d.lutGen d.mem (lutOff p j + 2)) ++
    (Memory.value d.lutGen d.mem (lutOff p j + 1) ++ Memory.value d.lutGen d.mem (lutOff p j))

/-- The value that effective writes gave `LUT[j]`, if they gave every byte of it (R43, R53). -/
def Device.lutWord (p : Params) (d : Device) (j : Nat) : Option Word := Memory.readWord d.mem (lutOff p j)

/-- The LUT instruction `I_i` of sequence `s` (30_encoding.md R87; 10_state.md R46): slot `i % 2` of
`LUT[4*s + i/2]`, if it was written (R53). -/
def Device.lutHalf (p : Params) (d : Device) (seq : BitVec 4) (i : Nat) : Option Half :=
  Memory.readHalf d.mem (lutOff p (4 * seq.toNat + i / 2) + 2 * (i % 2))

end Sys2Proof.Machine
end

