-- ==== Sys2Proof/Machine/Ops.lean ====
section
/-! DEFINITION. The named operations every meaning is written with: drawing a free value; the device's own
effects (10_state.md R40 to R53); the register read and write of 00_scope.md R10; the bounded wait of
43_transaction_engine.md R150; accepting a request (10_state.md R24, R25; 60_exceptions.md R196), raising an
error (R193), responding (R24), and one engine step of a request in service (00_scope.md R5). -/

namespace Sys2Proof.Machine

/-! ### Free values (log 2) -/

/-- One oracle or platform answer: the next given one, and once they are used up the free value. -/
def State.draw (s : State) : Word × State :=
  match s.answers with
  | w :: ws => (w, { s with answers := ws })
  | [] => (Config.freeWord s.drawn, { s with drawn := s.drawn + 1 })

/-- `n` drawn words. -/
def State.drawWords : Nat → State → List Word × State
  | 0, s => ([], s)
  | n + 1, s =>
    let d := s.draw
    let r := State.drawWords n d.2
    (d.1 :: r.1, r.2)

/-- Whose turn it is: the next given turn, and once they are used up the free value. -/
def State.takeTurn (s : State) : Turn × State :=
  match s.schedule with
  | t :: ts => (t, { s with schedule := ts })
  | [] => (Config.freeTurn s.drawn, { s with drawn := s.drawn + 1 })

/-! ### Updates -/

/-- Change the device. -/
def State.mapDev (f : Device → Device) (s : State) : State := { s with dev := f s.dev }

/-- Change the engine. -/
def State.mapEng (f : Engine → Engine) (s : State) : State := { s with eng := f s.eng }

/-- Append to the access history (R10). -/
def State.log (e : Event) (s : State) : State := s.mapEng (fun g => { g with hist := g.hist ++ [e] })

/-- `Trace(ev)` (60_exceptions.md R200). -/
def State.traceEv (t : TraceEvent) (s : State) : State :=
  s.mapEng (fun g => { g with trace := g.trace ++ [t] })

/-! ### Where the device contract ends (log 6, log 7) -/

/-- After this no rule binds the device's answers: a race (R52), a sequence never written (R53). -/
def State.setLawless (s : State) : State := s.mapDev (fun d => { d with lawless := true })

/-- A write that R52 lists is a race while a transaction is in flight. -/
def State.raceIfFlying (s : State) : State := if s.dev.inFlight.isSome then s.setLawless else s

/-- The transaction in flight has no constrained outcome from here on (R110, R119, R233). -/
def State.setWild (s : State) : State :=
  s.mapDev (fun d => { d with inFlight := d.inFlight.map (fun t => { t with wild := true }) })

/-- The RX buffer holds any bytes, at most its capacity (U3, U12). -/
def State.drawRx (s : State) : State :=
  let d := s.draw
  let l := State.drawWords (d.1.toNat % (s.cfg.rxCapacity + 1)) d.2
  l.2.mapDev (fun v => { v with rxBuf := l.1.map (fun w => w.setWidth 8) })

/-- The TX buffer holds any words, at most its capacity. -/
def State.drawTx (s : State) : State :=
  let d := s.draw
  let l := State.drawWords (d.1.toNat % (s.cfg.txCapacity + 1)) d.2
  l.2.mapDev (fun v => { v with txBuf := l.1 })

/-- An access to another register than the lock's two may disarm an armed key: the oracle answers either way
(R41, U6; log 25). -/
def State.disturbKey (s : State) : State :=
  if s.dev.keyArmed then
    let d := s.draw
    d.2.mapDev (fun v => { v with keyArmed := d.1.getLsbD 0 })
  else s

/-! ### What a register write does at the device (20_memory.md R67) -/

/-- The RX pointer is cleared and stale data is no longer delivered (R47, D38, R237; log 23). -/
def State.dropRx (s : State) : State := s.mapDev (fun d => { d with rxBuf := [], rxPtr := 0 })

/-- `RXPTR_CLR` in `RXCTL` or a register of its own; a race while a transaction is in flight (R52). -/
def State.rxptrClear (s : State) : State := s.raceIfFlying.dropRx

/-- `RXPOP`: the oldest watermark leaves the RX buffer (R49); with `RXWM` clear the RX buffer is any value
afterwards (U3). -/
def State.rxPop (s : State) : State :=
  if s.dev.rxwm then
    s.mapDev (fun d => { d with rxBuf := d.rxBuf.drop rxWatermarkBytes, rxPtr := d.rxPtr + rxWatermarkBytes })
  else s.drawRx

/-- Every value of the device is any value: the registers, the lock, the key, the cursor, the RX pointer, the
buffers, and the LUT, which is unspecified again; no transaction is in flight (U9, U13, U14; log 11, log 18). -/
def State.drawDevice (s : State) : State :=
  let l := State.drawWords 10 s
  let w := fun i => l.1.getD i 0
  (l.2.mapDev (fun d =>
    { d with
      mem := []
      lutGen := d.lutGen + 1
      lutLock := if (w 0).getLsbD 0 then .unlocked else .locked
      keyArmed := (w 0).getLsbD 1
      seqPtr := (w 1).toNat % (instrPerSeq + 1)
      rxPtr := (w 2).toNat
      addr := w 3
      ipcmd := w 4
      ctrl := w 5
      rxctl := w 6
      flshcfg := w 7
      bufdesc := w 8
      inFlight := none })).drawRx.drawTx

/-- A software reset: what it leaves is in no source, so the whole device is drawn, and so is whether a transaction
is in flight, and which (R225, U13, U14; log 11). -/
def State.softReset (s : State) : State :=
  let l := State.drawWords 2 s.drawDevice
  let w := fun i => l.1.getD i 0
  l.2.mapDev (fun d =>
    { d with
      executed := []
      inFlight :=
        if (w 0).getLsbD 0 then
          some { seq := (w 0).extractLsb' 24 4, addr := w 1, size := (w 0).extractLsb' 8 16, start := d.seqPtr,
                 wild := (w 0).getLsbD 1 }
        else none })

/-- A `CTRL` write of `v` is one of the races of R52 while a transaction is in flight: it sets `CLR_TXF`, or
`RXPTR_CLR` where the configuration puts it here. -/
def ctrlRaces (p : Params) (v : Word) : Bool :=
  fieldSet p.mask.clrTxf v || (decide (rxptrRole p = .ctrl) && fieldSet p.mask.rxptrClr v)

/-- A write to `CTRL`: the register takes the value, of which `MDIS` disables the controller (R31; log 37); the
software-reset bits reset (R224), once, at the write, and the controller is not enabled while they stay set
(DEDUCED, log 40); `CLR_TXF` empties the TX buffer, `CLR_RXF` the RX buffer (R51), and `RXPTR_CLR` acts where the
configuration puts it here. A race is judged on the transaction in flight when the write arrives (R52); a reset that
the same write asks for comes before its clears (DEDUCED, log 11). Some bit of a field's mask set is the field set
(DEDUCED, log 38). -/
def State.writeCtrl (v : Word) (s : State) : State :=
  let s0 := if ctrlRaces s.cfg v then s.raceIfFlying else s
  let s1 := s0.mapDev (fun d => { d with ctrl := v })
  let s2 := if fieldSet (swrstMask s.cfg) v then s1.softReset else s1
  let s3 := if fieldSet s.cfg.mask.clrTxf v then s2.mapDev (fun d => { d with txBuf := [] }) else s2
  let s4 := if fieldSet s.cfg.mask.clrRxf v then s3.mapDev (fun d => { d with rxBuf := [] }) else s3
  if rxptrRole s.cfg = .ctrl ∧ fieldSet s.cfg.mask.rxptrClr v then s4.dropRx else s4

/-- A write to `RXCTL`: configuration, and `RXPTR_CLR` where the configuration puts it here. -/
def State.writeRxctl (v : Word) (s : State) : State :=
  let s1 := s.mapDev (fun d => { d with rxctl := v })
  if rxptrRole s.cfg = .rxctl ∧ fieldSet s.cfg.mask.rxptrClr v then s1.rxptrClear else s1

/-- The transaction of an IP-command word is in flight (R44). -/
def State.startFlight (w : Word) (wild : Bool) (s : State) : State :=
  s.mapDev (fun d =>
    { d with
      inFlight := some { seq := ipcmdSeq w, addr := d.addr, size := ipcmdSize w, start := d.seqPtr, wild := wild }
      executed := [] })

/-- A write to `IPCMD` starts the transaction of sequence `w[27:24]` at the address last written to `ADDR`, with
size `w[15:0]` (R44). While one is in flight it is a race (R52, U7), after which the device holds the one it had and
starts no other (DESIGN CHOICE, log 6). A controller that is disabled starts it or not, as drawn, and then without a
constrained outcome (R31; log 37, log 40). -/
def State.writeIpcmd (w : Word) (s : State) : State :=
  let s1 := s.mapDev (fun d => { d with ipcmd := w })
  match s.dev.inFlight with
  | some _ => s1.setLawless
  | none =>
    if s.dev.enabled s.cfg then s1.startFlight w false
    else
      let b := s1.draw
      if b.1.getLsbD 0 then b.2.startFlight w true else b.2

/-- A write to `LUTKEY`: the key arms the lock control (R41); what another value does is open (U6). -/
def State.writeLutkey (v : Word) (s : State) : State :=
  if v = s.cfg.lutKey then s.mapDev (fun d => { d with keyArmed := true })
  else
    let w := s.draw
    w.2.mapDev (fun d => { d with keyArmed := w.1.getLsbD 0 })

/-- A write to `LCKCR` takes effect only with the key armed, and consumes it (R41, R42); the effect of a third
value on the lock is open (U5). -/
def State.writeLckcr (v : Word) (s : State) : State :=
  if s.dev.keyArmed then
    if v = s.cfg.lckUnlock then s.mapDev (fun d => { d with keyArmed := false, lutLock := .unlocked })
    else if v = s.cfg.lckLock then s.mapDev (fun d => { d with keyArmed := false, lutLock := .locked })
    else
      let w := s.draw
      w.2.mapDev (fun d =>
        { d with keyArmed := false, lutLock := if w.1.getLsbD 0 then .unlocked else .locked })
  else s

/-- A write to `LUT[j]` takes effect only while the LUT is unlocked (R40, R43). While a transaction is in flight it
is a race, whichever sequence the word belongs to (R74; 42_lut_manager.md R144; log 42). -/
def State.writeLut (j : Fin 64) (v : Word) (s : State) : State :=
  let s1 := s.raceIfFlying
  if s.dev.lutLock = .unlocked then
    s1.mapDev (fun d => { d with mem := Memory.writeWord d.mem (lutOff s.cfg j.val) v })
  else s1

/-- A write to `TXDATA` appends one word (R50); a race while a transaction is in flight (R52), and
unconstrained with the buffer full (U4; log 26). -/
def State.writeTxdata (v : Word) (s : State) : State :=
  let s1 := s.raceIfFlying
  if s.dev.txfull s.cfg then s1.setLawless else s1.mapDev (fun d => { d with txBuf := d.txBuf ++ [v] })

/-- What a write that takes effect does, by role (20_memory.md R67). An action field is set by a write that sets
some bit of its mask (DEDUCED, log 38). -/
def State.writeEffect (r : Role) (v : Word) (s : State) : State :=
  match r with
  | .ctrl => s.writeCtrl v
  | .ipcmd => s.writeIpcmd v
  | .flshcfg => s.mapDev (fun d => { d with flshcfg := v })
  | .bufdesc => s.mapDev (fun d => { d with bufdesc := v })
  | .addr => s.raceIfFlying.mapDev (fun d => { d with addr := v })
  | .rxctl => s.writeRxctl v
  | .status => s
  | .flags => if fieldSet s.cfg.mask.rxpop v then s.rxPop else s
  | .txstat => s
  | .sptrclr =>
    if fieldSet s.cfg.mask.seqptrClr v then s.raceIfFlying.mapDev (fun d => { d with seqPtr := 0 }) else s
  | .lutkey => s.writeLutkey v
  | .lckcr => s.writeLckcr v
  | .lut j => s.writeLut j v
  | .rxdata _ => s
  | .txdata => s.writeTxdata v
  | .rxptrClr => if fieldSet s.cfg.mask.rxptrClr v then s.rxptrClear else s

/-- The two registers whose accesses the armed key waits for (R41). -/
def keepsKey : Role → Bool
  | .lutkey | .lckcr => true
  | .ctrl | .ipcmd | .flshcfg | .bufdesc | .addr | .rxctl | .status | .flags | .txstat => false
  | .sptrclr | .lut _ | .rxdata _ | .txdata | .rxptrClr => false

/-- A write that reaches the device while the peripheral clock is off: whether it takes effect is drawn
(70_reset_and_hazards.md R225, U14; log 10). -/
def State.writeUnclocked (r : Role) (v : Word) (s : State) : State :=
  let w := s.draw
  if w.1.getLsbD 0 then w.2.writeEffect r v else w.2

/-- A write reaching the device. -/
def State.devWrite (r : Role) (v : Word) (s : State) : State :=
  let s1 := if keepsKey r then s else s.disturbKey
  if s1.dev.clockOn then s1.writeEffect r v else s1.writeUnclocked r v

/-- A read reaching the device: the answer; it changes nothing else (R67), but for an armed key (U6). -/
def State.devRead (r : Role) (s : State) : Word × State :=
  let s1 := if keepsKey r then s else s.disturbKey
  let w := s1.draw
  (readAnswer w.2.cfg w.2.dev r w.1, w.2)

/-! ### The engine's accesses (00_scope.md R10) -/

/-- `RegWrite(OFF_<role>, v)`. -/
def State.regWrite (r : Role) (v : Word) (s : State) : State :=
  (s.devWrite r v).log (.wr (offOf s.cfg r) v)

/-- `RegRead(OFF_<role>)`. -/
def State.regRead (r : Role) (s : State) : Word × State :=
  let d := s.devRead r
  (d.1, d.2.log (.rd (offOf s.cfg r) d.1))

/-- A read-modify-write, one access a step (20_memory.md R66): `none` when it is done. -/
def State.rmw (r : Role) (f : Word → Word) (a : ActPos) (s : State) : Option ActPos × State :=
  match a with
  | .start =>
    let v := s.regRead r
    (some (.write v.1), v.2)
  | .write v => (none, s.regWrite r (f v))

/-- `Act(F)`, one access a step (R64): `none` when it is done. -/
def State.act (F : Field) (a : ActPos) (s : State) : Option ActPos × State :=
  if isRmw F.role then s.rmw F.role (setBits F.mask) a else (none, s.regWrite F.role F.mask)

/-- How one poll of a bounded wait ends (R150): satisfied, to be polled again, or expired. -/
inductive Poll where
  | satisfied
  | again (i : Nat)
  | expired
  deriving DecidableEq, Repr

/-- Poll `i` of `WaitUntil(off, p, E)` (R150): the wait expires when poll `WAIT_LIMIT` fails. -/
def State.poll (r : Role) (ok : Word → Bool) (i : Nat) (s : State) : Poll × State :=
  let v := s.regRead r
  (if ok v.1 then .satisfied else if i < s.cfg.waitLimit then .again (i + 1) else .expired, v.2)

/-! ### Accepting, responding, raising -/

/-- What the port does with the request offered to it. -/
inductive Admission where
  | held
  | refused (r : Refusal)
  | accepted
  deriving DecidableEq, Repr

/-- A request is held while another is served or another requester owns the lock (10_state.md R25;
43_transaction_engine.md R172; log 13, log 14); in Uninit only INIT, ENCODE and DECODE are accepted
(70_reset_and_hazards.md R222). An INIT offered while another request is served is held too, and judged by the mode
that one leaves (DEDUCED, log 14). -/
def State.admission (needsInit : Bool) (s : State) : Admission :=
  if s.eng.mode = .active then .held
  else if s.eng.owner ≠ none ∧ s.eng.owner ≠ some s.eng.offer then .held
  else if needsInit ∧ s.eng.mode = .uninit then .refused .uninitialised
  else .accepted

/-- Accept the request offered: `mode` becomes Active and its task starts, with the internal actions its rule has
before any access (R24, R26). -/
def State.begin (t : Task) (l : List Internal) (s : State) : State :=
  s.mapEng (fun g =>
    { g with mode := .active, job := some { sender := g.offer, resume := g.mode, task := t, todo := l } })

/-- The request in service goes on from here. -/
def State.setTask (t : Task) (s : State) : State :=
  s.mapEng (fun g => { g with job := g.job.map (fun j => { j with task := t }) })

/-- The internal actions the request in service has before its next access. -/
def State.queue (l : List Internal) (s : State) : State :=
  s.mapEng (fun g => { g with job := g.job.map (fun j => { j with todo := l }) })

/-- `raise E`: the one way an error is taken (60_exceptions.md R193). Of the request in service nothing is left but
the response `Err(E)`: no further access, no clean-up. -/
def State.raise (e : ErrorKind) (s : State) : State := s.queue [.respond (.err e)]

/-- Give a response to a requester (R11). -/
def State.reply (who : Requester) (r : Response) (s : State) : State :=
  { s with responses := s.responses ++ [(who, r)] }

/-- Whether the response ends an INIT with `Ok`. -/
def Service.boots (j : Service) (r : Response) : Bool :=
  match j.task, r with
  | .init _, .ok _ => true
  | .init _, .err _ => false
  | .writeSeq _ _ _, _ | .issue _ _ _ _, _ | .drain _ _ _ _, _ | .fill _ _ _ _ _ _, _ => false

/-- What INIT settles on the device once it ends in `Ok`: the last column of R39, every other value as it is (R221,
R224; DEDUCED, log 10). -/
def Device.afterInit (p : Params) (d : Device) : Device :=
  { d with
    ctrl := clearBits (haltMask p) d.ctrl
    rxBuf := []
    txBuf := []
    rxctl := watermarkValue p d.rxctl
    flshcfg := p.flashTiming }

/-- `respond`: the response is given, the locals are discarded, and `mode` returns to the value it had when the
request was accepted, or is Idle after an INIT that ends in `Ok` (R24), which has then settled what R39 says of the
device. -/
def State.finish (r : Response) (s : State) : State :=
  match s.eng.job with
  | some j =>
    let t := if j.boots r then s.mapDev (Device.afterInit s.cfg) else s
    (t.mapEng (fun g =>
      { g with mode := if j.boots r then .idle else j.resume, job := none })).reply j.sender r
  | none => s

/-- One engine step of the request in service: its next internal action, and when it has none its next access
(00_scope.md R5). -/
def State.serve (access : State → State) (s : State) : State :=
  match s.eng.job with
  | none => s
  | some j =>
    match j.todo with
    | [] => access s
    | .trace ev :: rest => (s.traceEv ev).queue rest
    | .respond r :: _ => s.finish r

/-- The response of a request served in one step: `mode` goes to Active and back (41_encoder.md R130; log 3). -/
def State.replyNow (r : Response) (s : State) : State := s.reply s.eng.offer r

/-! ### The device's transaction (10_state.md R45, R46) -/

/-- The transaction completes: `in_flight` becomes none and `BUSY` reads clear (R45). -/
def State.complete (s : State) : State := s.mapDev (fun d => { d with inFlight := none })

/-- Record an instruction of the transaction (log 27). -/
def State.record (i : Instr) (s : State) : State := s.mapDev (fun d => { d with executed := d.executed ++ [i] })

/-- The cursor moves to the next instruction; after the eighth the transaction completes (R46, R87, R100), and the
cursor then stands past it, at 8 (DESIGN CHOICE, log 32). -/
def State.advance (s : State) : State :=
  if s.dev.seqPtr + 1 < instrPerSeq then s.mapDev (fun d => { d with seqPtr := d.seqPtr + 1 })
  else (s.mapDev (fun d => { d with seqPtr := instrPerSeq })).complete

/-- A byte from the flash enters the RX buffer (40_lut_instructions.md R108; 10_state.md R35); one more than it
holds leaves the RX data and the transaction unconstrained (70_reset_and_hazards.md R233, U12). What counts is the
bytes in the buffer when it arrives, not all that the transaction has delivered (DEDUCED, log 44). -/
def State.rxPush (b : Byte) (s : State) : State :=
  if s.dev.rxBuf.length < s.cfg.rxCapacity then s.mapDev (fun d => { d with rxBuf := d.rxBuf ++ [b] })
  else s.drawRx.setWild

/-- The oldest word leaves the TX buffer (R36, R109). -/
def State.txTake (s : State) : State := s.mapDev (fun d => { d with txBuf := d.txBuf.tail })

/-- A transaction without a constrained outcome: any of its buffers' contents, its cursor and its completion may
change (log 7). -/
def State.wildStep (s : State) : State :=
  let w := s.draw
  let s1 := if w.1.getLsbD 0 then w.2.drawRx else w.2
  let s2 := if w.1.getLsbD 1 then s1.txTake else s1
  let s3 := if w.1.getLsbD 2 then
      s2.mapDev (fun d => { d with seqPtr := (w.1.extractLsb' 8 8).toNat % (instrPerSeq + 1) }) else s2
  if w.1.getLsbD 3 then s3.complete else s3

/-- The device meets LUT words that were never written since reset: the transaction and every later answer are
unconstrained (R53, U1). -/
def State.runUnwritten (s : State) : State := s.setWild.setLawless

/-- A LUT instruction of the transaction in flight, executed by the device: recorded, then its effect; with a pad
width that is not wired the transaction has no constrained outcome (R119, U11). With no transaction in flight
the device executes none (R46; log 31). -/
def lutPhase (i : Instr) (pad : BitVec 2) (effect : State → State) (s : State) :
    Host.Outcome State Fault Refusal :=
  match s.dev.inFlight with
  | none => .refused .noTransaction
  | some _ => if padWired s.cfg pad then .next (effect s) else .next (s.record i).setWild

/-- The effect of a phase that moves no data to or from the buffers: it is done, and the cursor moves on. -/
def phaseDone (i : Instr) (s : State) : State := (s.record i).advance

/-- One step of a read phase: drawn bit 8 says whether a byte (bits 7..0) arrives, bit 9 whether the phase is done
(R108, N9; log 16). -/
def phaseRead (i : Instr) (s : State) : State :=
  let w := s.draw
  let s1 := if w.1.getLsbD 8 then w.2.rxPush (w.1.extractLsb' 0 8) else w.2
  if w.1.getLsbD 9 then phaseDone i s1 else s1

/-- One step of a write phase: drawn bit 8 says whether a TX word is consumed, bit 9 whether the phase is done
(R109, N9; log 16). -/
def phaseWrite (i : Instr) (s : State) : State :=
  let w := s.draw
  let s1 := if w.1.getLsbD 8 then w.2.txTake else w.2
  if w.1.getLsbD 9 then phaseDone i s1 else s1

end Sys2Proof.Machine
end

