-- ==== Sys2Proof/Machine/Boot.lean ====
section
/-! DEFINITION. INIT (70_reset_and_hazards.md R224 to R226): the boot procedure, one register access or internal
action a step. -/

namespace Sys2Proof.Machine

/-- INIT goes on from `pos`. -/
def initAt (pos : InitPos) (s : State) : State := s.setTask (.init pos)

/-- A read-modify-write of INIT: `stay` while it lasts, `next` when it is done. -/
def initRmw (r : Role) (f : Word → Word) (a : ActPos) (stay : ActPos → InitPos) (next : InitPos) (s : State) :
    State :=
  let x := s.rmw r f a
  match x.1 with
  | some b => initAt (stay b) x.2
  | none => initAt next x.2

/-- One access, platform call or hold of INIT in service. `map_window` and `clock_enable` succeed if the drawn bit 0
is set (60_exceptions.md R202, U21); a clock that was enabled is on (log 10). `mode <- Idle` is part of the response
(R24; log 3). -/
def initStep (pos : InitPos) (s : State) : State :=
  match pos with
  | .map =>
    let w := s.draw
    if w.1.getLsbD 0 then initAt (.disable .start) w.2 else w.2.raise .mapError
  | .disable a => initRmw .ctrl (setBits s.cfg.mask.mdis) a .disable (.resetSet .start) s
  | .resetSet a => initRmw .ctrl (setBits (swrstMask s.cfg)) a .resetSet .hold s
  | .hold => initAt (.resetClear .start) s
  | .resetClear a => initRmw .ctrl (clearBits (swrstMask s.cfg)) a .resetClear (.enable .start) s
  | .enable a => initRmw .ctrl (clearBits s.cfg.mask.mdis) a .enable .clock s
  | .clock =>
    let w := s.draw
    if w.1.getLsbD 0 then initAt (.clearBuffers .start) (w.2.mapDev (fun d => { d with clockOn := true }))
    else w.2.raise .clockError
  | .clearBuffers a =>
    initRmw .ctrl (setBits (s.cfg.mask.clrRxf ||| s.cfg.mask.clrTxf)) a .clearBuffers (.watermark .start) s
  | .watermark a => initRmw .rxctl (watermarkValue s.cfg) a .watermark .timing s
  | .timing => (s.regWrite .flshcfg s.cfg.flashTiming).queue [.respond (.ok .unit)]

/-- INIT (R224): accepted in Uninit only. -/
def execInit (s : State) : Host.Outcome State Fault Refusal :=
  match s.eng.job with
  | some j =>
    match j.task with
    | .init pos => .next (s.serve (initStep pos))
    | .writeSeq _ _ _ | .issue _ _ _ _ | .drain _ _ _ _ | .fill _ _ _ _ _ _ => .next s
  | none =>
    match s.admission false with
    | .held => .next s
    | .refused r => .refused r
    | .accepted =>
      if s.eng.mode = .uninit then .next (s.begin (.init .map) []) else .refused .alreadyInitialised

end Sys2Proof.Machine
end

