-- ==== Sys2Proof/Machine/Encoder.lean ====
section
/-! DEFINITION. The Instruction Encoder (41_encoder.md R130 to R133): two requests served in one step, with no
register access and no failure. -/

namespace Sys2Proof.Machine

/-- ENCODE (R130). -/
def execEncode (i0 i1 : Triple) (s : State) : Host.Outcome State Fault Refusal :=
  match s.admission false with
  | .held => .next s
  | .refused r => .refused r
  | .accepted => .next (s.replyNow (.ok (.word (encodeWord i0 i1))))

/-- DECODE (R131). -/
def execDecode (w : Word) (s : State) : Host.Outcome State Fault Refusal :=
  match s.admission false with
  | .held => .next s
  | .refused r => .refused r
  | .accepted => .next (s.replyNow (.ok (.pair (decodeWord w).1 (decodeWord w).2)))

end Sys2Proof.Machine
end

