-- ==== Sys2Proof/Machine/LutInstr.lean ====
section
/-! DEFINITION. The LUT instructions (40_lut_instructions.md R100 to R119) as the device executes them in the
transaction in flight. The block itself only packs and unpacks them (Decode.lean). What the phases do on the
serial-flash bus is out of scope (00_scope.md R4(g)): in the state they are recorded with their pad and operand
(`executed`), they move the cursor, and the read and write phases move data. -/

namespace Sys2Proof.Machine

/-- STOP (R101) ends the transaction, whatever the slots after it hold; the cursor stays on it (DESIGN CHOICE, log
32). With a nonzero pad or operand any other effect is open: every value of the device is drawn (U9; log 18). A STOP
has no phase, so whether its pad width is wired does not matter (R119; DEDUCED, log 43). -/
def execStop (pad : BitVec 2) (operand : Byte) (s : State) : Host.Outcome State Fault Refusal :=
  match s.dev.inFlight with
  | none => .refused .noTransaction
  | some _ =>
    let s1 := s.record (.stop pad operand)
    .next (if pad = 0#2 ∧ operand = 0#8 then s1 else s1.drawDevice).complete

/-- CMD (R102): the command phase sends the operand. -/
def execCmd (pad : BitVec 2) (operand : Byte) (s : State) : Host.Outcome State Fault Refusal :=
  lutPhase (.cmd pad operand) pad (phaseDone (.cmd pad operand)) s

/-- ADDR (R103): the address phase. -/
def execAddr (pad : BitVec 2) (operand : Byte) (s : State) : Host.Outcome State Fault Refusal :=
  lutPhase (.addr pad operand) pad (phaseDone (.addr pad operand)) s

/-- DUMMY (R104): the dummy phase. -/
def execDummy (pad : BitVec 2) (operand : Byte) (s : State) : Host.Outcome State Fault Refusal :=
  lutPhase (.dummy pad operand) pad (phaseDone (.dummy pad operand)) s

/-- MODE (R105): a mode phase. -/
def execMode (pad : BitVec 2) (operand : Byte) (s : State) : Host.Outcome State Fault Refusal :=
  lutPhase (.mode pad operand) pad (phaseDone (.mode pad operand)) s

/-- MODE2 (R106): a mode phase. -/
def execMode2 (pad : BitVec 2) (operand : Byte) (s : State) : Host.Outcome State Fault Refusal :=
  lutPhase (.mode2 pad operand) pad (phaseDone (.mode2 pad operand)) s

/-- MODE4 (R107): a mode phase. -/
def execMode4 (pad : BitVec 2) (operand : Byte) (s : State) : Host.Outcome State Fault Refusal :=
  lutPhase (.mode4 pad operand) pad (phaseDone (.mode4 pad operand)) s

/-- READ (R108): the read phase moves data from the flash into the RX buffer. -/
def execRead (pad : BitVec 2) (operand : Byte) (s : State) : Host.Outcome State Fault Refusal :=
  lutPhase (.read pad operand) pad (phaseRead (.read pad operand)) s

/-- WRITE (R109): the write phase sends data from the TX buffer. -/
def execWrite (pad : BitVec 2) (operand : Byte) (s : State) : Host.Outcome State Fault Refusal :=
  lutPhase (.write pad operand) pad (phaseWrite (.write pad operand)) s

/-- JUMP_ON_CS (R110): its device effect is unspecified, and the transaction has no constrained outcome (U10). -/
def execJumpOnCs (pad : BitVec 2) (operand : Byte) (s : State) : Host.Outcome State Fault Refusal :=
  lutPhase (.jumpOnCs pad operand) pad (fun t => (t.record (.jumpOnCs pad operand)).setWild) s

/-- ADDR_DDR (R111): an address phase at double data rate (PRESUMED, log 17). -/
def execAddrDdr (pad : BitVec 2) (operand : Byte) (s : State) : Host.Outcome State Fault Refusal :=
  lutPhase (.addrDdr pad operand) pad (phaseDone (.addrDdr pad operand)) s

/-- MODE_DDR (R112): a mode phase at double data rate (PRESUMED, log 17). -/
def execModeDdr (pad : BitVec 2) (operand : Byte) (s : State) : Host.Outcome State Fault Refusal :=
  lutPhase (.modeDdr pad operand) pad (phaseDone (.modeDdr pad operand)) s

/-- MODE2_DDR (R113): a mode phase at double data rate (PRESUMED, log 17). -/
def execMode2Ddr (pad : BitVec 2) (operand : Byte) (s : State) : Host.Outcome State Fault Refusal :=
  lutPhase (.mode2Ddr pad operand) pad (phaseDone (.mode2Ddr pad operand)) s

/-- MODE4_DDR (R114): a mode phase at double data rate (PRESUMED, log 17). -/
def execMode4Ddr (pad : BitVec 2) (operand : Byte) (s : State) : Host.Outcome State Fault Refusal :=
  lutPhase (.mode4Ddr pad operand) pad (phaseDone (.mode4Ddr pad operand)) s

/-- READ_DDR (R115): a read phase at double data rate into the RX buffer (PRESUMED, log 17). -/
def execReadDdr (pad : BitVec 2) (operand : Byte) (s : State) : Host.Outcome State Fault Refusal :=
  lutPhase (.readDdr pad operand) pad (phaseRead (.readDdr pad operand)) s

/-- WRITE_DDR (R116): a write phase at double data rate from the TX buffer (PRESUMED, log 17). -/
def execWriteDdr (pad : BitVec 2) (operand : Byte) (s : State) : Host.Outcome State Fault Refusal :=
  lutPhase (.writeDdr pad operand) pad (phaseWrite (.writeDdr pad operand)) s

/-- DATA_LEARN (R117): the data-learning pattern phase (PRESUMED, log 17). -/
def execDataLearn (pad : BitVec 2) (operand : Byte) (s : State) : Host.Outcome State Fault Refusal :=
  lutPhase (.dataLearn pad operand) pad (phaseDone (.dataLearn pad operand)) s

/-- An unassigned opcode (R118): what the device does is in no source; that transaction and every later answer
are unconstrained (U8). -/
def execUnassigned (n : BitVec 6) (pad : BitVec 2) (operand : Byte) (s : State) :
    Host.Outcome State Fault Refusal :=
  match s.dev.inFlight with
  | none => .refused .noTransaction
  | some _ => .next (s.record (.unassigned n pad operand)).setWild.setLawless

/-- The IP-command word arriving at the `IPCMD` register: it starts the transaction of `seqid` at the address last
written, with expected size `datsz` (30_encoding.md R86; 10_state.md R44); while one is in flight it is a race
(R52, U7). -/
def execIpcmd (seqid : BitVec 4) (datsz : Half) (s : State) : Host.Outcome State Fault Refusal :=
  .next (s.devWrite .ipcmd (packIpcmd seqid datsz))

end Sys2Proof.Machine
end

