-- ==== Sys2Proof/Machine/LutManager.lean ====
section
/-! DEFINITION. The Lookup-Table Manager (42_lut_manager.md R140 to R145): WRITE_SEQ, eight writes in the
unlock/lock bracket, the trace event and the response, one a step. -/

namespace Sys2Proof.Machine

/-- `LUT[4*index + k]` (R140 step 3; 10_state.md R34). -/
def seqWord (index : BitVec 4) (k : Fin 4) : Fin 64 :=
  ⟨4 * index.toNat + k.val, by have := index.isLt; omega⟩

/-- One access of WRITE_SEQ in service. -/
def writeSeqStep (index : BitVec 4) (words : Vector Word 4) (pos : WriteSeqPos) (s : State) : State :=
  match pos with
  | .key1 => (s.regWrite .lutkey s.cfg.lutKey).setTask (.writeSeq index words .unlock)
  | .unlock => (s.regWrite .lckcr s.cfg.lckUnlock).setTask (.writeSeq index words (.word 0))
  | .word k =>
    (s.regWrite (.lut (seqWord index k)) words[k]).setTask
      (.writeSeq index words (if h : k.val + 1 < 4 then .word ⟨k.val + 1, h⟩ else .key2))
  | .key2 => (s.regWrite .lutkey s.cfg.lutKey).setTask (.writeSeq index words .lock)
  | .lock => (s.regWrite .lckcr s.cfg.lckLock).queue [.trace (.tableWrite index), .respond (.ok .unit)]

/-- WRITE_SEQ (R140): accepted in Idle, then one step of its rule at a time; held while another request is
served. -/
def execWriteSeq (index : BitVec 4) (words : Vector Word 4) (s : State) :
    Host.Outcome State Fault Refusal :=
  match s.eng.job with
  | some j =>
    match j.task with
    | .writeSeq ix ws pos => 
      if ix = index ∧ ws = words then .next (s.serve (writeSeqStep index words pos)) else .next s
    | .issue _ _ _ _ | .drain _ _ _ _ | .fill _ _ _ _ _ _ | .init _ => .next s
  | none =>
    match s.admission true with
    | .held => .next s
    | .refused r => .refused r
    | .accepted => .next (s.begin (.writeSeq index words .key1) [])

end Sys2Proof.Machine
end

