-- ==== Sys2Proof/Machine/Transaction.lean ====
section
/-! DEFINITION. The Transaction Engine (43_transaction_engine.md R150 to R158, R170 to R173): ISSUE, DRAIN and
FILL, one register access or internal action a step, and ACQUIRE and RELEASE. -/

namespace Sys2Proof.Machine

/-! ### ISSUE (R152) -/

/-- How an access of ISSUE ends: at its next position with the internal actions before it, done, or with an error. -/
inductive IssueNext where
  | at (p : IssuePos) (todo : List Internal)
  | done
  | fail (e : ErrorKind)
  deriving DecidableEq, Repr

/-- `v => (v & BUSY.mask) == 0` (R152). -/
def busyClear (p : Params) (v : Word) : Bool := !fieldSet p.mask.busy v

/-- One access of ISSUE's rule, shared with FILL's inner ISSUE (R152, R154). -/
def issueStep (seq : BitVec 4) (addr : Word) (size : Half) (pos : IssuePos) (s : State) : IssueNext × State :=
  match pos with
  | .waitIdle i =>
    let r := s.poll .status (busyClear s.cfg) i
    match r.1 with
    | .satisfied => (.at .addr [], r.2)
    | .again j => (.at (.waitIdle j) [], r.2)
    | .expired => (.fail .busy, r.2)
  | .addr => (.at (.rxPtr .start) [], s.regWrite .addr addr)
  | .rxPtr a =>
    let r := s.act (fieldRxptrClr s.cfg) a
    match r.1 with
    | some b => (.at (.rxPtr b) [], r.2)
    | none => (.at (.seqPtr .start) [], r.2)
  | .seqPtr a =>
    let r := s.act (fieldSeqptrClr s.cfg) a
    match r.1 with
    | some b => (.at (.seqPtr b) [], r.2)
    | none => (.at .command [], r.2)
  | .command =>
    (.at (.waitDone 1) [.trace (.issueStart seq addr size)], s.regWrite .ipcmd (packIpcmd seq size))
  | .waitDone i =>
    let r := s.poll .status (busyClear s.cfg) i
    match r.1 with
    | .satisfied => (.done, r.2)
    | .again j => (.at (.waitDone j) [], r.2)
    | .expired => (.fail .timeout, r.2)

/-- What ISSUE does once its second wait is satisfied: trace, then the response `Ok(x)` (R152, R154). -/
def issueDone (seq : BitVec 4) (x : Result) : List Internal := [.trace (.issueComplete seq), .respond (.ok x)]

/-- One access of ISSUE in service. -/
def issueServe (seq : BitVec 4) (addr : Word) (size : Half) (pos : IssuePos) (s : State) : State :=
  let r := issueStep seq addr size pos s
  match r.1 with
  | .at p l => (r.2.setTask (.issue seq addr size p)).queue l
  | .done => r.2.queue (issueDone seq .unit)
  | .fail e => r.2.raise e

/-- ISSUE (R152). -/
def execIssue (seq : BitVec 4) (addr : Word) (size : Half) (s : State) : Host.Outcome State Fault Refusal :=
  match s.eng.job with
  | some j =>
    match j.task with
    | .issue sq ad sz pos =>
      if sq = seq ∧ ad = addr ∧ sz = size then .next (s.serve (issueServe seq addr size pos)) else .next s
    | .writeSeq _ _ _ | .drain _ _ _ _ | .fill _ _ _ _ _ _ | .init _ => .next s
  | none =>
    match s.admission true with
    | .held => .next s
    | .refused r => .refused r
    | .accepted => .next (s.begin (.issue seq addr size (.waitIdle 1)) [])

/-! ### DRAIN (R153) -/

/-- What DRAIN does after its `k`-th pop: trace, and then either the next watermark or the response. -/
def drainPopped (size : Word) (out : List Byte) (k : Nat) (s : State) : State :=
  if out.length < size.toNat then
    (s.setTask (.drain size (.wait 1) out (k + 1))).queue [.trace (.watermark (k + 1))]
  else s.queue [.trace (.watermark (k + 1)), .respond (.ok (.bytes out))]

/-- One access of DRAIN in service. -/
def drainStep (size : Word) (pos : DrainPos) (out : List Byte) (k : Nat) (s : State) : State :=
  match pos with
  | .wait i =>
    let r := s.poll .status (fieldSet s.cfg.mask.rxwm) i
    match r.1 with
    | .satisfied => r.2.setTask (.drain size .read out k)
    | .again j => r.2.setTask (.drain size (.wait j) out k)
    | .expired => r.2.raise .timeout
  | .read =>
    let r := s.regRead (.rxdata 0)
    r.2.setTask (.drain size (.pop .start) (drainTake s.cfg.rxByteOrder size out r.1) k)
  | .pop a =>
    let r := s.act (fieldRxpop s.cfg) a
    match r.1 with
    | some b => r.2.setTask (.drain size (.pop b) out k)
    | none => drainPopped size out k r.2

/-- DRAIN (R153); a size of 0 makes no access: the response is all that is left. -/
def execDrain (size : Word) (s : State) : Host.Outcome State Fault Refusal :=
  match s.eng.job with
  | some j =>
    match j.task with
    | .drain sz pos out k => if sz = size then .next (s.serve (drainStep size pos out k)) else .next s
    | .writeSeq _ _ _ | .issue _ _ _ _ | .fill _ _ _ _ _ _ | .init _ => .next s
  | none =>
    match s.admission true with
    | .held => .next s
    | .refused r => .refused r
    | .accepted =>
      .next (s.begin (.drain size (.wait 1) [] 0) (if size.toNat = 0 then [.respond (.ok (.bytes []))] else []))

/-! ### FILL (R154, R155) -/

/-- Where FILL goes once `n` words are written: the next TX-full wait, or its inner ISSUE. -/
def fillLoop (n lim : Nat) : FillPos := if n < lim then .wait 1 else .issue (.waitIdle 1)

/-- One access of FILL in service. -/
def fillStep (seq : BitVec 4) (addr : Word) (data : List Word) (pos : FillPos) (n lim : Nat) (s : State) :
    State :=
  match pos with
  | .txne =>
    let r := s.regRead .txstat
    r.2.setTask (.fill seq addr data (if fieldSet s.cfg.mask.txne r.1 then .clear .start else .addr) n lim)
  | .clear a =>
    let r := s.act (fieldClrTxf s.cfg) a
    match r.1 with
    | some b => r.2.setTask (.fill seq addr data (.clear b) n lim)
    | none => r.2.setTask (.fill seq addr data .addr n lim)
  | .addr => (s.regWrite .addr addr).setTask (.fill seq addr data (fillLoop n lim) n lim)
  | .wait i =>
    let r := s.poll .status (fun v => !fieldSet s.cfg.mask.txfull v) i
    match r.1 with
    | .satisfied => r.2.setTask (.fill seq addr data .word n lim)
    | .again j => r.2.setTask (.fill seq addr data (.wait j) n lim)
    | .expired => r.2.raise .timeout
  | .word =>
    (s.regWrite .txdata (data.getD n 0)).setTask (.fill seq addr data (fillLoop (n + 1) lim) (n + 1) lim)
  | .issue p =>
    let r := issueStep seq addr (fillSize n) p s
    match r.1 with
    | .at q l => (r.2.setTask (.fill seq addr data (.issue q) n lim)).queue l
    | .done => r.2.queue (issueDone seq (.count n))
    | .fail e => r.2.raise e

/-- FILL (R154); fewer than `TX_MIN_WORDS` words are rejected before any access (R155). -/
def execFill (seq : BitVec 4) (addr : Word) (data : List Word) (s : State) :
    Host.Outcome State Fault Refusal :=
  match s.eng.job with
  | some j =>
    match j.task with
    | .fill sq ad dt pos n lim =>
      if sq = seq ∧ ad = addr ∧ dt = data then .next (s.serve (fillStep seq addr data pos n lim)) else .next s
    | .writeSeq _ _ _ | .issue _ _ _ _ | .drain _ _ _ _ | .init _ => .next s
  | none =>
    match s.admission true with
    | .held => .next s
    | .refused r => .refused r
    | .accepted =>
      let s1 := s.begin (.fill seq addr data .txne 0 (fillLimit s.cfg data)) []
      .next (if data.length < txMinWords then s1.raise .invalidSize else s1)

/-! ### ACQUIRE and RELEASE (R170, R171) -/

/-- ACQUIRE (R170): `owner <- some(who)`, which must be its sender. -/
def execAcquire (who : Requester) (s : State) : Host.Outcome State Fault Refusal :=
  match s.admission true with
  | .held => .next s
  | .refused r => .refused r
  | .accepted =>
    if s.eng.owner ≠ none then .refused .nestedAcquire
    else if who ≠ s.eng.offer then .refused .notTheSender
    else .next ((s.mapEng (fun g => { g with owner := some who })).replyNow (.ok .unit))

/-- RELEASE (R171): `owner <- none`, by the owner. -/
def execRelease (who : Requester) (s : State) : Host.Outcome State Fault Refusal :=
  match s.admission true with
  | .held => .next s
  | .refused r => .refused r
  | .accepted =>
    if s.eng.owner = some who then
      .next ((s.mapEng (fun g => { g with owner := none })).replyNow (.ok .unit))
    else .refused .notTheOwner

end Sys2Proof.Machine
end

