-- ==== Sys2Proof/Machine/Dispatch.lean ====
section
/-! DEFINITION. exec: one arm per instruction, each one direct call of its meaning. -/

namespace Sys2Proof.Machine

def exec (i : Instr) (s : State) : Host.Outcome State Fault Refusal :=
  match i with
  | .stop pad operand => Sys2Proof.Machine.execStop pad operand s
  | .cmd pad operand => Sys2Proof.Machine.execCmd pad operand s
  | .addr pad operand => Sys2Proof.Machine.execAddr pad operand s
  | .dummy pad operand => Sys2Proof.Machine.execDummy pad operand s
  | .mode pad operand => Sys2Proof.Machine.execMode pad operand s
  | .mode2 pad operand => Sys2Proof.Machine.execMode2 pad operand s
  | .mode4 pad operand => Sys2Proof.Machine.execMode4 pad operand s
  | .read pad operand => Sys2Proof.Machine.execRead pad operand s
  | .write pad operand => Sys2Proof.Machine.execWrite pad operand s
  | .jumpOnCs pad operand => Sys2Proof.Machine.execJumpOnCs pad operand s
  | .addrDdr pad operand => Sys2Proof.Machine.execAddrDdr pad operand s
  | .modeDdr pad operand => Sys2Proof.Machine.execModeDdr pad operand s
  | .mode2Ddr pad operand => Sys2Proof.Machine.execMode2Ddr pad operand s
  | .mode4Ddr pad operand => Sys2Proof.Machine.execMode4Ddr pad operand s
  | .readDdr pad operand => Sys2Proof.Machine.execReadDdr pad operand s
  | .writeDdr pad operand => Sys2Proof.Machine.execWriteDdr pad operand s
  | .dataLearn pad operand => Sys2Proof.Machine.execDataLearn pad operand s
  | .unassigned n pad operand => Sys2Proof.Machine.execUnassigned n pad operand s
  | .encode i0 i1 => Sys2Proof.Machine.execEncode i0 i1 s
  | .decode w => Sys2Proof.Machine.execDecode w s
  | .writeSeq index words => Sys2Proof.Machine.execWriteSeq index words s
  | .issue seq addr size => Sys2Proof.Machine.execIssue seq addr size s
  | .drain size => Sys2Proof.Machine.execDrain size s
  | .fill seq addr data => Sys2Proof.Machine.execFill seq addr data s
  | .acquire who => Sys2Proof.Machine.execAcquire who s
  | .release who => Sys2Proof.Machine.execRelease who s
  | .init => Sys2Proof.Machine.execInit s
  | .ipcmd seqid datsz => Sys2Proof.Machine.execIpcmd seqid datsz s

end Sys2Proof.Machine
end

