-- ==== Sys2Proof/Machine/Fetch.lean ====
section
/-! DEFINITION. What a step runs: whose turn it is, and the instruction that agent fetches. The engine goes on
with the request in service, or takes one from the port; the device fetches the LUT instruction at its cursor; an
agent outside the block makes its next register write. Step.lean only calls this. -/

namespace Sys2Proof.Machine

/-- What a turn comes to: an instruction to run in a state, or an outcome without one. -/
inductive Fetched where
  | run (i : Instr) (s : State)
  | done (o : Host.Outcome State Fault Refusal)

/-- The request that a task serves. -/
def taskInstr : Task → Instr
  | .writeSeq index words _ => .writeSeq index words
  | .issue seq addr size _ => .issue seq addr size
  | .drain size _ _ _ => .drain size
  | .fill seq addr data _ _ _ => .fill seq addr data
  | .init _ => .init

/-! ### The engine's turn -/

/-- The first request of each requester, those of `seen` left out: requests from one requester are accepted in the
order it sent them (43_transaction_engine.md R172). -/
def firstOfEach : List Posted → List Requester → List Posted
  | [], _ => []
  | m :: ms, seen => if seen.contains m.sender then firstOfEach ms seen else m :: firstOfEach ms (m.sender :: seen)

/-- A requester that the lock does not hold back (10_state.md R25). -/
def ownerAllows (owner : Option Requester) (who : Requester) : Bool :=
  decide (owner = none) || decide (owner = some who)

/-- The requests the engine may take now (R172); none while one is being served. A message that names no request
waits its turn like any other, and is refused when the engine takes it (DESIGN CHOICE, log 12). -/
def State.eligible (s : State) : List Posted :=
  if s.eng.mode = .active then []
  else (firstOfEach s.port []).filter (fun m => ownerAllows s.eng.owner m.sender)

/-- Which eligible request the engine takes is not fixed (R172, U22): with more than one it is drawn. -/
def State.pick (s : State) : Option Posted × State :=
  match s.eligible with
  | [] => (none, s)
  | [m] => (some m, s)
  | m :: ms =>
    let w := s.draw
    (some ((m :: ms).getD (w.1.toNat % (m :: ms).length) m), w.2)

/-- The port offers this request to the engine: it leaves the port, and its sender is known (30_encoding.md R88). -/
def State.take (m : Posted) (s : State) : State :=
  { s.mapEng (fun g => { g with offer := m.sender }) with port := s.port.erase m }

/-- The engine's turn: the request in service, or the one it takes; a message that names no request is refused
(R89), and with none eligible the engine waits. -/
def fetchEngine (s : State) : Fetched :=
  match s.eng.job with
  | some j => .run (taskInstr j.task) s
  | none =>
    let c := s.pick
    match c.1 with
    | none => .done (.next c.2)
    | some m =>
      match decodeRequest m.msg with
      | .ok i => .run i (c.2.take m)
      | .error e => .done (.refused (.notARequest e))

/-! ### The device's turn -/

/-- The device's turn (10_state.md R45, R46; 40_lut_instructions.md R100): nothing without a transaction; else the
LUT instruction at the cursor, or what a transaction without a constrained outcome does (log 7), which is what one
becomes at a controller that is not enabled (R31; log 37). A cursor past the eighth instruction completes the
transaction. -/
def fetchDevice (s : State) : Fetched :=
  match s.dev.inFlight with
  | none => .done (.next s)
  | some t =>
    if t.wild || !s.dev.enabled s.cfg then .done (.next s.setWild.wildStep)
    else if instrPerSeq ≤ s.dev.seqPtr then .done (.next s.complete)
    else
      match s.dev.lutHalf s.cfg t.seq s.dev.seqPtr with
      | some h => .run (decodeLut s.cfg h) s
      | none => .done (.next s.runUnwritten)

/-! ### The turn of an agent outside the block (log 20) -/

/-- The next register write of an agent outside the block. A word for `IPCMD` is decoded and run as the IP-command
word it is; one with reserved bits starts a transaction by its two fields all the same (R44; log 33). -/
def fetchBus (s : State) : Fetched :=
  match s.foreign with
  | [] => .done (.next s)
  | (off, v) :: rest =>
    let s1 := { s with foreign := rest }
    match roleAt s.cfg off with
    | none => .done (.fault (.noSuchRegister off))
    | some r =>
      if readOnly r then .done (.fault (.noSuchRegister off))
      else if r = .ipcmd then
        match decodeIpcmd v with
        | .ok i => .run i s1
        | .error _ => .done (.next (s1.devWrite .ipcmd v))
      else .done (.next (s1.devWrite r v))

/-- What this step comes to. A configuration that is not valid is refused before any step (U19). -/
def fetch (s : State) : Fetched :=
  if s.cfg.valid then
    let t := s.takeTurn
    match t.1 with
    | .engine => fetchEngine t.2
    | .device => fetchDevice t.2
    | .bus => fetchBus t.2
  else .done (.refused .badConfiguration)

/-! ### Placing one instruction (log 29) -/

/-- `s` with a LUT word whose low half is `h` as the whole sequence 0, the three words after it 0, and the device,
enabled, at its first instruction with its turn next. -/
def placeLut (s : State) (h : Half) : State :=
  { s.mapDev (fun d =>
      { d with
        mem := Memory.writeWord (Memory.writeWord (Memory.writeWord (Memory.writeWord d.mem
          (lutOff s.cfg 0) (h.setWidth 32)) (lutOff s.cfg 1) 0) (lutOff s.cfg 2) 0) (lutOff s.cfg 3) 0
        ctrl := clearBits (haltMask s.cfg) d.ctrl
        clockOn := true
        seqPtr := 0
        inFlight := some { seq := 0, addr := d.addr, size := 0, start := 0, wild := false }
        executed := [] }) with
    schedule := .device :: s.schedule }

/-- `s` with `w` as the next register write of an agent outside the block, to `IPCMD`, and its turn next. -/
def placeIpcmd (s : State) (w : Word) : State :=
  { s with foreign := (offOf s.cfg .ipcmd, w) :: s.foreign, schedule := .bus :: s.schedule }

/-- `s` with no request in service, `m` from requester 0 alone on the port, and the engine's turn next. -/
def placeRequest (s : State) (m : Message) : State :=
  { s.mapEng (fun g =>
      { g with job := none, mode := if g.mode = .active then .idle else g.mode
               owner := if ownerAllows g.owner 0 then g.owner else none }) with
    port := [⟨0, m⟩], schedule := .engine :: s.schedule }

/-- `s` with an encoded form placed where the next step fetches it. -/
def place (s : State) : Encoded → State
  | .luti16 h => placeLut s h
  | .ipcmd32 w => placeIpcmd s w
  | .req m => placeRequest s m

end Sys2Proof.Machine
end

