-- ==== Sys2Proof/Machine/Step.lean ====
section
/-! DEFINITION. One step: the agent whose turn it is runs the instruction it fetches (Fetch.lean). -/

namespace Sys2Proof.Machine

/-- One step of the machine (00_scope.md R5; log 3). -/
def step (s : State) : Host.Outcome State Fault Refusal :=
  match fetch s with
  | .run i t => exec i t
  | .done o => o

/-- `s` with the instruction of a table row placed where the next step fetches it (log 29). -/
def State.withFetchWord (s : State) (nbits w : Nat) : State := place s (tableForm nbits w)

end Sys2Proof.Machine
end

