-- ==== Sys2Proof/Safety.lean ====
section
/-! DEFINITION. What a sound state is, in the terms the statements use: the invariants that every step keeps,
and the conditions on a configuration and a device under which the spec's contract speaks. -/

namespace Sys2Proof.Machine

/-! ### Invariants -/

/-- The LUT's storage has its canonical form (log 5). -/
def MemInv (s : State) : Prop := Memory.wf s.dev.mem = true

/-- The cursor stays inside a sequence: 0 to 8 (10_state.md R46). -/
def CursorInv (s : State) : Prop := s.dev.seqPtr ≤ instrPerSeq

/-- The buffers hold at most their capacity (R35, R36). -/
def BufferInv (s : State) : Prop :=
  s.dev.rxBuf.length ≤ s.cfg.rxCapacity ∧ s.dev.txBuf.length ≤ s.cfg.txCapacity

/-- The mode a task was accepted in: Uninit for INIT, Idle for the others (R24). -/
def taskMode : Task → Mode
  | .init _ => .uninit
  | .writeSeq _ _ _ | .issue _ _ _ _ | .drain _ _ _ _ | .fill _ _ _ _ _ _ => .idle

/-- `mode` is Active exactly while a request is served, which returns to the mode it was accepted in (R24). -/
def ModeInv (s : State) : Prop :=
  match s.eng.job with
  | some j => s.eng.mode = .active ∧ j.resume = taskMode j.task
  | none => s.eng.mode ≠ .active

/-- The lock is free until INIT has succeeded (R24, R170), and the request in service is its owner's, if it has
one (R25). -/
def OwnerInv (s : State) : Prop :=
  (s.eng.mode = .uninit → s.eng.owner = none) ∧
    ∀ j, s.eng.job = some j →
      (j.resume = .uninit → s.eng.owner = none) ∧ ownerAllows s.eng.owner j.sender = true

/-- A poll counter is in 1..WAIT_LIMIT (R26). -/
def pollOk (p : Params) (i : Nat) : Prop := 1 ≤ i ∧ i ≤ p.waitLimit

/-- The poll counters of ISSUE's positions. -/
def issuePosOk (p : Params) : IssuePos → Prop
  | .waitIdle i | .waitDone i => pollOk p i
  | .addr | .rxPtr _ | .seqPtr _ | .command => True

/-- The ranges of R26: poll counters; `k` is at most `ceil(size/4)` and `out` at most `size` long; `n` is at most
`lim`, which is `min(len(data), TX_CAPACITY_WORDS)`. -/
def taskOk (p : Params) : Task → Prop
  | .writeSeq _ _ _ | .init _ => True
  | .issue _ _ _ pos => issuePosOk p pos
  | .drain size pos out k =>
    match pos with
    | .wait i => pollOk p i ∧ out.length = 4 * k ∧ 4 * k < size.toNat
    | .read => out.length = 4 * k ∧ 4 * k < size.toNat
    | .pop _ => out.length = min (4 * (k + 1)) size.toNat ∧ 4 * k < size.toNat
  | .fill _ _ data pos n lim =>
    txMinWords ≤ data.length ∧ lim = fillLimit p data ∧
      match pos with
      | .txne | .clear _ | .addr => n = 0
      | .wait i => pollOk p i ∧ n < lim
      | .word => n < lim
      | .issue q => issuePosOk p q ∧ n = lim

/-- Whether the response is all that is left of the request: its accesses are made. -/
def answering (l : List Internal) : Bool :=
  l.any (fun a => match a with | .respond _ => true | .trace _ => false)

/-- The responses R11 and R190 give a request. -/
def replyOk (p : Params) : Task → Response → Prop
  | .writeSeq _ _ _, r => r = .ok .unit
  | .issue _ _ _ _, r => r = .ok .unit ∨ r = .err .busy ∨ r = .err .timeout
  | .drain size _ _ _, r => (∃ l, r = .ok (.bytes l) ∧ l.length = size.toNat) ∨ r = .err .timeout
  | .fill _ _ data _ _ _, r =>
    (r = .ok (.count (fillLimit p data)) ∧ txMinWords ≤ data.length) ∨ r = .err .busy ∨ r = .err .timeout ∨
      (r = .err .invalidSize ∧ data.length < txMinWords)
  | .init _, r => r = .ok .unit ∨ r = .err .mapError ∨ r = .err .clockError

/-- The locals of the request in service are in their ranges (R26), and a response it is about to give is one of its
own (R11, R190). -/
def LocalsInv (s : State) : Prop :=
  ∀ j, s.eng.job = some j →
    (answering j.todo = false → taskOk s.cfg j.task) ∧ ∀ r, .respond r ∈ j.todo → replyOk s.cfg j.task r

/-- The roles the engine reads: 'read only' or 'read-modify-write only' in R30. -/
def engineReads : Role → Bool
  | .status | .txstat | .ctrl | .rxctl => true
  | .rxdata m => decide (m = 0)
  | .ipcmd | .flshcfg | .bufdesc | .addr | .flags | .sptrclr | .lutkey | .lckcr => false
  | .lut _ | .txdata | .rxptrClr => false

/-- The roles the engine writes: 'write only' or 'read-modify-write only' in R30. -/
def engineWrites : Role → Bool
  | .ctrl | .rxctl | .ipcmd | .flshcfg | .addr | .flags | .sptrclr | .lutkey | .lckcr => true
  | .lut _ | .txdata | .rxptrClr => true
  | .bufdesc | .status | .txstat | .rxdata _ => false

/-- The access is one R30 gives the engine: at the offset of a role it reads, or of one it writes. -/
def accessOk (p : Params) : Event → Prop
  | .rd off _ => ∃ r, engineReads r = true ∧ off = offOf p r
  | .wr off _ => ∃ r, engineWrites r = true ∧ off = offOf p r

/-- Every access in `hist` is one that R30 gives the engine (R33). -/
def HistInv (s : State) : Prop := ∀ e ∈ s.eng.hist, accessOk s.cfg e

/-- What the transaction in flight has executed is its sequence, instruction by instruction from the cursor it
started at, none of it a STOP (R46; 30_encoding.md R87): as long as the device contract holds and the
transaction has a constrained outcome. -/
def ExecutedInv (s : State) : Prop :=
  ∀ t, s.dev.inFlight = some t → t.wild = false → s.dev.lawless = false →
    t.start ≤ s.dev.seqPtr ∧ s.dev.executed.length = s.dev.seqPtr - t.start ∧
      ∀ k, k < s.dev.executed.length →
        ∃ h, s.dev.lutHalf s.cfg t.seq (t.start + k) = some h ∧
          s.dev.executed[k]? = some (decodeLut s.cfg h) ∧ (decodeLut s.cfg h).isStop = false

/-- Whether the engine is past INIT's clock call, or about to answer it with `Ok`: the clock is then on
(70_reset_and_hazards.md R224). -/
def pastClock (s : State) : Prop :=
  match s.eng.job with
  | some j =>
    match j.task with
    | .init pos =>
      match pos with
      | .clearBuffers _ | .watermark _ | .timing => True
      | .map | .disable _ | .resetSet _ | .hold | .resetClear _ | .enable _ | .clock =>
        ∃ x, .respond (.ok x) ∈ j.todo
    | .writeSeq _ _ _ | .issue _ _ _ _ | .drain _ _ _ _ | .fill _ _ _ _ _ _ => True
  | none => s.eng.mode = .idle

/-- Every request but INIT finds the peripheral clock on (log 10). -/
def ClockInv (s : State) : Prop := pastClock s → s.dev.clockOn = true

/-! ### The conditions of the contract -/

/-- The device answers and obeys as the contract says: its clock is on (R225) and no race has ended the contract (R52,
R53). -/
def Contract (s : State) : Prop := s.dev.clockOn = true ∧ s.dev.lawless = false

/-- The engine is ready for a request that needs INIT, sent by the requester whose request the port offers:
43_transaction_engine.md R152 'Accepted when'. -/
def Ready (s : State) : Prop :=
  s.eng.job = none ∧ s.eng.mode = .idle ∧ (s.eng.owner = none ∨ s.eng.owner = some s.eng.offer)

/-- The engine's fields right after the block's reset (R39, R220); the device's are any (R221). -/
def AfterReset (s : State) : Prop := s.eng = Engine.reset

/-- The clear bits of `CTRL` are apart from `MDIS` and the software resets: no configuration of the source overlaps
two fields of one register (R31). -/
def CtrlApart (p : Params) : Prop :=
  haltMask p &&& (p.mask.clrTxf ||| p.mask.clrRxf ||| p.mask.rxptrClr) = 0#32

/-- The oracle answered the `CTRL` reads among these accesses with `MDIS` and the software-reset bits clear. No rule
of the contract says so of any device (log 9), and a read-modify-write that reads one of them set writes it back
set. -/
def CtrlReadsClear (p : Params) (l : List Event) : Prop :=
  ∀ w, Event.rd p.off.ctrl w ∈ l → w &&& haltMask p = 0#32

/-- The flags of `STATUS` have bits of their own (R31). -/
def StatusApart (p : Params) : Prop :=
  p.mask.busy &&& p.mask.rxwm = 0#32 ∧ p.mask.busy &&& p.mask.txfull = 0#32 ∧
    p.mask.rxwm &&& p.mask.txfull = 0#32

/-! ### Frames -/

/-- `t` differs from `s` at most in the device and in what the free values draw from. -/
def SameButDevice (s t : State) : Prop :=
  t.cfg = s.cfg ∧ t.eng = s.eng ∧ t.port = s.port ∧ t.responses = s.responses ∧ t.foreign = s.foreign ∧
    t.schedule = s.schedule

/-- Of the device only the armed key may have changed, and only if it was armed (R41, U6; log 25). -/
def OnlyKey (d e : Device) : Prop :=
  (∃ b, e = { d with keyArmed := b }) ∧ (d.keyArmed = false → e = d)

/-- A LUT instruction whose effect on the device the spec constrains: its pad width is wired (U11), it is neither
JUMP_ON_CS (U10) nor unassigned (U8), and a STOP has no pad and no operand (U9; its width need not be wired: log
43). -/
def constrainedInstr (p : Params) : Instr → Bool
  | .stop pad operand => decide (pad = 0#2 ∧ operand = 0#8)
  | .jumpOnCs _ _ | .unassigned _ _ _ => false
  | .cmd pad _ | .addr pad _ | .dummy pad _ | .mode pad _ | .mode2 pad _ | .mode4 pad _ | .read pad _ => padWired p pad
  | .write pad _ | .addrDdr pad _ | .modeDdr pad _ | .mode2Ddr pad _ | .mode4Ddr pad _ => padWired p pad
  | .readDdr pad _ | .writeDdr pad _ | .dataLearn pad _ => padWired p pad
  | .encode _ _ | .decode _ | .writeSeq _ _ | .issue _ _ _ | .drain _ | .fill _ _ _ => false
  | .acquire _ | .release _ | .init | .ipcmd _ _ => false

/-- The transaction in flight, if there is one, has a constrained outcome, and so has the instruction at its cursor.
-/
def ConstrainedTurn (s : State) : Prop :=
  ∀ f, s.dev.inFlight = some f →
    f.wild = false ∧ s.dev.enabled s.cfg = true ∧
      (s.dev.seqPtr < 8 →
        ∃ h, s.dev.lutHalf s.cfg f.seq s.dev.seqPtr = some h ∧ constrainedInstr s.cfg (decodeLut s.cfg h) = true)

/-- `s` with another access history and another trace. -/
def State.withHistory (h : List Event) (tr : List TraceEvent) (s : State) : State :=
  s.mapEng (fun g => { g with hist := h, trace := tr })

/-! ### One request served without interruption -/

/-- `n` steps of exec on one instruction: no other agent moves in between. -/
def execTimes (i : Instr) : Nat → State → Host.Outcome State Fault Refusal
  | 0, s => .next s
  | n + 1, s =>
    match exec i s with
    | .next t => execTimes i n t
    | o => o

/-- The accesses of a satisfied wait (43_transaction_engine.md R150, R151): at most `WAIT_LIMIT` reads, of which the
last satisfies `ok` and no other does. -/
def WaitMet (p : Params) (r : Role) (ok : Word → Bool) (l : List Event) : Prop :=
  ∃ (vs : List Word) (v : Word), l = (vs ++ [v]).map (Event.rd (offOf p r)) ∧ vs.length < p.waitLimit ∧
    (∀ x ∈ vs, ok x = false) ∧ ok v = true

/-- The accesses of an expired wait (R151): exactly `WAIT_LIMIT` reads, none of which satisfies `ok`. -/
def WaitExpired (p : Params) (r : Role) (ok : Word → Bool) (l : List Event) : Prop :=
  ∃ vs : List Word, l = vs.map (Event.rd (offOf p r)) ∧ vs.length = p.waitLimit ∧ ∀ x ∈ vs, ok x = false

/-- The accesses of `Act(F)` (20_memory.md R64): a read-modify-write that sets the mask where the field is in `CTRL`
or `RXCTL`, else one write of the mask. -/
def ActTrace (p : Params) (F : Field) (l : List Event) : Prop :=
  if F.role = .ctrl ∨ F.role = .rxctl then
    ∃ v, l = [.rd (offOf p F.role) v, .wr (offOf p F.role) (v ||| F.mask)]
  else l = [.wr (offOf p F.role) F.mask]

/-- The eight accesses of WRITE_SEQ (42_lut_manager.md R140). -/
def writeSeqTrace (p : Params) (index : BitVec 4) (words : Vector Word 4) : List Event :=
  [.wr p.off.lutkey p.lutKey, .wr p.off.lckcr p.lckUnlock, .wr (p.off.lut + 4 * (4 * index.toNat)) words[0],
    .wr (p.off.lut + 4 * (4 * index.toNat + 1)) words[1], .wr (p.off.lut + 4 * (4 * index.toNat + 2)) words[2],
    .wr (p.off.lut + 4 * (4 * index.toNat + 3)) words[3], .wr p.off.lutkey p.lutKey, .wr p.off.lckcr p.lckLock]

/-- The accesses of ISSUE from a first wait that one poll satisfies to its trigger (43_transaction_engine.md R152). -/
def TriggerTrace (p : Params) (seq : BitVec 4) (addr : Word) (size : Half) (l : List Event) : Prop :=
  ∃ v a, ActTrace p (fieldRxptrClr p) a ∧
    l = [.rd p.off.status v, .wr p.off.addr addr] ++ a ++
      [.wr p.off.sptrclr p.mask.seqptrClr, .wr p.off.ipcmd (packIpcmd seq size)]

/-- The device `e` has started the transaction of its own, from the first instruction and with no stale read data,
and its LUT is as in `d`. -/
def Started (d e : Device) (seq : BitVec 4) (addr : Word) (size : Half) : Prop :=
  e.inFlight = some { seq := seq, addr := addr, size := size, start := 0, wild := false } ∧ e.addr = addr ∧
    e.ipcmd = packIpcmd seq size ∧ e.rxBuf = [] ∧ e.rxPtr = 0 ∧ e.seqPtr = 0 ∧ e.executed = [] ∧
    e.lawless = false ∧ e.mem = d.mem ∧ e.lutGen = d.lutGen ∧ e.lutLock = d.lutLock

/-- `a(F)` of R156. -/
def actCost (F : Field) : Nat := if F.role = .ctrl ∨ F.role = .rxctl then 2 else 1

/-- What is left of `Act(F)`. -/
def actLeft (F : Field) : ActPos → Nat
  | .start => actCost F
  | .write _ => 1

/-- The polls left of a wait at poll `i`. -/
def pollsLeft (p : Params) (i : Nat) : Nat := p.waitLimit + 1 - i

/-- What is left of ISSUE's rule: R156's bound at its start. -/
def issueLeft (p : Params) : IssuePos → Nat
  | .waitIdle i => pollsLeft p i + 1 + actCost (fieldRxptrClr p) + actCost (fieldSeqptrClr p) + 1 + p.waitLimit
  | .addr => 1 + actCost (fieldRxptrClr p) + actCost (fieldSeqptrClr p) + 1 + p.waitLimit
  | .rxPtr a => actLeft (fieldRxptrClr p) a + actCost (fieldSeqptrClr p) + 1 + p.waitLimit
  | .seqPtr a => actLeft (fieldSeqptrClr p) a + 1 + p.waitLimit
  | .command => 1 + p.waitLimit
  | .waitDone i => pollsLeft p i

/-- The watermarks left after the `k+1`-st. -/
def eventsAfter (size : Word) (k : Nat) : Nat := (size.toNat + 3) / 4 - (k + 1)

/-- What is left of DRAIN's rule. -/
def drainLeft (p : Params) (size : Word) (k : Nat) : DrainPos → Nat
  | .wait i => eventsAfter size k * (p.waitLimit + 1 + actCost (fieldRxpop p)) + pollsLeft p i + 1 +
      actCost (fieldRxpop p)
  | .read => eventsAfter size k * (p.waitLimit + 1 + actCost (fieldRxpop p)) + 1 + actCost (fieldRxpop p)
  | .pop a => eventsAfter size k * (p.waitLimit + 1 + actCost (fieldRxpop p)) + actLeft (fieldRxpop p) a

/-- What is left of FILL's rule. -/
def fillLeft (p : Params) (n lim : Nat) : FillPos → Nat
  | .txne => 1 + actCost (fieldClrTxf p) + 1 + lim * (p.waitLimit + 1) + issueLeft p (.waitIdle 1)
  | .clear a => actLeft (fieldClrTxf p) a + 1 + lim * (p.waitLimit + 1) + issueLeft p (.waitIdle 1)
  | .addr => 1 + lim * (p.waitLimit + 1) + issueLeft p (.waitIdle 1)
  | .wait i => pollsLeft p i + 1 + (lim - (n + 1)) * (p.waitLimit + 1) + issueLeft p (.waitIdle 1)
  | .word => 1 + (lim - (n + 1)) * (p.waitLimit + 1) + issueLeft p (.waitIdle 1)
  | .issue q => issueLeft p q

/-- What is left of WRITE_SEQ's eight writes. -/
def writeSeqLeft : WriteSeqPos → Nat
  | .key1 => 8
  | .unlock => 7
  | .word k => 6 - k.val
  | .key2 => 2
  | .lock => 1

/-- What is left of a read-modify-write. -/
def rmwLeft : ActPos → Nat
  | .start => 2
  | .write _ => 1

/-- What is left of INIT's rule: thirteen accesses, two platform calls and the hold. -/
def initLeft : InitPos → Nat
  | .map => 16
  | .disable a => 13 + rmwLeft a
  | .resetSet a => 11 + rmwLeft a
  | .hold => 11
  | .resetClear a => 8 + rmwLeft a
  | .enable a => 6 + rmwLeft a
  | .clock => 6
  | .clearBuffers a => 3 + rmwLeft a
  | .watermark a => 1 + rmwLeft a
  | .timing => 1

/-- A bound on the accesses a task still makes (R156), INIT's platform calls and hold counted with them. -/
def taskLeft (p : Params) : Task → Nat
  | .writeSeq _ _ pos => writeSeqLeft pos
  | .issue _ _ _ pos => issueLeft p pos
  | .drain size pos _ k => drainLeft p size k pos
  | .fill _ _ _ pos n lim => fillLeft p n lim pos
  | .init pos => initLeft pos

/-- A bound on the accesses the request in service still makes: none once it only has to answer. -/
def accessesLeft (p : Params) (j : Service) : Nat := if answering j.todo then 0 else taskLeft p j.task

/-- A bound on the engine steps the request in service still takes: an access is followed by at most two internal
actions. -/
def stepsLeft (p : Params) (j : Service) : Nat := 3 * accessesLeft p j + j.todo.length

/-! ### No two transactions of the block overlap (R158) -/

/-- ISSUE's positions between its two waits: the transaction it starts is not yet started. -/
def beforeTrigger : IssuePos → Bool
  | .addr | .rxPtr _ | .seqPtr _ | .command => true
  | .waitIdle _ | .waitDone _ => false

/-- Where the inner ISSUE of a task stands: ISSUE itself, or FILL once it issues. -/
def issuePos : Task → Option IssuePos
  | .issue _ _ _ pos => some pos
  | .fill _ _ _ pos _ _ =>
    match pos with
    | .issue q => some q
    | .txne | .clear _ | .addr | .wait _ | .word => none
  | .writeSeq _ _ _ | .drain _ _ _ _ | .init _ => none

/-- A task with its inner ISSUE at another position. -/
def setIssuePos (q : IssuePos) : Task → Task
  | .issue seq addr size _ => .issue seq addr size q
  | .fill seq addr data (.issue _) n lim => .fill seq addr data (.issue q) n lim
  | .fill seq addr data .txne n lim => .fill seq addr data .txne n lim
  | .fill seq addr data (.clear a) n lim => .fill seq addr data (.clear a) n lim
  | .fill seq addr data .addr n lim => .fill seq addr data .addr n lim
  | .fill seq addr data (.wait i) n lim => .fill seq addr data (.wait i) n lim
  | .fill seq addr data .word n lim => .fill seq addr data .word n lim
  | .writeSeq index words pos => .writeSeq index words pos
  | .drain size pos out k => .drain size pos out k
  | .init pos => .init pos

/-- The ISSUE in service, FILL's inner one too, is between its first wait and its trigger. -/
def triggering (k : Task) : Bool := ((issuePos k).map beforeTrigger).getD false

/-- The value that ISSUE's clear of the RX pointer has read from `CTRL` and is about to write back. -/
def pendingCtrl (p : Params) (k : Task) : Option Word :=
  match issuePos k with
  | some (.rxPtr (.write v)) => if rxptrRole p = .ctrl then some v else none
  | some (.waitIdle _) | some .addr | some (.rxPtr .start) | some (.seqPtr _) | some .command => none
  | some (.waitDone _) | none => none

/-- As long as the device contract holds, an ISSUE past its first wait finds no transaction in flight, and is about to
write no software-reset bit to `CTRL`. -/
def TriggerInv (s : State) : Prop :=
  s.dev.lawless = false → ∀ j, s.eng.job = some j →
    (triggering j.task = true → s.dev.inFlight = none) ∧
      ∀ v, pendingCtrl s.cfg j.task = some v → v &&& swrstMask s.cfg = 0#32

end Sys2Proof.Machine
end

