-- ==== Sys2Proof/Certificates/Slice0/Obligations.lean ====
section
/-! DEFINITION. The statements for the provers, from the spec's numbered rules. `exec` is one instruction's meaning,
`step` one step of the machine, `devWrite` and `devRead` one register access at the device; `execTimes` is one
request served with no other agent moving in between. -/

section

open Sys2Proof Sys2Proof.Machine

/-! ### Encodings -/

/-- ENCODE (41_encoder.md R130) masks, packs and answers in one step, and nothing but the response is new. -/
def Obligations.EncodeAnswersPackedWord : Prop :=
  ∀ (i0 i1 : Triple) (s : State), s.eng.mode ≠ .active → ownerAllows s.eng.owner s.eng.offer = true →
    ∃ w : Word,
      exec (.encode i0 i1) s = .next { s with responses := s.responses ++ [(s.eng.offer, .ok (.word w))] } ∧
      w.toNat =
        (i1.opcode.toNat % 64 * 1024 + i1.pad.toNat % 4 * 256 + i1.operand.toNat % 256) * 65536 +
          (i0.opcode.toNat % 64 * 1024 + i0.pad.toNat % 4 * 256 + i0.operand.toNat % 256)

/-- DECODE (R131) answers the two triples of the word's halves in one step, and nothing but the response is new. -/
def Obligations.DecodeAnswersBothTriples : Prop :=
  ∀ (w : Word) (s : State), s.eng.mode ≠ .active → ownerAllows s.eng.owner s.eng.offer = true →
    ∃ a b : Triple,
      exec (.decode w) s = .next { s with responses := s.responses ++ [(s.eng.offer, .ok (.pair a b))] } ∧
      a.opcode.toNat = w.toNat / 1024 % 64 ∧ a.pad.toNat = w.toNat / 256 % 4 ∧ a.operand.toNat = w.toNat % 256 ∧
      b.opcode.toNat = w.toNat / 67108864 ∧ b.pad.toNat = w.toNat / 16777216 % 4 ∧
      b.operand.toNat = w.toNat / 65536 % 256

/-- The round-trip law (R132), both ways: ENCODE on masked triples is a bijection onto u32. And ENCODE validates
nothing (R133): inputs that mask to the same triples have the same outcome in every state. -/
def Obligations.EncodeDecodeRoundTrip : Prop :=
  (∀ i0 i1 : Triple, decodeWord (encodeWord i0 i1) = (i0.masked, i1.masked)) ∧
    (∀ w : Word, encodeWord (decodeWord w).1 (decodeWord w).2 = w) ∧
    Function.Bijective
      (fun x : { p : Triple × Triple // p.1.masked = p.1 ∧ p.2.masked = p.2 } => encodeWord x.1.1 x.1.2) ∧
    ∀ (i0 i1 j0 j1 : Triple) (s : State), i0.masked = j0.masked → i1.masked = j1.masked →
      exec (.encode i0 i1) s = exec (.encode j0 j1) s

/-- Decoding the encoding of a well-formed instruction gives it back, whatever its operands (30_encoding.md R82, R85,
R86, R88). -/
def Obligations.DecodeOfEncodeIsIdentity : Prop :=
  ∀ (p : Params) (i : Instr), p.valid = true → i.wf p = true → decode p (encode p i) = .ok i

/-- Every 16-bit value is a LUT instruction, well formed, and encodes back to itself (R82, R90). -/
def Obligations.EveryHalfWordDecodes : Prop :=
  ∀ (p : Params) (h : Half), (decodeLut p h).wf p = true ∧ encode p (decodeLut p h) = .luti16 h

/-- The IP-command word (R86, R91): the two fields at their places, every other bit 0, and exactly the words of that
form decode. -/
def Obligations.IpcmdWordLayout : Prop :=
  (∀ (seq : BitVec 4) (size : Half), (packIpcmd seq size).toNat = seq.toNat * 16777216 + size.toNat) ∧
    ∀ w : Word, (∃ i, decodeIpcmd w = .ok i) ↔ w &&& 0xF0FF0000#32 = 0#32

/-- What names no request is refused (R89): a message that decodes has a tag in 0..8 and is what encodes the
instruction it decodes to, so every argument is present and inside its width (ISSUE's size may be left out, R88); any
other message, taken by the engine, refuses the run. -/
def Obligations.UnnamedRequestIsRefused : Prop :=
  (∀ (p : Params) (m : Message) (i : Instr), decodeRequest m = .ok i →
      m.tag ≤ 8 ∧
        (encode p i = .req m ∨ ∃ seq addr, i = .issue seq addr 0 ∧ m = ⟨3, [seq.toNat, addr.toNat]⟩)) ∧
    ∀ (s : State) (m : Posted) (e : Reject), s.cfg.valid = true → s.takeTurn.1 = .engine → s.eng.job = none →
      s.takeTurn.2.pick.1 = some m → decodeRequest m.msg = .error e → step s = .refused (.notARequest e)

/-- Words written out from 95_test_vectors.md and the spec's tables decode to the instructions they stand for. -/
def Obligations.SpecWordsDecode : Prop :=
  decode Params.configT (.luti16 0x03FF) = .ok (.stop 3 0xFF) ∧
    decode Params.configT (.luti16 0x049F) = .ok (.cmd 0 0x9F) ∧
    decode Params.configT (.luti16 0x0A18) = .ok (.addr 2 24) ∧
    decode Params.configT (.luti16 0x1C03) = .ok (.read 0 3) ∧
    decode Params.configT (.luti16 0x2240) = .ok (.write 2 0x40) ∧
    decode Params.configT (.luti16 0x4208) = .ok (.dataLearn 2 8) ∧
    decode Params.configT (.luti16 0xFFFF) = .ok (.unassigned 63 3 255) ∧
    decode Params.configT (.ipcmd32 0x02000010) = .ok (.ipcmd 2 16) ∧
    decode Params.configT (.req ⟨3, [3, 0x1000, 16]⟩) = .ok (.issue 3 0x1000 16) ∧
    decode Params.configT (.req ⟨2, [16, 0, 0, 0, 0]⟩) = .error (.argumentWidth 2) ∧
    decode Params.configT (.req ⟨9, []⟩) = .error (.unknownTag 9)

/-- The effective length of a sequence (R87, R92) is the index of its first instruction with opcode 0, or 8. -/
def Obligations.EffectiveLengthIsFirstStop : Prop :=
  ∀ (p : Params) (ws : List Word), ws.length = 4 →
    effectiveLength p ws ≤ 8 ∧
    ∀ k, k < 4 →
      ∀ w, ws[k]? = some w →
        (2 * k < effectiveLength p ws → lutOpcode (slot0 w) ≠ 0#6) ∧
        (2 * k + 1 < effectiveLength p ws → lutOpcode (slot1 w) ≠ 0#6) ∧
        (2 * k = effectiveLength p ws → lutOpcode (slot0 w) = 0#6) ∧
        (2 * k + 1 = effectiveLength p ws → lutOpcode (slot1 w) = 0#6)

/-! ### The window and the configuration -/

/-- No access can be misaligned (20_memory.md R65; 10_state.md R29, R30): in a valid configuration each access that
R30 gives the engine is at a multiple of 4 inside the window, and the registers R30 names are distinct. -/
def Obligations.WindowOffsetsAlignedDistinct : Prop :=
  ∀ p : Params, p.valid = true →
    (∀ r : Role, engineReads r = true ∨ engineWrites r = true → r ≠ .rxptrClr →
      offOf p r % 4 = 0 ∧ offOf p r < windowBytes) ∧
    (offOf p (rxptrRole p) = p.off.rxptrClr ∧ p.off.rxptrClr % 4 = 0 ∧ p.off.rxptrClr < windowBytes) ∧
    ∀ q r : Role, q ≠ .rxptrClr → r ≠ .rxptrClr → (∀ m, q = .rxdata m → m = 0) → (∀ m, r = .rxdata m → m = 0) →
      offOf p q = offOf p r → q = r

/-- A configuration that breaks U19's checks is refused before any step (10_state.md R30, R32; 20_memory.md R65). -/
def Obligations.BadConfigurationIsRefused : Prop :=
  (∀ s : State, s.cfg.valid = false → step s = .refused .badConfiguration) ∧
    ∀ p : Params,
      p.off.status % 4 ≠ 0 ∨ 4096 ≤ p.off.status ∨ p.off.ctrl = p.off.status ∨ p.off.txdata = p.off.lut ∨
        p.off.rxdata = p.off.addr ∨ p.mask.busy = 0#32 ∨ p.lckUnlock = p.lckLock ∨ p.txCapacity < 4 ∨
        p.waitLimit = 0 ∨ p.opc.cmd = p.opc.read ∨ p.opc.cmd = 0#6 →
      p.valid = false

/-! ### The device contract -/

/-- A LUT write takes effect only while the LUT is unlocked (10_state.md R40): then the register holds the value and
every other byte of the table is as before; locked, it leaves no trace. A write while a
transaction is in flight is a race (R52, R74) and no case of this rule. -/
def Obligations.LutWriteNeedsUnlock : Prop :=
  ∀ (s : State) (j : Fin 64) (v : Word), s.dev.clockOn = true → s.dev.inFlight = none →
    SameButDevice s (s.devWrite (.lut j) v) ∧
    (s.dev.lutLock = .unlocked →
      ∃ m, OnlyKey { s.dev with mem := m } (s.devWrite (.lut j) v).dev ∧
        (s.devWrite (.lut j) v).dev.lutReg s.cfg j.val = v ∧
        (s.devWrite (.lut j) v).dev.lutWord s.cfg j.val = some v ∧
        ∀ a, a < lutOff s.cfg j.val ∨ lutOff s.cfg j.val + 4 ≤ a → Memory.read m a = Memory.read s.dev.mem a) ∧
    (s.dev.lutLock = .locked → OnlyKey s.dev (s.devWrite (.lut j) v).dev)

/-- The unlock key arms the lock control (R41), and a lock-control write takes effect only with the key armed, which
it consumes (R41, R42); unarmed it is ignored. -/
def Obligations.KeyArmsLockControl : Prop :=
  ∀ s : State, s.cfg.valid = true → s.dev.clockOn = true →
    s.devWrite .lutkey s.cfg.lutKey = { s with dev := { s.dev with keyArmed := true } } ∧
    ∀ v : Word,
      (s.dev.keyArmed = false → s.devWrite .lckcr v = s) ∧
      (s.dev.keyArmed = true →
        SameButDevice s (s.devWrite .lckcr v) ∧
        ∃ l, (s.devWrite .lckcr v).dev = { s.dev with keyArmed := false, lutLock := l } ∧
          (v = s.cfg.lckUnlock → l = .unlocked) ∧ (v = s.cfg.lckLock → l = .locked))

/-- The IP-command word starts the transaction its two fields name, at the address last written (R44), on a
controller that is enabled; the rest of the device, and all of the engine, is as before. On one that `MDIS` disables
(R31) it starts it without a constrained outcome, or not at all (log 37). -/
def Obligations.IpcmdStartsTransaction : Prop :=
  ∀ (s : State) (seqid : BitVec 4) (datsz : Half), s.dev.clockOn = true → s.dev.inFlight = none →
    ∃ t b, exec (.ipcmd seqid datsz) s = .next t ∧ SameButDevice s t ∧ (s.dev.keyArmed = false → b = false) ∧
      (s.dev.enabled s.cfg = true →
        t.dev =
          { s.dev with
            keyArmed := b
            ipcmd := packIpcmd seqid datsz
            executed := []
            inFlight :=
              some { seq := seqid, addr := s.dev.addr, size := datsz, start := s.dev.seqPtr, wild := false } }) ∧
      (s.dev.enabled s.cfg = false →
        t.dev = { s.dev with keyArmed := b, ipcmd := packIpcmd seqid datsz } ∨
          t.dev =
            { s.dev with
              keyArmed := b
              ipcmd := packIpcmd seqid datsz
              executed := []
              inFlight :=
                some { seq := seqid, addr := s.dev.addr, size := datsz, start := s.dev.seqPtr, wild := true } })

/-- The writes that R52 lists, and a write to any LUT word (20_memory.md R74; log 42), end the device contract when a
transaction is in flight, and no step brings it back. -/
def Obligations.RacingWriteEndsContract : Prop :=
  (∀ s t : State, s.dev.lawless = true → step s = .next t → t.dev.lawless = true) ∧
  ∀ (s : State) (f : Flight) (v : Word), s.dev.clockOn = true → s.dev.inFlight = some f →
    (s.devWrite .addr v).dev.lawless = true ∧ (s.devWrite .ipcmd v).dev.lawless = true ∧
    (s.devWrite .txdata v).dev.lawless = true ∧
    (fieldSet s.cfg.mask.seqptrClr v = true → (s.devWrite .sptrclr v).dev.lawless = true) ∧
    (fieldSet s.cfg.mask.clrTxf v = true → (s.devWrite .ctrl v).dev.lawless = true) ∧
    (fieldSet s.cfg.mask.rxptrClr v = true → (s.devWrite (rxptrRole s.cfg) v).dev.lawless = true) ∧
    ∀ j : Fin 64, (s.devWrite (.lut j) v).dev.lawless = true

/-- The four status flags read as the device stands (R45, R48, R50, R51): BUSY while a transaction is in flight,
RXWM with at least one watermark in the RX buffer, TXFULL with the TX buffer at its capacity, TXNE with a word in it;
the read changes nothing but an armed key (log 8 takes the flags' bits to be apart). -/
def Obligations.StatusFlagsFollowDevice : Prop :=
  ∀ s : State, s.cfg.valid = true → Contract s → StatusApart s.cfg →
    (fieldSet s.cfg.mask.busy (s.devRead .status).1 = s.dev.inFlight.isSome ∧
      fieldSet s.cfg.mask.rxwm (s.devRead .status).1 = decide (4 ≤ s.dev.rxBuf.length) ∧
      fieldSet s.cfg.mask.txfull (s.devRead .status).1 = decide (s.cfg.txCapacity ≤ s.dev.txBuf.length) ∧
      fieldSet s.cfg.mask.txne (s.devRead .txstat).1 = decide (s.dev.txBuf ≠ [])) ∧
    (SameButDevice s (s.devRead .status).2 ∧ OnlyKey s.dev (s.devRead .status).2.dev) ∧
    (SameButDevice s (s.devRead .txstat).2 ∧ OnlyKey s.dev (s.devRead .txstat).2.dev)

/-- The RX data window shows the four oldest bytes, the oldest delivered first (R35; 20_memory.md R62), and a pop
removes them (R49). -/
def Obligations.RxWindowAndPop : Prop :=
  ∀ s : State, 4 ≤ s.dev.rxBuf.length →
    (Contract s →
      rxBytes s.cfg.rxByteOrder (s.devRead (.rxdata 0)).1 = s.dev.rxBuf.take 4 ∧
      SameButDevice s (s.devRead (.rxdata 0)).2 ∧ OnlyKey s.dev (s.devRead (.rxdata 0)).2.dev) ∧
    ∀ v : Word, s.dev.clockOn = true → fieldSet s.cfg.mask.rxpop v = true →
      SameButDevice s (s.devWrite .flags v) ∧
      OnlyKey { s.dev with rxBuf := s.dev.rxBuf.drop 4, rxPtr := s.dev.rxPtr + 4 } (s.devWrite .flags v).dev

/-- `SEQPTR_CLR` resets the table read cursor and `RXPTR_CLR` discards stale read data, wherever the configuration
puts it (R47); with a transaction in flight either is a race (R52) and no case of this rule. A `CTRL` write that
also resets clears after the reset (log 11). -/
def Obligations.PointerClears : Prop :=
  ∀ (s : State) (v : Word), s.dev.clockOn = true → s.dev.inFlight = none →
    (fieldSet s.cfg.mask.seqptrClr v = true → OnlyKey { s.dev with seqPtr := 0 } (s.devWrite .sptrclr v).dev) ∧
    (fieldSet s.cfg.mask.rxptrClr v = true →
      (s.devWrite (rxptrRole s.cfg) v).dev.rxBuf = [] ∧ (s.devWrite (rxptrRole s.cfg) v).dev.rxPtr = 0)

/-- A write to `TXDATA` appends one word to a buffer that is not full (R50); `CLR_TXF` empties the TX buffer and
`CLR_RXF` the RX buffer (R51), unless the write is a race (R52); and a `CTRL` write that resets nothing leaves the
value written in `CTRL` (log 9). -/
def Obligations.BufferWritesAndClears : Prop :=
  ∀ (s : State) (v : Word), s.dev.clockOn = true →
    (s.dev.inFlight = none → s.dev.txBuf.length < s.cfg.txCapacity →
      SameButDevice s (s.devWrite .txdata v) ∧
      OnlyKey { s.dev with txBuf := s.dev.txBuf ++ [v] } (s.devWrite .txdata v).dev) ∧
    (fieldSet (swrstMask s.cfg) v = false → (s.devWrite .ctrl v).dev.ctrl = v) ∧
    (s.dev.inFlight = none → fieldSet s.cfg.mask.clrTxf v = true → (s.devWrite .ctrl v).dev.txBuf = []) ∧
    (s.dev.inFlight = none ∨ ctrlRaces s.cfg v = false → fieldSet s.cfg.mask.clrRxf v = true →
      (s.devWrite .ctrl v).dev.rxBuf = [])

/-! ### The LUT instructions at the device -/

/-- A phase that moves no buffer data completes in one step: it is recorded and the cursor moves on; after the eighth
instruction the transaction completes (10_state.md R46; 40_lut_instructions.md R100). Nothing else changes. -/
def Obligations.PhasesAdvanceCursor : Prop :=
  ∀ (s : State) (f : Flight) (pad : BitVec 2) (x : Byte) (i : Instr), s.dev.inFlight = some f →
    padWired s.cfg pad = true →
    i ∈ [Instr.cmd pad x, .addr pad x, .dummy pad x, .mode pad x, .mode2 pad x, .mode4 pad x, .addrDdr pad x,
      .modeDdr pad x, .mode2Ddr pad x, .mode4Ddr pad x, .dataLearn pad x] →
    exec i s = .next
      { s with
        dev :=
          { s.dev with
            executed := s.dev.executed ++ [i]
            seqPtr := if s.dev.seqPtr + 1 < 8 then s.dev.seqPtr + 1 else 8
            inFlight := if s.dev.seqPtr + 1 < 8 then some f else none } }

/-- STOP ends the transaction, whatever its pad and operand (R101), and is recorded; with both 0 nothing else
changes, otherwise any value of the device may, and nothing outside it (U9). Whether the pad width is wired does not
matter (log 43). -/
def Obligations.StopEndsTransaction : Prop :=
  ∀ (s : State) (f : Flight) (pad : BitVec 2) (x : Byte), s.dev.inFlight = some f →
    ∃ t, exec (.stop pad x) s = .next t ∧ SameButDevice s t ∧ t.dev.inFlight = none ∧
      t.dev.executed = s.dev.executed ++ [.stop pad x] ∧ t.dev.clockOn = s.dev.clockOn ∧
      t.dev.lawless = s.dev.lawless ∧
      (pad = 0#2 → x = 0#8 →
        t = { s with dev := { s.dev with executed := s.dev.executed ++ [.stop pad x], inFlight := none } })

/-- One step of a read phase (R108, R115; log 17 takes READ_DDR for one, log 16 the arrival of each byte from a
drawn word): a byte enters at the end of the RX buffer or not, and the phase ends or not; a byte that finds the
buffer full leaves the transaction without a constrained outcome (70_reset_and_hazards.md R233). What is full is the
buffer as it stands, whatever was popped before (log 44). -/
def Obligations.ReadPhaseFillsRxBuffer : Prop :=
  ∀ (s : State) (f : Flight) (pad : BitVec 2) (x : Byte) (i : Instr), s.dev.inFlight = some f →
    padWired s.cfg pad = true → i ∈ [Instr.read pad x, .readDdr pad x] →
    (s.dev.rxBuf.length < s.cfg.rxCapacity ∨ s.draw.1.getLsbD 8 = false →
      exec i s = .next
        { s with
          answers := s.draw.2.answers
          drawn := s.draw.2.drawn
          dev :=
            { s.dev with
              rxBuf := if s.draw.1.getLsbD 8 then s.dev.rxBuf ++ [s.draw.1.extractLsb' 0 8] else s.dev.rxBuf
              executed := if s.draw.1.getLsbD 9 then s.dev.executed ++ [i] else s.dev.executed
              seqPtr :=
                if s.draw.1.getLsbD 9 then (if s.dev.seqPtr + 1 < 8 then s.dev.seqPtr + 1 else 8) else s.dev.seqPtr
              inFlight := if s.draw.1.getLsbD 9 = true ∧ ¬ s.dev.seqPtr + 1 < 8 then none else some f } }) ∧
    (s.cfg.rxCapacity ≤ s.dev.rxBuf.length → s.draw.1.getLsbD 8 = true →
      ∃ t, exec i s = .next t ∧ SameButDevice s t ∧ t.dev.mem = s.dev.mem ∧ t.dev.txBuf = s.dev.txBuf ∧
        ∀ g, t.dev.inFlight = some g → g.wild = true)

/-- One step of a write phase (R109, R116; log 17 takes WRITE_DDR for one; log 16): the oldest TX word leaves the TX
buffer or not, and the phase ends or not. Nothing else changes. -/
def Obligations.WritePhaseConsumesTxBuffer : Prop :=
  ∀ (s : State) (f : Flight) (pad : BitVec 2) (x : Byte) (i : Instr), s.dev.inFlight = some f →
    padWired s.cfg pad = true → i ∈ [Instr.write pad x, .writeDdr pad x] →
    exec i s = .next
      { s with
        answers := s.draw.2.answers
        drawn := s.draw.2.drawn
        dev :=
          { s.dev with
            txBuf := if s.draw.1.getLsbD 8 then s.dev.txBuf.drop 1 else s.dev.txBuf
            executed := if s.draw.1.getLsbD 9 then s.dev.executed ++ [i] else s.dev.executed
            seqPtr :=
              if s.draw.1.getLsbD 9 then (if s.dev.seqPtr + 1 < 8 then s.dev.seqPtr + 1 else 8) else s.dev.seqPtr
            inFlight := if s.draw.1.getLsbD 9 = true ∧ ¬ s.dev.seqPtr + 1 < 8 then none else some f } }

/-- JUMP_ON_CS (R110), any phase on a pad width that is not wired (R119), and an unassigned opcode (R118) complete
their step and leave the transaction without a constrained outcome, the last without the contract too. -/
def Obligations.UnconstrainedInstructions : Prop :=
  ∀ (s : State) (f : Flight) (pad : BitVec 2) (x : Byte), s.dev.inFlight = some f →
    (∀ i : Instr,
      (padWired s.cfg pad = true ∧ i = .jumpOnCs pad x) ∨
        (padWired s.cfg pad = false ∧
          i ∈ [Instr.cmd pad x, .addr pad x, .dummy pad x, .mode pad x, .mode2 pad x, .mode4 pad x, .read pad x,
            .write pad x, .jumpOnCs pad x, .addrDdr pad x, .modeDdr pad x, .mode2Ddr pad x, .mode4Ddr pad x,
            .readDdr pad x, .writeDdr pad x, .dataLearn pad x]) →
      exec i s = .next
        { s with
          dev := { s.dev with executed := s.dev.executed ++ [i], inFlight := some { f with wild := true } } }) ∧
    ∀ n : BitVec 6,
      exec (.unassigned n pad x) s = .next
        { s with
          dev :=
            { s.dev with
              executed := s.dev.executed ++ [.unassigned n pad x]
              inFlight := some { f with wild := true }
              lawless := true } }

/-- The block never executes a LUT instruction, and the device only in a transaction (R46): with none in flight each
of them is refused (log 31). -/
def Obligations.LutInstrNeedsTransaction : Prop :=
  ∀ (s : State) (n : BitVec 6) (pad : BitVec 2) (x : Byte) (i : Instr), s.dev.inFlight = none →
    i ∈ [Instr.stop pad x, .cmd pad x, .addr pad x, .dummy pad x, .mode pad x, .mode2 pad x, .mode4 pad x,
      .read pad x, .write pad x, .jumpOnCs pad x, .addrDdr pad x, .modeDdr pad x, .mode2Ddr pad x, .mode4Ddr pad x,
      .readDdr pad x, .writeDdr pad x, .dataLearn pad x, .unassigned n pad x] →
    exec i s = .refused .noTransaction

/-! ### WRITE_SEQ -/

/-- WRITE_SEQ served without interruption, with no transaction in flight (42_lut_manager.md R140, R142): accepted,
then exactly the eight writes in order, the trace event, and `Ok`; on the device the four words are in the table,
every other byte of it is as before, the lock is Locked and the key consumed, whatever they were; nothing else
changes. With a transaction in flight it neither reads `BUSY` nor waits: the same accesses, trace and response, and
the device contract has ended (R144; log 42). -/
def Obligations.WriteSeqInstallsSequence : Prop :=
  ∀ (s : State) (index : BitVec 4) (words : Vector Word 4), s.cfg.valid = true → Ready s → s.dev.clockOn = true →
    ∃ d : Device,
      execTimes (.writeSeq index words) 11 s = .next
        { s with
          eng :=
            { s.eng with
              hist := s.eng.hist ++ writeSeqTrace s.cfg index words
              trace := s.eng.trace ++ [.tableWrite index] }
          responses := s.responses ++ [(s.eng.offer, .ok .unit)]
          dev := d } ∧
      (s.dev.inFlight = none →
        (∃ m, d = { s.dev with mem := m, lutLock := .locked, keyArmed := false }) ∧
        (∀ k : Fin 4, d.lutWord s.cfg (4 * index.toNat + k.val) = some words[k]) ∧
        ∀ a, a < lutOff s.cfg (4 * index.toNat) ∨ lutOff s.cfg (4 * index.toNat + 4) ≤ a →
          Memory.read d.mem a = Memory.read s.dev.mem a) ∧
      (s.dev.inFlight.isSome = true → d.lawless = true)

/-- WRITE_SEQ is idempotent on the table, not on the history (R143): after one run without interruption, a second
one with the same operands, uninterrupted too, leaves the LUT's storage as the first did, and appends its own eight
writes; with no transaction in flight (R144). -/
def Obligations.WriteSeqIsIdempotent : Prop :=
  ∀ (s t u : State) (index : BitVec 4) (words : Vector Word 4), s.cfg.valid = true → Ready s →
    s.dev.clockOn = true → s.dev.inFlight = none →
    execTimes (.writeSeq index words) 11 s = .next t → execTimes (.writeSeq index words) 11 t = .next u →
    u.dev.mem = t.dev.mem ∧ u.dev.lutLock = t.dev.lutLock ∧
      ∃ l, l.length = 8 ∧ t.eng.hist = s.eng.hist ++ l ∧ u.eng.hist = s.eng.hist ++ l ++ l

/-- The bracket is mandatory around every table mutation (R141): only WRITE_SEQ's writes reach `LUT`, `LUTKEY` or
`LCKCR`. -/
def Obligations.OnlyWriteSeqTouchesTable : Prop :=
  ∀ (s t : State) (i : Instr) (off : Nat) (v : Word), s.cfg.valid = true → exec i s = .next t →
    t.eng.hist = s.eng.hist ++ [.wr off v] →
    (off = s.cfg.off.lutkey ∨ off = s.cfg.off.lckcr ∨
      (s.cfg.off.lut ≤ off ∧ off < s.cfg.off.lut + 256)) →
    ∃ index words, i = .writeSeq index words

/-! ### ISSUE -/

/-- ISSUE served without interruption, against any device (43_transaction_engine.md R150 to R152; 60_exceptions.md
R190, R193, R194): the first wait expires with `Busy` before any write; or `ADDR`, the two pointer clears and
`IPCMD` are written in order and traced, and then the second wait ends it with `Ok` or `Timeout`. The owner and the
requests on the port are as before. -/
def Obligations.IssueServesItsRule : Prop :=
  ∀ (s : State) (seq : BitVec 4) (addr : Word) (size : Half), s.cfg.valid = true → Ready s →
    ∃ n t, execTimes (.issue seq addr size) n s = .next t ∧ t.eng.job = none ∧ t.eng.mode = .idle ∧
      t.eng.owner = s.eng.owner ∧ t.cfg = s.cfg ∧ t.port = s.port ∧ t.foreign = s.foreign ∧
      t.schedule = s.schedule ∧
      ((∃ l, WaitExpired s.cfg Role.status (busyClear s.cfg) l ∧ t.eng.hist = s.eng.hist ++ l ∧
          t.eng.trace = s.eng.trace ∧ t.responses = s.responses ++ [(s.eng.offer, Response.err ErrorKind.busy)]) ∨
        ∃ l1 l2 l3 l4, WaitMet s.cfg Role.status (busyClear s.cfg) l1 ∧ ActTrace s.cfg (fieldRxptrClr s.cfg) l2 ∧
          ActTrace s.cfg (fieldSeqptrClr s.cfg) l3 ∧
          t.eng.hist = s.eng.hist ++ l1 ++ [Event.wr s.cfg.off.addr addr] ++ l2 ++ l3 ++
            [Event.wr s.cfg.off.ipcmd (packIpcmd seq size)] ++ l4 ∧
          ((WaitMet s.cfg Role.status (busyClear s.cfg) l4 ∧
              t.eng.trace = s.eng.trace ++ [TraceEvent.issueStart seq addr size, TraceEvent.issueComplete seq] ∧
              t.responses = s.responses ++ [(s.eng.offer, Response.ok Result.unit)]) ∨
            (WaitExpired s.cfg Role.status (busyClear s.cfg) l4 ∧
              t.eng.trace = s.eng.trace ++ [TraceEvent.issueStart seq addr size] ∧
              t.responses = s.responses ++ [(s.eng.offer, Response.err ErrorKind.timeout)])))

/-- A device under its contract, enabled, with no transaction in flight (R44, R45, R47): after its first six
accesses, one less where `RXPTR_CLR` is no field of `CTRL` or `RXCTL`, an uninterrupted ISSUE has polled `BUSY`
once, written `ADDR`, made the two pointer clears, written `IPCMD` and traced its start; and if the oracle answered
no `CTRL` read with a bit that resets or disables (log 9), the device has started its transaction at its address
with its size, from the first instruction, and the RX buffer holds no stale byte. FILL's inner ISSUE does the same
with `4*n` for its size (R154), and leaves the TX buffer as it is if no `CTRL` value written back sets `CLR_TXF`. -/
def Obligations.IssueStartsItsTransaction : Prop :=
  (∀ (s : State) (seq : BitVec 4) (addr : Word) (size : Half), s.cfg.valid = true → Ready s → Contract s →
    s.dev.enabled s.cfg = true → s.dev.inFlight = none → StatusApart s.cfg → CtrlApart s.cfg →
    ∃ t l, execTimes (.issue seq addr size) (6 + actCost (fieldRxptrClr s.cfg)) s = .next t ∧
      t.eng.job =
        some
          { sender := s.eng.offer, resume := .idle, task := .issue seq addr size (.waitDone 1), todo := [] } ∧
      t.eng.trace = s.eng.trace ++ [.issueStart seq addr size] ∧ t.eng.hist = s.eng.hist ++ l ∧
      TriggerTrace s.cfg seq addr size l ∧ t.responses = s.responses ∧
      (CtrlReadsClear s.cfg l → Started s.dev t.dev seq addr size)) ∧
    ∀ (s : State) (j : Service) (seq : BitVec 4) (addr : Word) (data : List Word) (n lim : Nat), s.cfg.valid = true →
      s.eng.job = some j → j.task = .fill seq addr data (.issue (.waitIdle 1)) n lim → j.todo = [] → Contract s →
      s.dev.enabled s.cfg = true → s.dev.inFlight = none → StatusApart s.cfg → CtrlApart s.cfg →
      ∃ t l, execTimes (.fill seq addr data) (5 + actCost (fieldRxptrClr s.cfg)) s = .next t ∧
        t.eng.job = some { j with task := .fill seq addr data (.issue (.waitDone 1)) n lim } ∧
        t.eng.trace = s.eng.trace ++ [.issueStart seq addr (BitVec.ofNat 16 (4 * n))] ∧
        t.eng.hist = s.eng.hist ++ l ∧ TriggerTrace s.cfg seq addr (BitVec.ofNat 16 (4 * n)) l ∧
        t.responses = s.responses ∧
        (CtrlReadsClear s.cfg l →
          Started s.dev t.dev seq addr (BitVec.ofNat 16 (4 * n)) ∧
            ((∀ v, .wr s.cfg.off.ctrl v ∈ l → fieldSet s.cfg.mask.clrTxf v = false) → t.dev.txBuf = s.dev.txBuf))

/-- ISSUE completes when its second wait finds the transaction complete (R152, R45): that read, the trace event and
the response `Ok`, one a step; the mode is the one it was accepted in, and of the device only an armed key may
change. -/
def Obligations.IssueCompletes : Prop :=
  ∀ (s : State) (j : Service) (seq : BitVec 4) (addr : Word) (size : Half) (i : Nat), s.cfg.valid = true →
    s.eng.job = some j → j.task = .issue seq addr size (.waitDone i) → j.todo = [] → Contract s →
    StatusApart s.cfg → s.dev.inFlight = none →
    ∃ t1 t2 t v, exec (.issue seq addr size) s = .next t1 ∧ exec (.issue seq addr size) t1 = .next t2 ∧
      exec (.issue seq addr size) t2 = .next t ∧
      t1.eng.hist = s.eng.hist ++ [.rd s.cfg.off.status v] ∧ t1.eng.trace = s.eng.trace ∧ t2.responses = s.responses ∧
      t.eng =
        { s.eng with
          mode := j.resume, job := none, hist := s.eng.hist ++ [.rd s.cfg.off.status v]
          trace := s.eng.trace ++ [.issueComplete seq] } ∧
      busyClear s.cfg v = true ∧ t.responses = s.responses ++ [(j.sender, .ok .unit)] ∧ OnlyKey s.dev t.dev ∧
      t.cfg = s.cfg ∧ t.port = s.port ∧ t.foreign = s.foreign ∧ t.schedule = s.schedule

/-- The two waits of ISSUE (R150, D15), and of FILL's inner ISSUE (R154), against a device that stays busy: polled
again until poll `WAIT_LIMIT`; then the next step answers `Busy` before the trigger and `Timeout` after it; the
device is untouched but for an armed key. -/
def Obligations.IssueWaitsAreBounded : Prop :=
  ∀ (s : State) (j : Service) (i : Nat) (done : Bool), s.cfg.valid = true → s.eng.job = some j →
    issuePos j.task = some (if done then .waitDone i else .waitIdle i) → j.todo = [] → Contract s →
    s.dev.inFlight.isSome = true →
    ∃ t v, exec (taskInstr j.task) s = .next t ∧ OnlyKey s.dev t.dev ∧ t.eng.trace = s.eng.trace ∧
      t.eng.hist = s.eng.hist ++ [.rd s.cfg.off.status v] ∧ t.eng.owner = s.eng.owner ∧
      t.responses = s.responses ∧ t.eng.mode = s.eng.mode ∧
      (i < s.cfg.waitLimit →
        t.eng.job =
          some { j with task := setIssuePos (if done then .waitDone (i + 1) else .waitIdle (i + 1)) j.task }) ∧
      (s.cfg.waitLimit ≤ i →
        ∃ u, exec (taskInstr j.task) t = .next u ∧ u.dev = t.dev ∧ u.eng.hist = t.eng.hist ∧
          u.responses = s.responses ++ [(j.sender, .err (if done then .timeout else .busy))] ∧
          u.eng.mode = j.resume ∧ u.eng.job = none)

/-! ### DRAIN -/

/-- DRAIN served without interruption delivers exactly the oldest `size` bytes (R153; 10_state.md R35, R48, R49), one
watermark event, one `RXDATA` read and one pop for every four bytes or part of four; the rest of the last word is
discarded. A size of 0 is answered with no access. -/
def Obligations.DrainDeliversOldestBytes : Prop :=
  ∀ (s : State) (size : Word) (k : Nat), s.cfg.valid = true → Ready s → Contract s →
    k = (size.toNat + 3) / 4 → 4 * k ≤ s.dev.rxBuf.length →
    ∃ t l, execTimes (.drain size) (2 + 4 * k) s = .next t ∧
      t.responses = s.responses ++ [(s.eng.offer, .ok (.bytes (s.dev.rxBuf.take size.toNat)))] ∧
      t.eng =
        { s.eng with
          hist := s.eng.hist ++ l
          trace := s.eng.trace ++ (List.range k).map (fun n => .watermark (n + 1)) } ∧
      l.length = 3 * k ∧
      (∀ n, n < k →
        (∃ v, l[3 * n]? = some (.rd s.cfg.off.status v)) ∧ (∃ v, l[3 * n + 1]? = some (.rd s.cfg.off.rxdata v)) ∧
        l[3 * n + 2]? = some (.wr s.cfg.off.flags s.cfg.mask.rxpop)) ∧
      OnlyKey { s.dev with rxBuf := s.dev.rxBuf.drop (4 * k), rxPtr := s.dev.rxPtr + 4 * k } t.dev ∧
      t.cfg = s.cfg ∧ t.port = s.port ∧ t.foreign = s.foreign ∧ t.schedule = s.schedule

/-- A DRAIN that finds no watermark (R153, D17): polled again until poll `WAIT_LIMIT`; then the next step answers
`Timeout`, with the bytes read so far lost; the device is untouched but for an armed key. -/
def Obligations.DrainTimesOut : Prop :=
  ∀ (s : State) (j : Service) (size : Word) (i k : Nat) (out : List Byte), s.cfg.valid = true →
    s.eng.job = some j → j.task = .drain size (.wait i) out k → j.todo = [] → Contract s → StatusApart s.cfg →
    s.dev.rxBuf.length < 4 →
    ∃ t, exec (.drain size) s = .next t ∧ OnlyKey s.dev t.dev ∧ t.eng.owner = s.eng.owner ∧
      t.responses = s.responses ∧
      (i < s.cfg.waitLimit → t.eng.job = some { j with task := .drain size (.wait (i + 1)) out k }) ∧
      (s.cfg.waitLimit ≤ i →
        ∃ u, exec (.drain size) t = .next u ∧ u.dev = t.dev ∧ u.eng.hist = t.eng.hist ∧
          u.responses = s.responses ++ [(j.sender, .err .timeout)] ∧ u.eng.mode = j.resume ∧ u.eng.job = none)

/-- The list of a DRAIN's `Ok` response has length `size` (30_encoding.md R88), whatever the device answers. -/
def Obligations.DrainResponseLength : Prop :=
  ∀ (s t : State) (size : Word) (who : Requester) (l : List Byte), LocalsInv s → exec (.drain size) s = .next t →
    t.responses = s.responses ++ [(who, .ok (.bytes l))] → l.length = size.toNat

/-! ### FILL -/

/-- FILL's size check comes before every register access (R155): fewer than four words are accepted, and the request's
next step, whatever other agents did meanwhile, answers `InvalidSize` and ends it; neither step makes an access. -/
def Obligations.FillRejectsShortData : Prop :=
  ∀ (s : State) (seq : BitVec 4) (addr : Word) (data : List Word), Ready s → data.length < 4 →
    ∃ j, exec (.fill seq addr data) s = .next { s with eng := { s.eng with mode := .active, job := some j } } ∧
      ∀ u : State, u.eng.job = some j →
        exec (.fill seq addr data) u =
          .next
            { u with
              eng := { u.eng with mode := .idle, job := none }
              responses := u.responses ++ [(s.eng.offer, .err .invalidSize)] }

/-- FILL served without interruption up to its inner ISSUE, into an empty TX buffer with no transaction in flight
(R154; 20_memory.md R63): `lim` words, the lesser of the data's length and the TX capacity, enter the TX buffer
unchanged and in order, `ADDR` is written, and the rest of the device is as before. -/
def Obligations.FillLoadsTxBuffer : Prop :=
  ∀ (s : State) (seq : BitVec 4) (addr : Word) (data : List Word) (lim : Nat), s.cfg.valid = true → Ready s →
    Contract s → StatusApart s.cfg → s.dev.inFlight = none → s.dev.txBuf = [] → 4 ≤ data.length →
    lim = min data.length s.cfg.txCapacity →
    ∃ t, execTimes (.fill seq addr data) (3 + 2 * lim) s = .next t ∧
      t.eng.job =
        some
          { sender := s.eng.offer, resume := .idle
            task := .fill seq addr data (.issue (.waitIdle 1)) lim lim, todo := [] } ∧
      OnlyKey { s.dev with addr := addr, txBuf := data.take lim } t.dev ∧ t.responses = s.responses ∧
      t.eng.trace = s.eng.trace ∧ t.eng.owner = s.eng.owner ∧ t.eng.hist.length = s.eng.hist.length + 2 + 2 * lim

/-- FILL completes when its inner ISSUE does (R154): the read, the trace event and the response `Ok` with the number
of words written, one a step. -/
def Obligations.FillCompletes : Prop :=
  ∀ (s : State) (j : Service) (seq : BitVec 4) (addr : Word) (data : List Word) (i n lim : Nat),
    s.cfg.valid = true → s.eng.job = some j → j.task = .fill seq addr data (.issue (.waitDone i)) n lim →
    j.todo = [] → Contract s → StatusApart s.cfg → s.dev.inFlight = none →
    ∃ t1 t2 t v, exec (.fill seq addr data) s = .next t1 ∧ exec (.fill seq addr data) t1 = .next t2 ∧
      exec (.fill seq addr data) t2 = .next t ∧
      t.eng =
        { s.eng with
          mode := j.resume, job := none, hist := s.eng.hist ++ [.rd s.cfg.off.status v]
          trace := s.eng.trace ++ [.issueComplete seq] } ∧
      t.responses = s.responses ++ [(j.sender, .ok (.count n))] ∧ OnlyKey s.dev t.dev ∧
      t.cfg = s.cfg ∧ t.port = s.port ∧ t.foreign = s.foreign ∧ t.schedule = s.schedule

/-- FILL's steps before its words (R154): a TX buffer that is not empty is cleared first, by a read of `CTRL` and
the write of what was read with `CLR_TXF` set, after which the buffer is empty (R51; with a transaction in flight
the write is a race, R52), also where the word read, which the oracle draws (log 9), makes the write reset the
device, for the clear comes after the reset (log 11); then each word waits for `TXFULL` to clear; a wait that
expires is answered `Timeout`, with the words written left in place. -/
def Obligations.FillClearsAndWaits : Prop :=
  ∀ (s : State) (j : Service) (seq : BitVec 4) (addr : Word) (data : List Word) (n lim : Nat),
    s.cfg.valid = true → s.eng.job = some j → j.todo = [] → Contract s → StatusApart s.cfg →
    (j.task = .fill seq addr data .txne n lim →
      ∃ t, exec (.fill seq addr data) s = .next t ∧ OnlyKey s.dev t.dev ∧ t.responses = s.responses ∧
        t.eng.job =
          some
            { j with
              task := .fill seq addr data (if s.dev.txBuf = [] then .addr else .clear .start) n lim }) ∧
    (j.task = .fill seq addr data (.clear .start) n lim →
      ∃ t v, exec (.fill seq addr data) s = .next t ∧ OnlyKey s.dev t.dev ∧ t.responses = s.responses ∧
        t.eng.hist = s.eng.hist ++ [.rd s.cfg.off.ctrl v] ∧
        t.eng.job = some { j with task := .fill seq addr data (.clear (.write v)) n lim }) ∧
    (∀ v, j.task = .fill seq addr data (.clear (.write v)) n lim →
      ∃ t, exec (.fill seq addr data) s = .next t ∧ t.responses = s.responses ∧
        t.eng.hist = s.eng.hist ++ [.wr s.cfg.off.ctrl (v ||| s.cfg.mask.clrTxf)] ∧
        t.eng.job = some { j with task := .fill seq addr data .addr n lim } ∧
        (s.dev.inFlight = none → t.dev.txBuf = [] ∧ t.dev.lawless = false)) ∧
    ∀ i, j.task = .fill seq addr data (.wait i) n lim →
      ∃ t, exec (.fill seq addr data) s = .next t ∧ OnlyKey s.dev t.dev ∧ t.responses = s.responses ∧
        (s.dev.txBuf.length < s.cfg.txCapacity →
          t.eng.job = some { j with task := .fill seq addr data .word n lim }) ∧
        (s.cfg.txCapacity ≤ s.dev.txBuf.length → i < s.cfg.waitLimit →
          t.eng.job = some { j with task := .fill seq addr data (.wait (i + 1)) n lim }) ∧
        (s.cfg.txCapacity ≤ s.dev.txBuf.length → s.cfg.waitLimit ≤ i →
          ∃ u, exec (.fill seq addr data) t = .next u ∧ u.dev = t.dev ∧
            u.responses = s.responses ++ [(j.sender, .err .timeout)] ∧ u.eng.job = none)

/-! ### ACQUIRE, RELEASE -/

/-- ACQUIRE (R170) and RELEASE (R171), in full: in Idle the sender of an ACQUIRE takes the free lock, and the owner's
RELEASE frees it, each with `Ok` and nothing else changed; either is held while another owns the lock or another
request is served; an ACQUIRE by the owner, one in another requester's name, a RELEASE by a requester that is not the
owner, and either in Uninit, are refused. -/
def Obligations.LockIsTakenAndFreed : Prop :=
  ∀ s : State,
    (s.eng.mode = .idle → s.eng.owner = none →
      exec (.acquire s.eng.offer) s = .next
        { s with
          eng := { s.eng with owner := some s.eng.offer }
          responses := s.responses ++ [(s.eng.offer, .ok .unit)] } ∧
      (∀ who, who ≠ s.eng.offer → exec (.acquire who) s = .refused .notTheSender) ∧
      ∀ who, exec (.release who) s = .refused .notTheOwner) ∧
    (s.eng.mode = .idle → s.eng.owner = some s.eng.offer →
      exec (.release s.eng.offer) s = .next
        { s with
          eng := { s.eng with owner := none }
          responses := s.responses ++ [(s.eng.offer, .ok .unit)] } ∧
      (∀ who, who ≠ s.eng.offer → exec (.release who) s = .refused .notTheOwner) ∧
      ∀ who, exec (.acquire who) s = .refused .nestedAcquire) ∧
    (∀ r, s.eng.owner = some r → r ≠ s.eng.offer →
      ∀ who, exec (.acquire who) s = .next s ∧ exec (.release who) s = .next s) ∧
    (s.eng.mode = .uninit → s.eng.owner = none →
      ∀ who, exec (.acquire who) s = .refused .uninitialised ∧ exec (.release who) s = .refused .uninitialised) ∧
    (s.eng.mode = .active → ∀ who, exec (.acquire who) s = .next s ∧ exec (.release who) s = .next s)

/-! ### INIT -/

/-- INIT served without interruption, whatever the platform and the device answer (70_reset_and_hazards.md R224,
R226; 10_state.md R39): `MapError` with no access, `ClockError` after the first eight, or `Ok` after the thirteen in
order, with `mode` Idle; an error leaves it Uninit. After `Ok` the device is as R39's last column says: the buffers
are empty, the watermark and timing registers hold their values, and `MDIS` and the software resets are clear (log
10). -/
def Obligations.InitBootsOrAborts : Prop :=
  ∀ s : State, s.cfg.valid = true → s.eng.mode = .uninit → s.eng.job = none → s.eng.owner = none →
    ∃ n t l, execTimes .init n s = .next t ∧ n ≤ 18 ∧ t.eng.job = none ∧ t.eng.owner = none ∧
      t.eng.trace = s.eng.trace ∧ t.eng.hist = s.eng.hist ++ l ∧ t.cfg = s.cfg ∧ t.port = s.port ∧
      t.foreign = s.foreign ∧ t.schedule = s.schedule ∧
      ((t.eng.mode = .uninit ∧ l = [] ∧ t.dev = s.dev ∧
          t.responses = s.responses ++ [(s.eng.offer, .err .mapError)]) ∨
        (t.eng.mode = .uninit ∧ l.length = 8 ∧ t.dev.clockOn = s.dev.clockOn ∧
          t.responses = s.responses ++ [(s.eng.offer, .err .clockError)]) ∨
        (t.eng.mode = .idle ∧ t.responses = s.responses ++ [(s.eng.offer, .ok .unit)] ∧
          (∃ a b c d e f,
            l =
              [.rd s.cfg.off.ctrl a, .wr s.cfg.off.ctrl (a ||| s.cfg.mask.mdis),
                .rd s.cfg.off.ctrl b, .wr s.cfg.off.ctrl (b ||| swrstMask s.cfg),
                .rd s.cfg.off.ctrl c, .wr s.cfg.off.ctrl (c &&& ~~~swrstMask s.cfg),
                .rd s.cfg.off.ctrl d, .wr s.cfg.off.ctrl (d &&& ~~~s.cfg.mask.mdis),
                .rd s.cfg.off.ctrl e, .wr s.cfg.off.ctrl (e ||| (s.cfg.mask.clrRxf ||| s.cfg.mask.clrTxf)),
                .rd s.cfg.off.rxctl f, .wr s.cfg.off.rxctl ((f &&& ~~~s.cfg.mask.rxwmk) ||| s.cfg.rxwmField4B),
                .wr s.cfg.off.flshcfg s.cfg.flashTiming]) ∧
          t.dev.clockOn = true ∧ t.dev.rxBuf = [] ∧ t.dev.txBuf = [] ∧
          t.dev.rxctl &&& s.cfg.mask.rxwmk = s.cfg.rxwmField4B &&& s.cfg.mask.rxwmk ∧
          t.dev.flshcfg = s.cfg.flashTiming ∧ t.dev.ctrl &&& (s.cfg.mask.mdis ||| swrstMask s.cfg) = 0#32))

/-- INIT's last access (R224) and its response: the timing register is written, the response is `Ok`, `mode` is Idle
(R24), and of the device only what R39's last column says changes besides (log 10). -/
def Obligations.InitCompletes : Prop :=
  ∀ (s : State) (j : Service), s.eng.job = some j → j.task = .init .timing → j.todo = [] → s.dev.clockOn = true →
    ∃ t1 t, exec .init s = .next t1 ∧ exec .init t1 = .next t ∧
      t1.eng.hist = s.eng.hist ++ [.wr s.cfg.off.flshcfg s.cfg.flashTiming] ∧ t1.responses = s.responses ∧
      t.eng =
        { s.eng with
          mode := .idle, job := none, hist := s.eng.hist ++ [.wr s.cfg.off.flshcfg s.cfg.flashTiming] } ∧
      t.responses = s.responses ++ [(j.sender, .ok .unit)] ∧
      OnlyKey
        { s.dev with
          flshcfg := s.cfg.flashTiming
          ctrl := s.dev.ctrl &&& ~~~(s.cfg.mask.mdis ||| swrstMask s.cfg)
          rxBuf := []
          txBuf := []
          rxctl := (s.dev.rxctl &&& ~~~s.cfg.mask.rxwmk) ||| s.cfg.rxwmField4B } t.dev ∧
      t.cfg = s.cfg ∧ t.port = s.port ∧ t.foreign = s.foreign ∧ t.schedule = s.schedule

/-! ### Refusals and holds -/

/-- In Uninit every request but INIT, ENCODE and DECODE is refused (R196, R222); so are INIT outside Uninit, a nested
ACQUIRE, and a RELEASE by a requester that is not the owner (R196). -/
def Obligations.RequestsAreRefused : Prop :=
  ∀ s : State, s.eng.mode ≠ .active → s.eng.job = none → ownerAllows s.eng.owner s.eng.offer = true →
    (s.eng.mode = .uninit →
      ∀ (index : BitVec 4) (words : Vector Word 4) (addr size : Word) (sz : Half) (data : List Word)
        (who : Requester) (i : Instr),
        i ∈ [Instr.writeSeq index words, .issue index addr sz, .drain size, .fill index addr data, .acquire who,
          .release who] →
        exec i s = .refused .uninitialised) ∧
    (s.eng.mode = .idle → exec .init s = .refused .alreadyInitialised) ∧
    (s.eng.owner = some s.eng.offer → s.eng.mode = .idle → ∀ who, exec (.acquire who) s = .refused .nestedAcquire) ∧
    (s.eng.mode = .idle → ∀ who, s.eng.owner ≠ some who → exec (.release who) s = .refused .notTheOwner)

/-- A request is held while another is served or another requester owns the lock (R172; 10_state.md R25): it gets no
response and nothing changes, which exec of it says by answering the same state (log 31). -/
def Obligations.RequestsAreHeld : Prop :=
  ∀ (s : State) (i : Instr), ModeInv s →
    (∃ i0 i1, i = .encode i0 i1) ∨ (∃ w, i = .decode w) ∨ (∃ index words, i = .writeSeq index words) ∨
      (∃ seq addr size, i = .issue seq addr size) ∨ (∃ size, i = .drain size) ∨
      (∃ seq addr data, i = .fill seq addr data) ∨ (∃ who, i = .acquire who) ∨ (∃ who, i = .release who) ∨
      i = .init →
    (∀ j, s.eng.job = some j → s.eng.mode = .active ∧ (taskInstr j.task ≠ i → exec i s = .next s)) ∧
      (s.eng.job = none → ownerAllows s.eng.owner s.eng.offer = false → exec i s = .next s)

/-- The engine takes a request only between two requests, only of a requester the lock does not hold back, and of each
requester in the order it sent them (R172); with one eligible it takes it. -/
def Obligations.RequestsAreTakenInOrder : Prop :=
  ∀ s : State,
    (s.eng.mode = .active → s.pick.1 = none) ∧
    (∀ m, s.pick.1 = some m →
      ownerAllows s.eng.owner m.sender = true ∧
      ∃ before after, s.port = before ++ m :: after ∧ (∀ x ∈ before, x.sender ≠ m.sender) ∧
        (s.pick.2.take m).port = before ++ after ∧ (s.pick.2.take m).eng.offer = m.sender) ∧
    (∀ m ∈ s.port, s.eng.mode ≠ .active → ownerAllows s.eng.owner m.sender = true → s.pick.1 ≠ none)

/-! ### A step -/

/-- A step runs the instruction it fetches: the engine's request in service, or the one it takes from the port; the
LUT instruction at the device's cursor; the IP-command word an outside agent writes. Nothing is added around it but
the turn, and the request leaving the port or the word the outside agent's queue. Where the device has none to
fetch: past the eighth instruction the transaction completes (R46, log 32); at an instruction that was never written
it goes on without a constrained outcome, and the contract ends (R53, U1); and a transaction without a constrained
outcome, or at a controller that is not enabled, may change its buffers and its cursor, and may complete (log 7, log
37, log 40). An outside agent's write to another register is that write at the device, and one where no register is
written stops (log 20, log 21). -/
def Obligations.StepRunsDecodedInstr : Prop :=
  ∀ s : State, s.cfg.valid = true →
    (s.takeTurn.1 = .engine → ∀ j, s.eng.job = some j → step s = exec (taskInstr j.task) s.takeTurn.2) ∧
    (s.takeTurn.1 = .engine → s.eng.job = none → ∀ m i, s.takeTurn.2.pick.1 = some m →
      decodeRequest m.msg = .ok i → step s = exec i (s.takeTurn.2.pick.2.take m)) ∧
    (s.takeTurn.1 = .device → ∀ f h, s.dev.inFlight = some f → f.wild = false → s.dev.enabled s.cfg = true →
      s.dev.seqPtr < 8 →
      s.dev.lutHalf s.cfg f.seq s.dev.seqPtr = some h → step s = exec (decodeLut s.cfg h) s.takeTurn.2) ∧
    (s.takeTurn.1 = .device → ∀ f, s.dev.inFlight = some f → f.wild = false → s.dev.enabled s.cfg = true →
      (8 ≤ s.dev.seqPtr → step s = .next { s.takeTurn.2 with dev := { s.dev with inFlight := none } }) ∧
      (s.dev.seqPtr < 8 → s.dev.lutHalf s.cfg f.seq s.dev.seqPtr = none →
        step s = .next
          { s.takeTurn.2 with
            dev := { s.dev with inFlight := some { f with wild := true }, lawless := true } })) ∧
    (s.takeTurn.1 = .device → ∀ f, s.dev.inFlight = some f → f.wild = true ∨ s.dev.enabled s.cfg = false →
      ∃ t rx tx c g, step s = .next t ∧ SameButDevice s.takeTurn.2 t ∧
        t.dev = { s.dev with rxBuf := rx, txBuf := tx, seqPtr := c, inFlight := g } ∧
        (rx = s.dev.rxBuf ∨ rx.length ≤ s.cfg.rxCapacity) ∧ (tx = s.dev.txBuf ∨ tx = s.dev.txBuf.tail) ∧
        (c = s.dev.seqPtr ∨ c ≤ 8) ∧ (g = none ∨ g = some { f with wild := true })) ∧
    (s.takeTurn.1 = .bus → ∀ w i rest, s.foreign = (s.cfg.off.ipcmd, w) :: rest → decodeIpcmd w = .ok i →
      step s = exec i { s.takeTurn.2 with foreign := rest }) ∧
    (s.takeTurn.1 = .bus → ∀ off v rest, s.foreign = (off, v) :: rest →
      (roleAt s.cfg off = none → step s = .fault (.noSuchRegister off)) ∧
      ∀ r, roleAt s.cfg off = some r →
        (readOnly r = true → step s = .fault (.noSuchRegister off)) ∧
        (readOnly r = false → r ≠ .ipcmd → step s = .next ({ s.takeTurn.2 with foreign := rest }.devWrite r v)))

/-- A step of the device (10_state.md R45, R46; 20_memory.md R70) changes nothing of the engine, the port and the
responses; where the transaction and the instruction at its cursor have a constrained outcome (U1, U8 to U11),
nothing of the LUT, the lock and the registers either; and with no transaction in flight it changes nothing at all
but the turn. -/
def Obligations.DeviceTurnFrame : Prop :=
  ∀ s t : State, s.takeTurn.1 = .device → step s = .next t →
    t.cfg = s.cfg ∧ t.eng = s.eng ∧ t.port = s.port ∧ t.responses = s.responses ∧ t.foreign = s.foreign ∧
    t.dev.clockOn = s.dev.clockOn ∧
    (ConstrainedTurn s →
      t.dev.mem = s.dev.mem ∧ t.dev.lutGen = s.dev.lutGen ∧ t.dev.lutLock = s.dev.lutLock ∧
      t.dev.keyArmed = s.dev.keyArmed ∧ t.dev.addr = s.dev.addr ∧ t.dev.ipcmd = s.dev.ipcmd ∧
      t.dev.ctrl = s.dev.ctrl ∧ t.dev.rxctl = s.dev.rxctl ∧ t.dev.flshcfg = s.dev.flshcfg ∧
      t.dev.bufdesc = s.dev.bufdesc ∧ t.dev.rxPtr = s.dev.rxPtr ∧ t.dev.lawless = s.dev.lawless) ∧
    (s.dev.inFlight = none → t = s.takeTurn.2)

/-- A step makes one register access of the engine, or traces one event, or neither, and only appends to the history
and the trace (00_scope.md R5, R10); no rule reads either (60_exceptions.md R200; 10_state.md R23): from any other
history and trace the step does the same, and appends the same. -/
def Obligations.HistoryIsObservationOnly : Prop :=
  ∀ (s : State) (h : List Event) (tr : List TraceEvent),
    (∀ t, step s = .next t →
      ∃ l l', l.length + l'.length ≤ 1 ∧ t.eng.hist = s.eng.hist ++ l ∧ t.eng.trace = s.eng.trace ++ l' ∧
        step (s.withHistory h tr) = .next (t.withHistory (h ++ l) (tr ++ l'))) ∧
    (∀ e, step s = .fault e → step (s.withHistory h tr) = .fault e) ∧
    (∀ e, step s = .refused e → step (s.withHistory h tr) = .refused e)

/-- Every access of the engine is one R30 gives it (10_state.md R33), and no step changes the configuration. -/
def Obligations.AccessesStayInWindow : Prop :=
  ∀ s t : State, HistInv s → step s = .next t → HistInv t ∧ t.cfg = s.cfg

/-- These requests never respond with an error (60_exceptions.md R192): ENCODE, DECODE, WRITE_SEQ, ACQUIRE and
RELEASE. They go on or are refused, and never fault. (That the response a request is about to give is one of its own
is the invariant of StepKeepsLocalRanges.) -/
def Obligations.NoErrorFromTheseRequests : Prop :=
  ∀ (s t : State) (i : Instr), LocalsInv s →
    (∃ i0 i1, i = .encode i0 i1) ∨ (∃ w, i = .decode w) ∨ (∃ index words, i = .writeSeq index words) ∨
      (∃ who, i = .acquire who) ∨ (∃ who, i = .release who) →
    (∀ f, exec i s ≠ .fault f) ∧ (exec i s = .next t → ∀ who e, t.responses ≠ s.responses ++ [(who, .err e)])

/-- What an error does (R193, R194): the request in service has nothing left but the response, and the step that
gives it ends the request: `mode` is what it was when it was accepted, the owner, the history, the trace and the
device are unchanged, and no access is made. No step gives an error response otherwise. -/
def Obligations.ErrorEndsRequest : Prop :=
  (∀ (s : State) (j : Service) (e : ErrorKind) (l : List Internal), s.eng.job = some j →
      j.todo = .respond (.err e) :: l →
      exec (taskInstr j.task) s =
        .next
          { s with
            eng := { s.eng with mode := j.resume, job := none }
            responses := s.responses ++ [(j.sender, .err e)] }) ∧
    ∀ (s t : State) (i : Instr) (who : Requester) (e : ErrorKind), exec i s = .next t →
      t.responses = s.responses ++ [(who, .err e)] →
      ∃ j l, s.eng.job = some j ∧ j.todo = .respond (.err e) :: l ∧ i = taskInstr j.task ∧ who = j.sender

/-- Every request ends after finitely many engine steps, within R156's bounds: each step of a request in service
lowers the step bound or ends the request; a step with an internal action left takes that one and makes no access;
any other makes one access, INIT's platform calls and hold apart, and lowers the access bound; and the access bound
at acceptance is R156's. -/
def Obligations.RequestsEndWithinBounds : Prop :=
  (∀ (s t : State) (j : Service), s.cfg.valid = true → LocalsInv s → s.eng.job = some j →
      exec (taskInstr j.task) s = .next t →
      (t.eng.job = none ∨ ∃ k, t.eng.job = some k ∧ stepsLeft s.cfg k < stepsLeft s.cfg j) ∧
      (j.todo = [] →
        (∃ k l, t.eng.job = some { j with task := k, todo := l } ∧
          accessesLeft s.cfg { j with task := k, todo := l } < accessesLeft s.cfg j) ∧
        ((∀ pos, j.task ≠ .init pos) → t.eng.hist.length = s.eng.hist.length + 1)) ∧
      (j.todo ≠ [] →
        t.eng.hist = s.eng.hist ∧ ∀ k, t.eng.job = some k → k = { j with todo := j.todo.tail })) ∧
    ∀ (p : Params) (index : BitVec 4) (words : Vector Word 4) (addr size : Word) (sz : Half) (data : List Word)
      (lim : Nat),
      taskLeft p (.writeSeq index words .key1) = 8 ∧
      taskLeft p (.issue index addr sz (.waitIdle 1)) =
        2 * p.waitLimit + 2 + actCost (fieldRxptrClr p) + actCost (fieldSeqptrClr p) ∧
      (0 < size.toNat → taskLeft p (.drain size (.wait 1) [] 0) =
        (size.toNat + 3) / 4 * (p.waitLimit + 1 + actCost (fieldRxpop p))) ∧
      taskLeft p (.fill index addr data .txne 0 lim) =
        1 + actCost (fieldClrTxf p) + 1 + lim * (p.waitLimit + 1) +
          (2 * p.waitLimit + 2 + actCost (fieldRxptrClr p) + actCost (fieldSeqptrClr p))

/-! ### Invariants -/

/-- Every step keeps a sound device: the cursor inside a sequence (10_state.md R46), the buffers within their
capacity (R35, R36), the table in its form. -/
def Obligations.StepKeepsDeviceSound : Prop :=
  ∀ s t : State, MemInv s ∧ CursorInv s ∧ BufferInv s → step s = .next t → MemInv t ∧ CursorInv t ∧ BufferInv t

/-- Every step keeps the engine's mode discipline (R24, R25): Active exactly while a request is served, which returns
to the mode it was accepted in; no owner before INIT has succeeded; the request in service is the owner's. -/
def Obligations.StepKeepsModeAndOwner : Prop :=
  ∀ s t : State, ModeInv s ∧ OwnerInv s → step s = .next t → ModeInv t ∧ OwnerInv t

/-- Every step keeps the local variables in the ranges of R26, and a response that the request in service is about
to give one that R11 and R190 give that request. -/
def Obligations.StepKeepsLocalRanges : Prop := ∀ s t : State, LocalsInv s → step s = .next t → LocalsInv t

/-- What the transaction in flight has executed is its sequence in order, none of it a STOP (R46; 30_encoding.md
R87): every step keeps it, while the contract holds and the transaction has a constrained outcome, from a state whose
cursor is inside a sequence. -/
def Obligations.StepKeepsExecutionOrder : Prop :=
  ∀ s t : State, CursorInv s → ExecutedInv s → step s = .next t → ExecutedInv t

/-- Past INIT's clock call the peripheral clock is on (70_reset_and_hazards.md R224); every step keeps it, from a
state whose mode is as R24 says. -/
def Obligations.StepKeepsClockOn : Prop :=
  ∀ s t : State, ModeInv s → ClockInv s → step s = .next t → ClockInv t

/-- No two transactions of the block overlap (43_transaction_engine.md R158): with no agent outside the block, every
step keeps that an ISSUE past its first wait finds no transaction in flight, unless the oracle answers its `CTRL`
read with a software-reset bit (log 9); and its trigger, or that of FILL's inner ISSUE, then starts its own, on an
enabled controller, and is no race. -/
def Obligations.TransactionsNeverOverlap : Prop :=
  (∀ s t : State, s.cfg.valid = true → ModeInv s → ClockInv s → CtrlApart s.cfg → s.foreign = [] → TriggerInv s →
      step s = .next t →
      (∀ w, t.eng.hist = s.eng.hist ++ [.rd s.cfg.off.ctrl w] → w &&& swrstMask s.cfg = 0#32) → TriggerInv t) ∧
    ∀ (s t : State) (j : Service) (seq : BitVec 4) (addr : Word) (size : Half), TriggerInv s → Contract s →
      s.dev.enabled s.cfg = true → s.eng.job = some j →
      j.task = .issue seq addr size .command ∨
        (∃ data n lim, j.task = .fill seq addr data (.issue .command) n lim ∧ size = BitVec.ofNat 16 (4 * n)) →
      j.todo = [] → exec (taskInstr j.task) s = .next t →
      t.dev.lawless = false ∧
        t.dev.inFlight =
          some { seq := seq, addr := s.dev.addr, size := size, start := s.dev.seqPtr, wild := false }

/-! ### Reset -/

/-- The engine after the block's reset (70_reset_and_hazards.md R220). -/
def Obligations.ResetEngineState : Prop :=
  State.reset.eng.mode = .uninit ∧ State.reset.eng.owner = none ∧ State.reset.eng.job = none ∧
    State.reset.eng.hist = [] ∧ State.reset.eng.trace = []

/-- The invariants hold after reset: what the engine's fields say, whatever the device holds (R221); what the device's
say, at the values the model gives it (log 4, log 5). -/
def Obligations.ResetMeetsInvariants : Prop :=
  (∀ s : State, AfterReset s → ModeInv s ∧ OwnerInv s ∧ LocalsInv s ∧ HistInv s ∧ ClockInv s ∧ TriggerInv s) ∧
    AfterReset State.reset ∧ MemInv State.reset ∧ CursorInv State.reset ∧ BufferInv State.reset ∧
    ExecutedInv State.reset

end
end

