-- ==== Sys2Proof/Laws/Decode.lean ====
section
/-! SUPPORT. The fields of the three bit-exact formats read back from what packs them, and pack back to it. -/

namespace Sys2Proof

/-! ### A LUT instruction (30_encoding.md R82) -/

@[simp] theorem lutOpcode_packLut (op : BitVec 6) (pad : BitVec 2) (x : Byte) : lutOpcode (packLut op pad x) = op := by
  apply BitVec.eq_of_getLsbD_eq
  intro i hi
  have h2 : 10 + i < 16 := by omega
  simp [lutOpcode, packLut, hi, h2, BitVec.getLsbD_of_ge pad (10 + i - 8) (by omega),
    BitVec.getLsbD_of_ge x (10 + i) (by omega)]

@[simp] theorem lutPad_packLut (op : BitVec 6) (pad : BitVec 2) (x : Byte) : lutPad (packLut op pad x) = pad := by
  apply BitVec.eq_of_getLsbD_eq
  intro i hi
  have h2 : 8 + i < 16 := by omega
  have h3 : 8 + i < 10 := by omega
  simp [lutPad, packLut, hi, h2, h3]

@[simp] theorem lutOperand_packLut (op : BitVec 6) (pad : BitVec 2) (x : Byte) :
    lutOperand (packLut op pad x) = x := by
  apply BitVec.eq_of_getLsbD_eq
  intro i hi
  have h2 : i < 16 := by omega
  have h3 : i < 10 := by omega
  simp [lutOperand, packLut, hi, h2, h3]

/-- Every half-word is what its three fields pack to (R82). -/
theorem packLut_fields (h : Half) : packLut (lutOpcode h) (lutPad h) (lutOperand h) = h := by
  apply BitVec.eq_of_getLsbD_eq
  intro i hi
  simp only [packLut, lutOpcode, lutPad, lutOperand, BitVec.getLsbD_or, BitVec.getLsbD_shiftLeft,
    BitVec.getLsbD_setWidth, BitVec.getLsbD_extractLsb', hi, decide_true, Bool.true_and]
  by_cases h8 : i < 8
  · simp [h8, show i < 10 by omega]
  · by_cases h10 : i < 10
    · simp [h8, h10, show i - 8 < 16 by omega, show i - 8 < 2 by omega, show 8 + (i - 8) = i by omega]
    · simp [h8, h10, show i - 10 < 16 by omega, show i - 10 < 6 by omega, show 10 + (i - 10) = i by omega,
        show ¬ (i - 8 < 2) by omega]

/-! ### The IP-command word (R86) -/

@[simp] theorem ipcmdSeq_pack (q : BitVec 4) (z : Half) : ipcmdSeq (packIpcmd q z) = q := by
  apply BitVec.eq_of_getLsbD_eq
  intro i hi
  have h2 : 24 + i < 32 := by omega
  simp [ipcmdSeq, packIpcmd, hi, h2, BitVec.getLsbD_of_ge z (24 + i) (by omega)]

@[simp] theorem ipcmdSize_pack (q : BitVec 4) (z : Half) : ipcmdSize (packIpcmd q z) = z := by
  apply BitVec.eq_of_getLsbD_eq
  intro i hi
  have h2 : i < 32 := by omega
  have h3 : i < 24 := by omega
  simp [ipcmdSize, packIpcmd, hi, h2, h3]

end Sys2Proof
end

