-- ==== Sys2Proof/Laws/Memory.lean ====
section
/-! SUPPORT. The laws of the LUT's storage: a read after a write to the same offset gives what was written, a
write leaves every other offset alone, and every operation keeps the canonical form. -/

namespace Sys2Proof.Machine

@[simp] theorem Memory.read_write_same (m : List Host.Cell) (a : Nat) (v : Byte) :
    Memory.read (Memory.write m a v) a = some v := by
  induction m with
  | nil => simp [Memory.write, Memory.read]
  | cons c rest ih =>
    obtain ⟨b, w⟩ := c
    unfold Memory.write
    split
    · simp [Memory.read]
    · split
      · simp [Memory.read]
      · next _ h => simp [Memory.read, Ne.symm h, ih]

theorem Memory.read_write_other (m : List Host.Cell) {a c : Nat} (v : Byte) (h : c ≠ a) :
    Memory.read (Memory.write m a v) c = Memory.read m c := by
  induction m with
  | nil => simp [Memory.write, Memory.read, h.symm]
  | cons e rest ih =>
    obtain ⟨b, w⟩ := e
    unfold Memory.write
    split
    · simp [Memory.read, h.symm]
    · split
      · next _ hab => subst hab; simp [Memory.read, h.symm]
      · simp [Memory.read, ih]

/-- A word written at an offset leaves every byte outside its four alone. -/
theorem Memory.read_writeWord_other (m : List Host.Cell) {a c : Nat} (w : Word) (h : c < a ∨ a + 4 ≤ c) :
    Memory.read (Memory.writeWord m a w) c = Memory.read m c := by
  unfold Memory.writeWord
  rw [Memory.read_write_other _ _ (by omega), Memory.read_write_other _ _ (by omega),
    Memory.read_write_other _ _ (by omega), Memory.read_write_other _ _ (by omega)]

/-- The four bytes of a word written at an offset, the least significant first. -/
theorem Memory.read_writeWord_bytes (m : List Host.Cell) (a : Nat) (w : Word) :
    Memory.read (Memory.writeWord m a w) a = some (w.extractLsb' 0 8) ∧
      Memory.read (Memory.writeWord m a w) (a + 1) = some (w.extractLsb' 8 8) ∧
      Memory.read (Memory.writeWord m a w) (a + 2) = some (w.extractLsb' 16 8) ∧
      Memory.read (Memory.writeWord m a w) (a + 3) = some (w.extractLsb' 24 8) := by
  unfold Memory.writeWord
  refine ⟨?_, ?_, ?_, by simp⟩
  · rw [Memory.read_write_other _ _ (by omega), Memory.read_write_other _ _ (by omega),
      Memory.read_write_other _ _ (by omega), Memory.read_write_same]
  · rw [Memory.read_write_other _ _ (by omega), Memory.read_write_other _ _ (by omega),
      Memory.read_write_same]
  · rw [Memory.read_write_other _ _ (by omega), Memory.read_write_same]

/-- Two adjacent fields are one. -/
theorem extract_append_extract {n : Nat} (w : BitVec n) (k a b : Nat) :
    w.extractLsb' (k + b) a ++ w.extractLsb' k b = w.extractLsb' k (a + b) := by
  apply BitVec.eq_of_getLsbD_eq
  intro i hi
  simp only [BitVec.getLsbD_append, BitVec.getLsbD_extractLsb', hi, decide_true, Bool.true_and]
  split
  · next h => simp [h]
  · next h => rw [decide_eq_true (by omega), Bool.true_and]; congr 1; omega

theorem bytes_of_word (w : Word) :
    (w.extractLsb' 24 8 ++ w.extractLsb' 16 8) ++ (w.extractLsb' 8 8 ++ w.extractLsb' 0 8) = w := by
  have h1 := extract_append_extract w 16 8 8
  have h0 := extract_append_extract w 0 8 8
  have h := extract_append_extract w 0 16 16
  simp only [Nat.zero_add] at h0 h
  rw [h1, h0, h]
  ext i hi
  simp

/-- A word reads back after it is written (10_state.md R43). -/
@[simp] theorem Memory.readWord_writeWord (m : List Host.Cell) (a : Nat) (w : Word) :
    Memory.readWord (Memory.writeWord m a w) a = some w := by
  obtain ⟨h0, h1, h2, h3⟩ := Memory.read_writeWord_bytes m a w
  have h3' : Memory.read (Memory.writeWord m a w) (a + 2 + 1) = some (w.extractLsb' 24 8) := h3
  simp only [Memory.readWord, Memory.readHalf, h0, h1, h2, h3']
  exact congrArg some (bytes_of_word w)

/-- A register that was written holds the value written (10_state.md R43). -/
theorem lutReg_of_lutWord {p : Params} {d : Device} {j : Nat} {w : Word} (h : d.lutWord p j = some w) :
    d.lutReg p j = w := by
  simp only [Device.lutWord, Memory.readWord, Memory.readHalf] at h
  simp only [Device.lutReg, Memory.value, show lutOff p j + 3 = lutOff p j + 2 + 1 from rfl]
  cases h0 : Memory.read d.mem (lutOff p j) <;> cases h1 : Memory.read d.mem (lutOff p j + 1) <;>
    cases h2 : Memory.read d.mem (lutOff p j + 2) <;> cases h3 : Memory.read d.mem (lutOff p j + 2 + 1) <;>
    simp_all

/-- A half-word of another register is left alone. -/
theorem Memory.readHalf_writeWord_other (m : List Host.Cell) {a c : Nat} (w : Word)
    (h : c + 2 ≤ a ∨ a + 4 ≤ c) :
    Memory.readHalf (Memory.writeWord m a w) c = Memory.readHalf m c := by
  unfold Memory.readHalf
  rw [Memory.read_writeWord_other m w (by omega), Memory.read_writeWord_other m w (by omega)]

/-- A word of another register is left alone. -/
theorem Memory.readWord_writeWord_other (m : List Host.Cell) {a c : Nat} (w : Word)
    (h : c + 4 ≤ a ∨ a + 4 ≤ c) :
    Memory.readWord (Memory.writeWord m a w) c = Memory.readWord m c := by
  unfold Memory.readWord
  rw [Memory.readHalf_writeWord_other m w (by omega), Memory.readHalf_writeWord_other m w (by omega)]

/-- Each half of a word written reads back: slot 0 below slot 1 (30_encoding.md R81). -/
theorem Memory.readHalf_writeWord (m : List Host.Cell) (a : Nat) (w : Word) :
    Memory.readHalf (Memory.writeWord m a w) a = some (slot0 w) ∧
      Memory.readHalf (Memory.writeWord m a w) (a + 2) = some (slot1 w) := by
  obtain ⟨h0, h1, h2, h3⟩ := Memory.read_writeWord_bytes m a w
  have h3' : Memory.read (Memory.writeWord m a w) (a + 2 + 1) = some (w.extractLsb' 24 8) := h3
  simp only [Memory.readHalf, h0, h1, h2, h3']
  exact ⟨congrArg some (extract_append_extract w 0 8 8), congrArg some (extract_append_extract w 16 8 8)⟩

/-! ### The canonical form -/

theorem Memory.wf_iff (m : List Host.Cell) :
    Memory.wf m = true ↔ (m.map Prod.fst).Pairwise (· < ·) ∧ ∀ c ∈ m, c.1 < windowBytes := by
  simp [Memory.wf, List.all_eq_true]

theorem Memory.mem_write {m : List Host.Cell} {a : Nat} {v : Byte} {c : Host.Cell}
    (h : c ∈ Memory.write m a v) : c = (a, v) ∨ c ∈ m := by
  induction m with
  | nil => simpa [Memory.write] using h
  | cons e rest ih =>
    obtain ⟨b, w⟩ := e
    unfold Memory.write at h
    split at h
    · simpa using h
    · split at h
      · rcases List.mem_cons.mp h with h | h <;> simp [h]
      · rcases List.mem_cons.mp h with h | h
        · simp [h]
        · rcases ih h with h | h <;> simp [h]

theorem Memory.wf_write {m : List Host.Cell} {a : Nat} {v : Byte} (h : Memory.wf m = true)
    (ha : a < windowBytes) : Memory.wf (Memory.write m a v) = true := by
  rw [Memory.wf_iff] at h ⊢
  refine ⟨?_, fun c hc => ?_⟩
  · induction m with
    | nil => simp [Memory.write]
    | cons e rest ih =>
      obtain ⟨b, w⟩ := e
      obtain ⟨hs, hb⟩ := h
      simp only [List.map_cons, List.pairwise_cons] at hs
      have hrest := ih ⟨hs.2, fun c hc => hb c (List.mem_cons_of_mem _ hc)⟩
      unfold Memory.write
      split
      · next hab =>
        simp only [List.map_cons, List.pairwise_cons]
        refine ⟨fun x hx => ?_, hs⟩
        rcases List.mem_cons.mp hx with rfl | hx
        · exact hab
        · exact Nat.lt_trans hab (hs.1 x hx)
      · split
        · next _ hab => subst hab; simpa using hs
        · next h1 h2 =>
          simp only [List.map_cons, List.pairwise_cons]
          refine ⟨fun x hx => ?_, hrest⟩
          obtain ⟨c, hc, rfl⟩ := List.mem_map.mp hx
          rcases Memory.mem_write hc with rfl | hc
          · show b < a
            omega
          · exact hs.1 _ (List.mem_map_of_mem hc)
  · rcases Memory.mem_write hc with rfl | hc
    · exact ha
    · exact h.2 c hc

theorem Memory.wf_writeWord {m : List Host.Cell} {a : Nat} {w : Word} (h : Memory.wf m = true)
    (ha : a + 4 ≤ windowBytes) : Memory.wf (Memory.writeWord m a w) = true := by
  unfold Memory.writeWord
  exact Memory.wf_write (Memory.wf_write (Memory.wf_write (Memory.wf_write h (by omega)) (by omega))
    (by omega)) (by omega)

theorem Memory.wf_nil : Memory.wf [] = true := rfl

/-- The LUT lies in the window of a valid configuration (R29, R34). -/
theorem lutOff_lt {p : Params} (h : p.valid = true) {j : Nat} (hj : j < lutWords) :
    lutOff p j + 4 ≤ windowBytes := by
  have : p.off.lut + 4 * lutWords ≤ windowBytes := by
    simp only [Params.valid, Offsets.valid, Bool.and_eq_true, decide_eq_true_eq] at h
    exact h.1.1.2.1.1.1.2.2
  unfold lutOff
  unfold lutWords at *
  omega

end Sys2Proof.Machine
end

