-- ==== Sys2Proof/Laws/State.lean ====
section
/-! SUPPORT. The small lemmas of State's updates: what each leaves unchanged, field by field, so that no proof
unfolds a record update; and `DevOnly`, what every operation of the device keeps. -/

namespace Sys2Proof.Machine

/-! ### mapDev, mapEng -/

section
variable (f : Device → Device) (g : Engine → Engine) (s : State)

@[simp] theorem mapDev_dev : (s.mapDev f).dev = f s.dev := rfl
@[simp] theorem mapDev_cfg : (s.mapDev f).cfg = s.cfg := rfl
@[simp] theorem mapDev_eng : (s.mapDev f).eng = s.eng := rfl
@[simp] theorem mapDev_port : (s.mapDev f).port = s.port := rfl
@[simp] theorem mapDev_responses : (s.mapDev f).responses = s.responses := rfl
@[simp] theorem mapDev_foreign : (s.mapDev f).foreign = s.foreign := rfl
@[simp] theorem mapDev_schedule : (s.mapDev f).schedule = s.schedule := rfl
@[simp] theorem mapDev_answers : (s.mapDev f).answers = s.answers := rfl
@[simp] theorem mapDev_drawn : (s.mapDev f).drawn = s.drawn := rfl

@[simp] theorem mapEng_eng : (s.mapEng g).eng = g s.eng := rfl
@[simp] theorem mapEng_cfg : (s.mapEng g).cfg = s.cfg := rfl
@[simp] theorem mapEng_dev : (s.mapEng g).dev = s.dev := rfl
@[simp] theorem mapEng_port : (s.mapEng g).port = s.port := rfl
@[simp] theorem mapEng_responses : (s.mapEng g).responses = s.responses := rfl
@[simp] theorem mapEng_foreign : (s.mapEng g).foreign = s.foreign := rfl
@[simp] theorem mapEng_schedule : (s.mapEng g).schedule = s.schedule := rfl
@[simp] theorem mapEng_answers : (s.mapEng g).answers = s.answers := rfl
@[simp] theorem mapEng_drawn : (s.mapEng g).drawn = s.drawn := rfl
end

/-! ### log, traceEv, setTask, queue, reply, begin, finish -/

section
variable (e : Event) (v : TraceEvent) (t : Task) (l : List Internal) (w : Requester) (r : Response) (s : State)

@[simp] theorem log_dev : (s.log e).dev = s.dev := rfl
@[simp] theorem log_cfg : (s.log e).cfg = s.cfg := rfl
@[simp] theorem log_port : (s.log e).port = s.port := rfl
@[simp] theorem log_responses : (s.log e).responses = s.responses := rfl
@[simp] theorem log_foreign : (s.log e).foreign = s.foreign := rfl
@[simp] theorem log_schedule : (s.log e).schedule = s.schedule := rfl
@[simp] theorem log_mode : (s.log e).eng.mode = s.eng.mode := rfl
@[simp] theorem log_owner : (s.log e).eng.owner = s.eng.owner := rfl
@[simp] theorem log_job : (s.log e).eng.job = s.eng.job := rfl
@[simp] theorem log_offer : (s.log e).eng.offer = s.eng.offer := rfl
@[simp] theorem log_hist : (s.log e).eng.hist = s.eng.hist ++ [e] := rfl
@[simp] theorem log_trace : (s.log e).eng.trace = s.eng.trace := rfl

@[simp] theorem traceEv_dev : (s.traceEv v).dev = s.dev := rfl
@[simp] theorem traceEv_cfg : (s.traceEv v).cfg = s.cfg := rfl
@[simp] theorem traceEv_port : (s.traceEv v).port = s.port := rfl
@[simp] theorem traceEv_responses : (s.traceEv v).responses = s.responses := rfl
@[simp] theorem traceEv_foreign : (s.traceEv v).foreign = s.foreign := rfl
@[simp] theorem traceEv_schedule : (s.traceEv v).schedule = s.schedule := rfl
@[simp] theorem traceEv_mode : (s.traceEv v).eng.mode = s.eng.mode := rfl
@[simp] theorem traceEv_owner : (s.traceEv v).eng.owner = s.eng.owner := rfl
@[simp] theorem traceEv_job : (s.traceEv v).eng.job = s.eng.job := rfl
@[simp] theorem traceEv_offer : (s.traceEv v).eng.offer = s.eng.offer := rfl
@[simp] theorem traceEv_hist : (s.traceEv v).eng.hist = s.eng.hist := rfl
@[simp] theorem traceEv_trace : (s.traceEv v).eng.trace = s.eng.trace ++ [v] := rfl

@[simp] theorem setTask_dev : (s.setTask t).dev = s.dev := rfl
@[simp] theorem setTask_cfg : (s.setTask t).cfg = s.cfg := rfl
@[simp] theorem setTask_port : (s.setTask t).port = s.port := rfl
@[simp] theorem setTask_responses : (s.setTask t).responses = s.responses := rfl
@[simp] theorem setTask_foreign : (s.setTask t).foreign = s.foreign := rfl
@[simp] theorem setTask_schedule : (s.setTask t).schedule = s.schedule := rfl
@[simp] theorem setTask_mode : (s.setTask t).eng.mode = s.eng.mode := rfl
@[simp] theorem setTask_owner : (s.setTask t).eng.owner = s.eng.owner := rfl
@[simp] theorem setTask_offer : (s.setTask t).eng.offer = s.eng.offer := rfl
@[simp] theorem setTask_hist : (s.setTask t).eng.hist = s.eng.hist := rfl
@[simp] theorem setTask_trace : (s.setTask t).eng.trace = s.eng.trace := rfl
@[simp] theorem setTask_job : (s.setTask t).eng.job = s.eng.job.map (fun j => { j with task := t }) := rfl

@[simp] theorem queue_dev : (s.queue l).dev = s.dev := rfl
@[simp] theorem queue_cfg : (s.queue l).cfg = s.cfg := rfl
@[simp] theorem queue_port : (s.queue l).port = s.port := rfl
@[simp] theorem queue_responses : (s.queue l).responses = s.responses := rfl
@[simp] theorem queue_foreign : (s.queue l).foreign = s.foreign := rfl
@[simp] theorem queue_schedule : (s.queue l).schedule = s.schedule := rfl
@[simp] theorem queue_mode : (s.queue l).eng.mode = s.eng.mode := rfl
@[simp] theorem queue_owner : (s.queue l).eng.owner = s.eng.owner := rfl
@[simp] theorem queue_offer : (s.queue l).eng.offer = s.eng.offer := rfl
@[simp] theorem queue_hist : (s.queue l).eng.hist = s.eng.hist := rfl
@[simp] theorem queue_trace : (s.queue l).eng.trace = s.eng.trace := rfl
@[simp] theorem queue_job : (s.queue l).eng.job = s.eng.job.map (fun j => { j with todo := l }) := rfl

@[simp] theorem reply_dev : (s.reply w r).dev = s.dev := rfl
@[simp] theorem reply_cfg : (s.reply w r).cfg = s.cfg := rfl
@[simp] theorem reply_eng : (s.reply w r).eng = s.eng := rfl
@[simp] theorem reply_port : (s.reply w r).port = s.port := rfl
@[simp] theorem reply_foreign : (s.reply w r).foreign = s.foreign := rfl
@[simp] theorem reply_schedule : (s.reply w r).schedule = s.schedule := rfl
@[simp] theorem reply_responses : (s.reply w r).responses = s.responses ++ [(w, r)] := rfl

@[simp] theorem begin_dev : (s.begin t l).dev = s.dev := rfl
@[simp] theorem begin_cfg : (s.begin t l).cfg = s.cfg := rfl
@[simp] theorem begin_port : (s.begin t l).port = s.port := rfl
@[simp] theorem begin_responses : (s.begin t l).responses = s.responses := rfl
@[simp] theorem begin_foreign : (s.begin t l).foreign = s.foreign := rfl
@[simp] theorem begin_schedule : (s.begin t l).schedule = s.schedule := rfl
@[simp] theorem begin_mode : (s.begin t l).eng.mode = .active := rfl
@[simp] theorem begin_owner : (s.begin t l).eng.owner = s.eng.owner := rfl
@[simp] theorem begin_offer : (s.begin t l).eng.offer = s.eng.offer := rfl
@[simp] theorem begin_hist : (s.begin t l).eng.hist = s.eng.hist := rfl
@[simp] theorem begin_trace : (s.begin t l).eng.trace = s.eng.trace := rfl
@[simp] theorem begin_job :
    (s.begin t l).eng.job = some { sender := s.eng.offer, resume := s.eng.mode, task := t, todo := l } := rfl

/-- What `finish` does to a request in service, whole. -/
theorem finish_of_job {j : Service} (h : s.eng.job = some j) :
    s.finish r =
      { s with
        dev := if j.boots r then s.dev.afterInit s.cfg else s.dev
        eng := { s.eng with mode := if j.boots r then .idle else j.resume, job := none }
        responses := s.responses ++ [(j.sender, r)] } := by
  simp only [State.finish, h]
  split <;> rfl

@[simp] theorem finish_cfg : (s.finish r).cfg = s.cfg := by
  cases h : s.eng.job with
  | none => simp [State.finish, h]
  | some j => rw [finish_of_job _ _ h]
@[simp] theorem finish_port : (s.finish r).port = s.port := by
  cases h : s.eng.job with
  | none => simp [State.finish, h]
  | some j => rw [finish_of_job _ _ h]
@[simp] theorem finish_foreign : (s.finish r).foreign = s.foreign := by
  cases h : s.eng.job with
  | none => simp [State.finish, h]
  | some j => rw [finish_of_job _ _ h]
@[simp] theorem finish_schedule : (s.finish r).schedule = s.schedule := by
  cases h : s.eng.job with
  | none => simp [State.finish, h]
  | some j => rw [finish_of_job _ _ h]
@[simp] theorem finish_owner : (s.finish r).eng.owner = s.eng.owner := by
  cases h : s.eng.job with
  | none => simp [State.finish, h]
  | some j => rw [finish_of_job _ _ h]
@[simp] theorem finish_offer : (s.finish r).eng.offer = s.eng.offer := by
  cases h : s.eng.job with
  | none => simp [State.finish, h]
  | some j => rw [finish_of_job _ _ h]
@[simp] theorem finish_hist : (s.finish r).eng.hist = s.eng.hist := by
  cases h : s.eng.job with
  | none => simp [State.finish, h]
  | some j => rw [finish_of_job _ _ h]
@[simp] theorem finish_trace : (s.finish r).eng.trace = s.eng.trace := by
  cases h : s.eng.job with
  | none => simp [State.finish, h]
  | some j => rw [finish_of_job _ _ h]
@[simp] theorem finish_job : (s.finish r).eng.job = none := by
  cases h : s.eng.job with
  | none => simp [State.finish, h]
  | some j => rw [finish_of_job _ _ h]

theorem raise_eq (k : ErrorKind) : s.raise k = s.queue [.respond (.err k)] := rfl

/-- An error ends no INIT with `Ok`. -/
@[simp] theorem boots_err (j : Service) (k : ErrorKind) : j.boots (.err k) = false := by
  unfold Service.boots; split <;> simp_all

/-! ### serve -/

variable (f : State → State)

/-- With no internal action left, the request in service makes its next access. -/
theorem serve_access {j : Service} (h : s.eng.job = some j) (ht : j.todo = []) : s.serve f = f s := by
  simp [State.serve, h, ht]

theorem serve_trace {j : Service} {ev : TraceEvent} {rest : List Internal} (h : s.eng.job = some j)
    (ht : j.todo = .trace ev :: rest) : s.serve f = (s.traceEv ev).queue rest := by
  simp [State.serve, h, ht]

theorem serve_respond {j : Service} {r : Response} {rest : List Internal} (h : s.eng.job = some j)
    (ht : j.todo = .respond r :: rest) : s.serve f = s.finish r := by
  simp [State.serve, h, ht]
end

/-! ### What the operations of the device keep -/

/-- `t` differs from `s` at most in the device and in what the free values draw from. -/
structure DevOnly (s t : State) : Prop where
  cfg : t.cfg = s.cfg
  eng : t.eng = s.eng
  port : t.port = s.port
  responses : t.responses = s.responses
  foreign : t.foreign = s.foreign
  schedule : t.schedule = s.schedule

namespace DevOnly

theorem refl (s : State) : DevOnly s s := ⟨rfl, rfl, rfl, rfl, rfl, rfl⟩

theorem trans {s t u : State} (h : DevOnly s t) (k : DevOnly t u) : DevOnly s u :=
  ⟨k.cfg.trans h.cfg, k.eng.trans h.eng, k.port.trans h.port, k.responses.trans h.responses,
    k.foreign.trans h.foreign, k.schedule.trans h.schedule⟩

theorem mapDev (f : Device → Device) (s : State) : DevOnly s (s.mapDev f) := ⟨rfl, rfl, rfl, rfl, rfl, rfl⟩

theorem thenMap {s t : State} (h : DevOnly s t) (f : Device → Device) : DevOnly s (t.mapDev f) :=
  h.trans (mapDev f t)

theorem ite {s t u : State} {c : Prop} [Decidable c] (h : DevOnly s t) (k : DevOnly s u) :
    DevOnly s (if c then t else u) := by split <;> assumption

end DevOnly

/-- A draw changes only what the free values draw from. -/
structure DrawOnly (s t : State) : Prop extends DevOnly s t where
  dev : t.dev = s.dev

theorem draw_drawOnly (s : State) : DrawOnly s s.draw.2 := by
  unfold State.draw; split <;> exact ⟨⟨rfl, rfl, rfl, rfl, rfl, rfl⟩, rfl⟩

theorem drawWords_drawOnly (n : Nat) (s : State) : DrawOnly s (State.drawWords n s).2 := by
  induction n generalizing s with
  | zero => exact ⟨DevOnly.refl s, rfl⟩
  | succ n ih =>
    have h := draw_drawOnly s
    have k := ih s.draw.2
    exact ⟨h.toDevOnly.trans k.toDevOnly, k.dev.trans h.dev⟩

@[simp] theorem drawWords_length (n : Nat) (s : State) : (State.drawWords n s).1.length = n := by
  induction n generalizing s with
  | zero => rfl
  | succ n ih => simp [State.drawWords, ih]

@[simp] theorem draw_dev (s : State) : s.draw.2.dev = s.dev := (draw_drawOnly s).dev
@[simp] theorem draw_cfg (s : State) : s.draw.2.cfg = s.cfg := (draw_drawOnly s).cfg
@[simp] theorem draw_eng (s : State) : s.draw.2.eng = s.eng := (draw_drawOnly s).eng
@[simp] theorem draw_port (s : State) : s.draw.2.port = s.port := (draw_drawOnly s).port
@[simp] theorem draw_responses (s : State) : s.draw.2.responses = s.responses := (draw_drawOnly s).responses
@[simp] theorem draw_foreign (s : State) : s.draw.2.foreign = s.foreign := (draw_drawOnly s).foreign
@[simp] theorem draw_schedule (s : State) : s.draw.2.schedule = s.schedule := (draw_drawOnly s).schedule

@[simp] theorem drawWords_dev (n : Nat) (s : State) : (State.drawWords n s).2.dev = s.dev :=
  (drawWords_drawOnly n s).dev
@[simp] theorem drawWords_cfg (n : Nat) (s : State) : (State.drawWords n s).2.cfg = s.cfg :=
  (drawWords_drawOnly n s).cfg

theorem takeTurn_keeps (s : State) :
    s.takeTurn.2.cfg = s.cfg ∧ s.takeTurn.2.eng = s.eng ∧ s.takeTurn.2.dev = s.dev ∧
      s.takeTurn.2.port = s.port ∧ s.takeTurn.2.responses = s.responses ∧
      s.takeTurn.2.foreign = s.foreign := by
  unfold State.takeTurn; split <;> exact ⟨rfl, rfl, rfl, rfl, rfl, rfl⟩

@[simp] theorem takeTurn_cfg (s : State) : s.takeTurn.2.cfg = s.cfg := (takeTurn_keeps s).1
@[simp] theorem takeTurn_eng (s : State) : s.takeTurn.2.eng = s.eng := (takeTurn_keeps s).2.1
@[simp] theorem takeTurn_dev (s : State) : s.takeTurn.2.dev = s.dev := (takeTurn_keeps s).2.2.1
@[simp] theorem takeTurn_port (s : State) : s.takeTurn.2.port = s.port := (takeTurn_keeps s).2.2.2.1
@[simp] theorem takeTurn_responses (s : State) : s.takeTurn.2.responses = s.responses :=
  (takeTurn_keeps s).2.2.2.2.1
@[simp] theorem takeTurn_foreign (s : State) : s.takeTurn.2.foreign = s.foreign :=
  (takeTurn_keeps s).2.2.2.2.2

end Sys2Proof.Machine
end

