-- ==== Sys2Proof/Laws/Device.lean ====
section
/-! SUPPORT. What every operation of the device keeps, once per operation: everything outside the device, a sound
device (canonical LUT storage, cursor in its sequence, buffers within their capacity), the clock, and the end of
the contract once it has ended. -/

namespace Sys2Proof.Machine

/-- A sound device: what MemInv, CursorInv and BufferInv say of it. -/
structure DevSound (p : Params) (d : Device) : Prop where
  mem : Memory.wf d.mem = true
  cursor : d.seqPtr ≤ instrPerSeq
  rx : d.rxBuf.length ≤ p.rxCapacity
  tx : d.txBuf.length ≤ p.txCapacity

/-- `t` is `s` after operations of the device: only the device and the draws change, soundness is kept, the clock
stays as it is, and a contract that has ended stays ended. -/
structure Keeps (s t : State) : Prop extends DevOnly s t where
  sound : s.cfg.valid = true → DevSound s.cfg s.dev → DevSound s.cfg t.dev
  clock : t.dev.clockOn = s.dev.clockOn
  lawless : s.dev.lawless = true → t.dev.lawless = true

namespace Keeps

theorem refl (s : State) : Keeps s s := ⟨DevOnly.refl s, fun _ h => h, rfl, id⟩

theorem trans {s t u : State} (h : Keeps s t) (k : Keeps t u) : Keeps s u where
  toDevOnly := h.toDevOnly.trans k.toDevOnly
  sound := fun hv hd => by
    have := k.sound (by rw [h.cfg]; exact hv) (by rw [h.cfg]; exact h.sound hv hd)
    rwa [h.cfg] at this
  clock := k.clock.trans h.clock
  lawless := fun hl => k.lawless (h.lawless hl)

theorem ite {s t u : State} {c : Prop} [Decidable c] (h : c → Keeps s t) (k : ¬c → Keeps s u) :
    Keeps s (if c then t else u) := by
  split
  · exact h ‹_›
  · exact k ‹_›

theorem ofDraw {s t : State} (h : DrawOnly s t) : Keeps s t where
  toDevOnly := h.toDevOnly
  sound := fun _ hd => by rw [h.dev]; exact hd
  clock := by rw [h.dev]
  lawless := fun hl => by rw [h.dev]; exact hl

theorem draw (s : State) : Keeps s s.draw.2 := ofDraw (draw_drawOnly s)

/-- An update of the device that keeps it sound. -/
theorem map (s : State) (f : Device → Device)
    (hs : s.cfg.valid = true → DevSound s.cfg s.dev → DevSound s.cfg (f s.dev))
    (hc : (f s.dev).clockOn = s.dev.clockOn) (hl : s.dev.lawless = true → (f s.dev).lawless = true) :
    Keeps s (s.mapDev f) := ⟨DevOnly.mapDev f s, hs, hc, hl⟩

end Keeps

theorem setLawless_keeps (s : State) : Keeps s s.setLawless :=
  .map s _ (fun _ h => ⟨h.mem, h.cursor, h.rx, h.tx⟩) rfl (fun _ => rfl)

theorem raceIfFlying_keeps (s : State) : Keeps s s.raceIfFlying :=
  .ite (fun _ => setLawless_keeps s) (fun _ => .refl s)

theorem setWild_keeps (s : State) : Keeps s s.setWild :=
  .map s _ (fun _ h => ⟨h.mem, h.cursor, h.rx, h.tx⟩) rfl id

theorem drawRx_keeps (s : State) : Keeps s s.drawRx := by
  unfold State.drawRx
  refine ((Keeps.draw s).trans (.ofDraw (drawWords_drawOnly _ _))).trans (.map _ _ (fun _ h => ?_) rfl id)
  refine ⟨h.mem, h.cursor, ?_, h.tx⟩
  simp only [List.length_map, drawWords_length, drawWords_cfg, draw_cfg]
  exact Nat.le_of_lt_succ (Nat.mod_lt _ (Nat.succ_pos _))

theorem drawTx_keeps (s : State) : Keeps s s.drawTx := by
  unfold State.drawTx
  refine ((Keeps.draw s).trans (.ofDraw (drawWords_drawOnly _ _))).trans (.map _ _ (fun _ h => ?_) rfl id)
  refine ⟨h.mem, h.cursor, h.rx, ?_⟩
  simp only [drawWords_length, drawWords_cfg, draw_cfg]
  exact Nat.le_of_lt_succ (Nat.mod_lt _ (Nat.succ_pos _))

theorem disturbKey_keeps (s : State) : Keeps s s.disturbKey := by
  unfold State.disturbKey
  exact .ite (fun _ => (Keeps.draw s).trans
    (.map _ _ (fun _ h => ⟨h.mem, h.cursor, h.rx, h.tx⟩) rfl id)) (fun _ => .refl s)

theorem dropRx_keeps (s : State) : Keeps s s.dropRx :=
  .map s _ (fun _ h => ⟨h.mem, h.cursor, Nat.zero_le _, h.tx⟩) rfl id

theorem rxptrClear_keeps (s : State) : Keeps s s.rxptrClear := (raceIfFlying_keeps s).trans (dropRx_keeps _)

theorem rxPop_keeps (s : State) : Keeps s s.rxPop := by
  unfold State.rxPop
  refine .ite (fun _ => .map s _ (fun _ h => ⟨h.mem, h.cursor, ?_, h.tx⟩) rfl id) (fun _ => drawRx_keeps s)
  simp only [List.length_drop]
  exact Nat.le_trans (Nat.sub_le _ _) h.rx

theorem drawDevice_keeps (s : State) : Keeps s s.drawDevice := by
  unfold State.drawDevice
  refine ((Keeps.trans (.ofDraw (drawWords_drawOnly 10 s)) (.map _ _ (fun _ h => ?_) rfl id)).trans
    (drawRx_keeps _)).trans (drawTx_keeps _)
  exact ⟨rfl, Nat.le_of_lt_succ (Nat.mod_lt _ (Nat.succ_pos _)), h.rx, h.tx⟩

theorem softReset_keeps (s : State) : Keeps s s.softReset := by
  unfold State.softReset
  exact ((drawDevice_keeps s).trans (.ofDraw (drawWords_drawOnly 2 _))).trans
    (.map _ _ (fun _ h => ⟨h.mem, h.cursor, h.rx, h.tx⟩) rfl id)

theorem writeCtrl_keeps (v : Word) (s : State) : Keeps s (s.writeCtrl v) := by
  unfold State.writeCtrl
  have h0 : Keeps s (if ctrlRaces s.cfg v then s.raceIfFlying else s) :=
    .ite (fun _ => raceIfFlying_keeps s) (fun _ => .refl s)
  have h1 := h0.trans (.map _ (fun d => { d with ctrl := v }) (fun _ h => ⟨h.mem, h.cursor, h.rx, h.tx⟩) rfl id)
  have h2 := h1.trans (Keeps.ite (c := (fieldSet (swrstMask s.cfg) v = true)) (fun _ => softReset_keeps _)
    (fun _ => .refl _))
  have h3 := h2.trans (Keeps.ite (c := (fieldSet s.cfg.mask.clrTxf v = true))
    (fun _ => .map _ (fun d => { d with txBuf := [] }) (fun _ h => ⟨h.mem, h.cursor, h.rx, Nat.zero_le _⟩) rfl id)
    (fun _ => .refl _))
  have h4 := h3.trans (Keeps.ite (c := (fieldSet s.cfg.mask.clrRxf v = true))
    (fun _ => .map _ (fun d => { d with rxBuf := [] }) (fun _ h => ⟨h.mem, h.cursor, Nat.zero_le _, h.tx⟩) rfl id)
    (fun _ => .refl _))
  exact h4.trans (Keeps.ite (c := (rxptrRole s.cfg = .ctrl ∧ fieldSet s.cfg.mask.rxptrClr v = true))
    (fun _ => dropRx_keeps _) (fun _ => .refl _))

theorem writeRxctl_keeps (v : Word) (s : State) : Keeps s (s.writeRxctl v) := by
  have h1 : Keeps s (s.mapDev (fun d => { d with rxctl := v })) :=
    .map s _ (fun _ h => ⟨h.mem, h.cursor, h.rx, h.tx⟩) rfl id
  exact .ite (fun _ => h1.trans (rxptrClear_keeps _)) (fun _ => h1)

theorem startFlight_keeps (w : Word) (b : Bool) (s : State) : Keeps s (s.startFlight w b) :=
  .map s _ (fun _ h => ⟨h.mem, h.cursor, h.rx, h.tx⟩) rfl id

theorem writeIpcmd_keeps (w : Word) (s : State) : Keeps s (s.writeIpcmd w) := by
  have h1 : Keeps s (s.mapDev (fun d => { d with ipcmd := w })) :=
    .map s _ (fun _ h => ⟨h.mem, h.cursor, h.rx, h.tx⟩) rfl id
  unfold State.writeIpcmd
  split
  · exact h1.trans (setLawless_keeps _)
  · exact h1.trans (.ite (fun _ => startFlight_keeps _ _ _)
      (fun _ => .ite (fun _ => (Keeps.draw _).trans (startFlight_keeps _ _ _)) (fun _ => .draw _)))

theorem writeLutkey_keeps (v : Word) (s : State) : Keeps s (s.writeLutkey v) := by
  unfold State.writeLutkey
  exact .ite (fun _ => .map s _ (fun _ h => ⟨h.mem, h.cursor, h.rx, h.tx⟩) rfl id)
    (fun _ => (Keeps.draw s).trans (.map _ _ (fun _ h => ⟨h.mem, h.cursor, h.rx, h.tx⟩) rfl id))

theorem writeLckcr_keeps (v : Word) (s : State) : Keeps s (s.writeLckcr v) := by
  unfold State.writeLckcr
  refine .ite (fun _ => .ite (fun _ => ?_) (fun _ => .ite (fun _ => ?_) (fun _ => ?_))) (fun _ => .refl s)
  · exact .map s _ (fun _ h => ⟨h.mem, h.cursor, h.rx, h.tx⟩) rfl id
  · exact .map s _ (fun _ h => ⟨h.mem, h.cursor, h.rx, h.tx⟩) rfl id
  · exact (Keeps.draw s).trans (.map _ _ (fun _ h => ⟨h.mem, h.cursor, h.rx, h.tx⟩) rfl id)

theorem writeLut_keeps (j : Fin 64) (v : Word) (s : State) : Keeps s (s.writeLut j v) := by
  unfold State.writeLut
  have h1 := raceIfFlying_keeps s
  refine .ite (fun _ => h1.trans (.map _ _ (fun hv h => ⟨?_, h.cursor, h.rx, h.tx⟩) rfl id)) (fun _ => h1)
  rw [h1.cfg] at hv
  exact Memory.wf_writeWord h.mem (lutOff_lt hv j.isLt)

theorem writeTxdata_keeps (v : Word) (s : State) : Keeps s (s.writeTxdata v) := by
  unfold State.writeTxdata
  have h1 := raceIfFlying_keeps s
  refine .ite (fun _ => h1.trans (setLawless_keeps _)) (fun hf => h1.trans (.map _ _ (fun _ h => ?_) rfl id))
  refine ⟨h.mem, h.cursor, h.rx, ?_⟩
  have htx : s.raceIfFlying.dev.txBuf = s.dev.txBuf := by unfold State.raceIfFlying; split <;> rfl
  simp only [Device.txfull, decide_eq_true_eq, Nat.not_le] at hf
  simp only [List.length_append, List.length_cons, List.length_nil, htx, h1.cfg]
  omega

theorem writeEffect_keeps (r : Role) (v : Word) (s : State) : Keeps s (s.writeEffect r v) := by
  cases r <;> simp only [State.writeEffect]
  case ctrl => exact writeCtrl_keeps v s
  case ipcmd => exact writeIpcmd_keeps v s
  case flshcfg => exact .map s _ (fun _ h => ⟨h.mem, h.cursor, h.rx, h.tx⟩) rfl id
  case bufdesc => exact .map s _ (fun _ h => ⟨h.mem, h.cursor, h.rx, h.tx⟩) rfl id
  case addr =>
    exact (raceIfFlying_keeps s).trans (.map _ _ (fun _ h => ⟨h.mem, h.cursor, h.rx, h.tx⟩) rfl id)
  case rxctl => exact writeRxctl_keeps v s
  case status => exact .refl s
  case flags => exact .ite (fun _ => rxPop_keeps s) (fun _ => .refl s)
  case txstat => exact .refl s
  case sptrclr =>
    exact .ite (fun _ => (raceIfFlying_keeps s).trans
      (.map _ _ (fun _ h => ⟨h.mem, Nat.zero_le _, h.rx, h.tx⟩) rfl id)) (fun _ => .refl s)
  case lutkey => exact writeLutkey_keeps v s
  case lckcr => exact writeLckcr_keeps v s
  case lut j => exact writeLut_keeps j v s
  case rxdata => exact .refl s
  case txdata => exact writeTxdata_keeps v s
  case rxptrClr => exact .ite (fun _ => rxptrClear_keeps s) (fun _ => .refl s)

theorem writeUnclocked_keeps (r : Role) (v : Word) (s : State) : Keeps s (s.writeUnclocked r v) := by
  unfold State.writeUnclocked
  exact .ite (fun _ => (Keeps.draw s).trans (writeEffect_keeps r v _)) (fun _ => .draw s)

/-- What INIT settles on the device keeps it sound. -/
theorem afterInit_sound {p : Params} {d : Device} (h : DevSound p d) : DevSound p (d.afterInit p) :=
  ⟨h.mem, h.cursor, Nat.zero_le _, Nat.zero_le _⟩

/-- A register write at the device. -/
theorem devWrite_keeps (r : Role) (v : Word) (s : State) : Keeps s (s.devWrite r v) := by
  unfold State.devWrite
  have h1 : Keeps s (if keepsKey r then s else s.disturbKey) :=
    .ite (fun _ => .refl s) (fun _ => disturbKey_keeps s)
  exact .ite (fun _ => h1.trans (writeEffect_keeps r v _)) (fun _ => h1.trans (writeUnclocked_keeps r v _))

/-- A register read at the device. -/
theorem devRead_keeps (r : Role) (s : State) : Keeps s (s.devRead r).2 := by
  unfold State.devRead
  exact Keeps.trans (.ite (fun _ => .refl s) (fun _ => disturbKey_keeps s)) (.draw _)

/-! ### The operations of a transaction -/

theorem complete_keeps (s : State) : Keeps s s.complete :=
  .map s _ (fun _ h => ⟨h.mem, h.cursor, h.rx, h.tx⟩) rfl id

theorem record_keeps (i : Instr) (s : State) : Keeps s (s.record i) :=
  .map s _ (fun _ h => ⟨h.mem, h.cursor, h.rx, h.tx⟩) rfl id

theorem advance_keeps (s : State) : Keeps s s.advance := by
  unfold State.advance
  exact .ite (fun hlt => .map s _ (fun _ h => ⟨h.mem, Nat.le_of_lt hlt, h.rx, h.tx⟩) rfl id)
    (fun _ => (Keeps.map s _ (fun _ h => ⟨h.mem, Nat.le_refl _, h.rx, h.tx⟩) rfl id).trans (complete_keeps _))

theorem rxPush_keeps (b : Byte) (s : State) : Keeps s (s.rxPush b) := by
  unfold State.rxPush
  refine .ite (fun hlt => .map s _ (fun _ h => ⟨h.mem, h.cursor, ?_, h.tx⟩) rfl id)
    (fun _ => (drawRx_keeps s).trans (setWild_keeps _))
  simp only [List.length_append, List.length_cons, List.length_nil]
  omega

theorem txTake_keeps (s : State) : Keeps s s.txTake := by
  refine .map s _ (fun _ h => ⟨h.mem, h.cursor, h.rx, ?_⟩) rfl id
  simp only [List.length_tail]
  exact Nat.le_trans (Nat.sub_le _ _) h.tx

theorem wildStep_keeps (s : State) : Keeps s s.wildStep := by
  unfold State.wildStep
  have h1 : Keeps s (if s.draw.1.getLsbD 0 then s.draw.2.drawRx else s.draw.2) :=
    .ite (fun _ => (Keeps.draw s).trans (drawRx_keeps _)) (fun _ => .draw s)
  have h2 := h1.trans (Keeps.ite (c := (s.draw.1.getLsbD 1 = true)) (fun _ => txTake_keeps _) (fun _ => .refl _))
  have h3 := h2.trans (Keeps.ite (c := (s.draw.1.getLsbD 2 = true))
    (fun _ => .map _ (fun d => { d with seqPtr := (s.draw.1.extractLsb' 8 8).toNat % (instrPerSeq + 1) })
      (fun _ h => ⟨h.mem, Nat.le_of_lt_succ (Nat.mod_lt _ (Nat.succ_pos _)), h.rx, h.tx⟩) rfl id)
    (fun _ => .refl _))
  exact .ite (fun _ => h3.trans (complete_keeps _)) (fun _ => h3)

/-- The RX buffer is drawn within its capacity, and nothing else of the device changes. -/
theorem drawRx_dev (s : State) :
    ∃ l : List Byte, l.length ≤ s.cfg.rxCapacity ∧ s.drawRx.dev = { s.dev with rxBuf := l } := by
  refine ⟨(State.drawWords (s.draw.1.toNat % (s.cfg.rxCapacity + 1)) s.draw.2).1.map (fun w => w.setWidth 8), ?_,
    by simp only [State.drawRx, mapDev_dev, drawWords_dev, draw_dev]⟩
  simp only [List.length_map, drawWords_length]
  exact Nat.le_of_lt_succ (Nat.mod_lt _ (Nat.succ_pos _))

/-- All that a turn of a transaction without a constrained outcome can do to the device. -/
theorem wildStep_dev (s : State) :
    ∃ rx tx c g, s.wildStep.dev = { s.dev with rxBuf := rx, txBuf := tx, seqPtr := c, inFlight := g } ∧
      (rx = s.dev.rxBuf ∨ rx.length ≤ s.cfg.rxCapacity) ∧ (tx = s.dev.txBuf ∨ tx = s.dev.txBuf.tail) ∧
      (c = s.dev.seqPtr ∨ c ≤ 8) ∧ (g = none ∨ g = s.dev.inFlight) := by
  have hrx : ∃ rx : List Byte,
      (if s.draw.1.getLsbD 0 then s.draw.2.drawRx else s.draw.2).dev = { s.dev with rxBuf := rx } ∧
        (rx = s.dev.rxBuf ∨ rx.length ≤ s.cfg.rxCapacity) := by
    split
    · obtain ⟨l, hl, he⟩ := drawRx_dev s.draw.2
      exact ⟨l, by simpa only [draw_dev] using he, .inr (by simpa only [draw_cfg] using hl)⟩
    · exact ⟨_, draw_dev s, .inl rfl⟩
  obtain ⟨rx, he, hr⟩ := hrx
  refine ⟨rx, if s.draw.1.getLsbD 1 then s.dev.txBuf.tail else s.dev.txBuf,
    if s.draw.1.getLsbD 2 then (s.draw.1.extractLsb' 8 8).toNat % (instrPerSeq + 1) else s.dev.seqPtr,
    if s.draw.1.getLsbD 3 then none else s.dev.inFlight, ?_, hr, ?_, ?_, ?_⟩
  · unfold State.wildStep
    by_cases h1 : s.draw.1.getLsbD 1 = true <;> by_cases h2 : s.draw.1.getLsbD 2 = true <;>
      by_cases h3 : s.draw.1.getLsbD 3 = true <;>
      simp only [h1, h2, h3, if_true, Bool.false_eq_true, if_false, State.complete, State.txTake, mapDev_dev, he]
  · split <;> simp
  · split
    · exact .inr (Nat.le_of_lt_succ (Nat.mod_lt _ (Nat.succ_pos _)))
    · exact .inl rfl
  · split <;> simp

theorem runUnwritten_keeps (s : State) : Keeps s s.runUnwritten :=
  (setWild_keeps s).trans (setLawless_keeps _)

theorem phaseDone_keeps (i : Instr) (s : State) : Keeps s (phaseDone i s) :=
  (record_keeps i s).trans (advance_keeps _)

theorem phaseRead_keeps (i : Instr) (s : State) : Keeps s (phaseRead i s) := by
  unfold phaseRead
  have h1 : Keeps s (if s.draw.1.getLsbD 8 then s.draw.2.rxPush (s.draw.1.extractLsb' 0 8) else s.draw.2) :=
    .ite (fun _ => (Keeps.draw s).trans (rxPush_keeps _ _)) (fun _ => .draw s)
  exact .ite (fun _ => h1.trans (phaseDone_keeps i _)) (fun _ => h1)

theorem phaseWrite_keeps (i : Instr) (s : State) : Keeps s (phaseWrite i s) := by
  unfold phaseWrite
  have h1 : Keeps s (if s.draw.1.getLsbD 8 then s.draw.2.txTake else s.draw.2) :=
    .ite (fun _ => (Keeps.draw s).trans (txTake_keeps _)) (fun _ => .draw s)
  exact .ite (fun _ => h1.trans (phaseDone_keeps i _)) (fun _ => h1)

/-- A LUT instruction that answers a next state keeps everything outside the device, if its effect does. -/
theorem lutPhase_keeps {i : Instr} {pad : BitVec 2} {f : State → State} {s t : State}
    (hf : ∀ u, Keeps u (f u)) (h : lutPhase i pad f s = .next t) : Keeps s t := by
  unfold lutPhase at h
  split at h
  · cases h
  · split at h
    · cases h; exact hf s
    · cases h; exact (record_keeps i s).trans (setWild_keeps _)

/-! ### The engine's accesses -/

/-- What a register write of the engine leaves: one `Wr` in `hist`, and the device's effect. -/
theorem regWrite_spec (r : Role) (v : Word) (s : State) :
    Keeps s (s.devWrite r v) ∧ s.regWrite r v = (s.devWrite r v).log (.wr (offOf s.cfg r) v) :=
  ⟨devWrite_keeps r v s, rfl⟩

/-- What a register read of the engine leaves: one `Rd` in `hist`. -/
theorem regRead_spec (r : Role) (s : State) :
    Keeps s (s.devRead r).2 ∧
      s.regRead r = ((s.devRead r).1, (s.devRead r).2.log (.rd (offOf s.cfg r) (s.devRead r).1)) :=
  ⟨devRead_keeps r s, rfl⟩

end Sys2Proof.Machine
end

