-- ==== Sys2Proof/Laws/Engine.lean ====
section
/-! SUPPORT. What one engine step of a request in service can do, once: an access step makes at most one access, at
a register R30 gives the engine, and goes on with the same request (`AccessStep`); any other step is one internal
action: it traces one event, or gives the response, which ends the request (`ServeStep`). -/

namespace Sys2Proof.Machine

/-! ### Register accesses, field by field -/

section
variable (r : Role) (v : Word) (s : State)

@[simp] theorem devWrite_cfg : (s.devWrite r v).cfg = s.cfg := (devWrite_keeps r v s).cfg
@[simp] theorem devWrite_eng : (s.devWrite r v).eng = s.eng := (devWrite_keeps r v s).eng
@[simp] theorem devWrite_port : (s.devWrite r v).port = s.port := (devWrite_keeps r v s).port
@[simp] theorem devWrite_responses : (s.devWrite r v).responses = s.responses := (devWrite_keeps r v s).responses
@[simp] theorem devWrite_foreign : (s.devWrite r v).foreign = s.foreign := (devWrite_keeps r v s).foreign
@[simp] theorem devWrite_schedule : (s.devWrite r v).schedule = s.schedule := (devWrite_keeps r v s).schedule

@[simp] theorem devRead_cfg : (s.devRead r).2.cfg = s.cfg := (devRead_keeps r s).cfg
@[simp] theorem devRead_eng : (s.devRead r).2.eng = s.eng := (devRead_keeps r s).eng
@[simp] theorem devRead_port : (s.devRead r).2.port = s.port := (devRead_keeps r s).port
@[simp] theorem devRead_responses : (s.devRead r).2.responses = s.responses := (devRead_keeps r s).responses
@[simp] theorem devRead_foreign : (s.devRead r).2.foreign = s.foreign := (devRead_keeps r s).foreign
@[simp] theorem devRead_schedule : (s.devRead r).2.schedule = s.schedule := (devRead_keeps r s).schedule

@[simp] theorem regWrite_cfg : (s.regWrite r v).cfg = s.cfg := by simp [State.regWrite]
@[simp] theorem regWrite_dev : (s.regWrite r v).dev = (s.devWrite r v).dev := rfl
@[simp] theorem regWrite_port : (s.regWrite r v).port = s.port := by simp [State.regWrite]
@[simp] theorem regWrite_responses : (s.regWrite r v).responses = s.responses := by simp [State.regWrite]
@[simp] theorem regWrite_foreign : (s.regWrite r v).foreign = s.foreign := by simp [State.regWrite]
@[simp] theorem regWrite_schedule : (s.regWrite r v).schedule = s.schedule := by simp [State.regWrite]
@[simp] theorem regWrite_eng :
    (s.regWrite r v).eng = { s.eng with hist := s.eng.hist ++ [.wr (offOf s.cfg r) v] } := by
  simp [State.regWrite, State.log]

@[simp] theorem regRead_cfg : (s.regRead r).2.cfg = s.cfg := by simp [State.regRead]
@[simp] theorem regRead_dev : (s.regRead r).2.dev = (s.devRead r).2.dev := rfl
@[simp] theorem regRead_port : (s.regRead r).2.port = s.port := by simp [State.regRead]
@[simp] theorem regRead_responses : (s.regRead r).2.responses = s.responses := by simp [State.regRead]
@[simp] theorem regRead_foreign : (s.regRead r).2.foreign = s.foreign := by simp [State.regRead]
@[simp] theorem regRead_schedule : (s.regRead r).2.schedule = s.schedule := by simp [State.regRead]
@[simp] theorem regRead_eng :
    (s.regRead r).2.eng = { s.eng with hist := s.eng.hist ++ [.rd (offOf s.cfg r) (s.regRead r).1] } := by
  simp [State.regRead, State.log]
end

/-! ### At most one access -/

/-- `t` is `s` after at most one access of the engine. -/
structure Access (s t : State) : Prop where
  cfg : t.cfg = s.cfg
  port : t.port = s.port
  responses : t.responses = s.responses
  foreign : t.foreign = s.foreign
  schedule : t.schedule = s.schedule
  eng : ∃ l, l.length ≤ 1 ∧ (∀ e ∈ l, accessOk s.cfg e) ∧ t.eng = { s.eng with hist := s.eng.hist ++ l }
  sound : s.cfg.valid = true → DevSound s.cfg s.dev → DevSound s.cfg t.dev
  lawless : s.dev.lawless = true → t.dev.lawless = true
  clock : s.dev.clockOn = true → t.dev.clockOn = true

namespace Access

theorem ofKeeps {s t : State} (h : Keeps s t) : Access s t where
  cfg := h.cfg
  port := h.port
  responses := h.responses
  foreign := h.foreign
  schedule := h.schedule
  eng := ⟨[], by simp, by simp, by simp [h.eng]⟩
  sound := h.sound
  lawless := h.lawless
  clock := fun hc => by rw [h.clock]; exact hc

theorem write {r : Role} (hr : engineWrites r = true) (v : Word) (s : State) : Access s (s.regWrite r v) where
  cfg := by simp
  port := by simp
  responses := by simp
  foreign := by simp
  schedule := by simp
  eng := ⟨[.wr (offOf s.cfg r) v], by simp, by simpa [accessOk] using ⟨r, hr, rfl⟩, by simp⟩
  sound := (devWrite_keeps r v s).sound
  lawless := (devWrite_keeps r v s).lawless
  clock := fun hc => by rw [regWrite_dev, (devWrite_keeps r v s).clock]; exact hc

theorem read {r : Role} (hr : engineReads r = true) (s : State) : Access s (s.regRead r).2 where
  cfg := by simp
  port := by simp
  responses := by simp
  foreign := by simp
  schedule := by simp
  eng := ⟨[.rd (offOf s.cfg r) (s.regRead r).1], by simp, by simpa [accessOk] using ⟨r, hr, rfl⟩, by simp⟩
  sound := (devRead_keeps r s).sound
  lawless := (devRead_keeps r s).lawless
  clock := fun hc => by rw [regRead_dev, (devRead_keeps r s).clock]; exact hc

/-- An access followed by an update of the device that keeps it sound. -/
theorem thenKeeps {s t u : State} (h : Access s t) (k : Keeps t u) : Access s u where
  cfg := k.cfg.trans h.cfg
  port := k.port.trans h.port
  responses := k.responses.trans h.responses
  foreign := k.foreign.trans h.foreign
  schedule := k.schedule.trans h.schedule
  eng := by rw [k.eng]; exact h.eng
  sound := fun hv hd => by
    have := k.sound (by rw [h.cfg]; exact hv) (by rw [h.cfg]; exact h.sound hv hd)
    rwa [h.cfg] at this
  lawless := fun hl => k.lawless (h.lawless hl)
  clock := fun hc => by rw [k.clock]; exact h.clock hc

theorem job {s t : State} (h : Access s t) : t.eng.job = s.eng.job := by
  obtain ⟨_, _, _, he⟩ := h.eng; rw [he]

theorem mode {s t : State} (h : Access s t) : t.eng.mode = s.eng.mode := by
  obtain ⟨_, _, _, he⟩ := h.eng; rw [he]

end Access

theorem rmw_access {r : Role} (hr : engineReads r = true) (hw : engineWrites r = true) (f : Word → Word)
    (a : ActPos) (s : State) : Access s (s.rmw r f a).2 := by
  cases a
  · exact .read hr s
  · exact .write hw _ s

/-- `Act(F)` makes one access a step. -/
theorem act_access {F : Field} (hw : engineWrites F.role = true) (a : ActPos) (s : State) :
    Access s (s.act F a).2 := by
  unfold State.act
  split
  · next h =>
    refine rmw_access ?_ hw _ _ _
    revert h; cases F.role <;> simp [isRmw, engineReads]
  · exact .write hw _ s

theorem poll_access {r : Role} (hr : engineReads r = true) (ok : Word → Bool) (i : Nat) (s : State) :
    Access s (s.poll r ok i).2 := .read hr s

theorem rxptrRole_writes (p : Params) : engineWrites (rxptrRole p) = true := by
  unfold rxptrRole; split_ifs <;> rfl

/-! ### One step of a request in service -/

/-- `t` is `s` after an access step of the request `i` in service: at most one access; the request goes on, with no
response and no trace event. -/
structure AccessStep (i : Instr) (s t : State) : Prop where
  cfg : t.cfg = s.cfg
  port : t.port = s.port
  responses : t.responses = s.responses
  foreign : t.foreign = s.foreign
  schedule : t.schedule = s.schedule
  eng : ∃ (l : List Event) (f : Service → Service), l.length ≤ 1 ∧ (∀ e ∈ l, accessOk s.cfg e) ∧
    (∀ j, (f j).sender = j.sender ∧ (f j).resume = j.resume ∧ (taskInstr j.task = i → taskInstr (f j).task = i)) ∧
    t.eng = { s.eng with hist := s.eng.hist ++ l, job := s.eng.job.map f }
  sound : s.cfg.valid = true → DevSound s.cfg s.dev → DevSound s.cfg t.dev
  lawless : s.dev.lawless = true → t.dev.lawless = true
  clock : s.dev.clockOn = true → t.dev.clockOn = true

namespace AccessStep

/-- An access after which the request stands at `k`. -/
theorem goOn {i : Instr} {s t : State} (h : Access s t) {k : Task} (hk : taskInstr k = i) :
    AccessStep i s (t.setTask k) := by
  obtain ⟨l, hl, hok, he⟩ := h.eng
  exact ⟨h.cfg, h.port, h.responses, h.foreign, h.schedule,
    ⟨l, fun j => { j with task := k }, hl, hok, fun j => ⟨rfl, rfl, fun _ => hk⟩,
      by simp [State.setTask, State.mapEng, he]⟩, h.sound, h.lawless, h.clock⟩

/-- An access after which the request has the internal actions `td`. -/
theorem last {i : Instr} {s t : State} (h : Access s t) (td : List Internal) : AccessStep i s (t.queue td) := by
  obtain ⟨l, hl, hok, he⟩ := h.eng
  exact ⟨h.cfg, h.port, h.responses, h.foreign, h.schedule,
    ⟨l, fun j => { j with todo := td }, hl, hok, fun j => ⟨rfl, rfl, id⟩,
      by simp [State.queue, State.mapEng, he]⟩, h.sound, h.lawless, h.clock⟩

/-- Both. -/
theorem queued {i : Instr} {s t : State} (h : AccessStep i s t) (td : List Internal) : AccessStep i s (t.queue td) := by
  obtain ⟨l, f, hl, hok, hf, he⟩ := h.eng
  exact ⟨h.cfg, h.port, h.responses, h.foreign, h.schedule,
    ⟨l, fun j => { f j with todo := td }, hl, hok, fun j => hf j,
      by simp [State.queue, State.mapEng, he, Function.comp_def]⟩, h.sound, h.lawless, h.clock⟩

end AccessStep

/-- `t` is `s` after one engine step of the request `i` in service: an access step, or the first of its internal
actions. -/
structure ServeStep (i : Instr) (s t : State) : Prop where
  cfg : t.cfg = s.cfg
  port : t.port = s.port
  foreign : t.foreign = s.foreign
  schedule : t.schedule = s.schedule
  owner : t.eng.owner = s.eng.owner
  offer : t.eng.offer = s.eng.offer
  hist : ∃ l tr, l.length + tr.length ≤ 1 ∧ (∀ e ∈ l, accessOk s.cfg e) ∧ t.eng.hist = s.eng.hist ++ l ∧
    t.eng.trace = s.eng.trace ++ tr
  sound : s.cfg.valid = true → DevSound s.cfg s.dev → DevSound s.cfg t.dev
  lawless : s.dev.lawless = true → t.dev.lawless = true
  clock : s.dev.clockOn = true → t.dev.clockOn = true
  goes : ∀ j, s.eng.job = some j →
    (j.todo = [] ∧ AccessStep i s t) ∨
      (∃ ev rest, j.todo = .trace ev :: rest ∧ t = (s.traceEv ev).queue rest) ∨
      (∃ r rest, j.todo = .respond r :: rest ∧ t = s.finish r)

/-- One step of the request in service, from what its access steps do. -/
theorem serve_step {i : Instr} {s : State} {f : State → State} {j : Service} (hj : s.eng.job = some j)
    (h : AccessStep i s (f s)) : ServeStep i s (s.serve f) := by
  cases ht : j.todo with
  | nil =>
    rw [serve_access s f hj ht]
    obtain ⟨l, g, hl, hok, -, he⟩ := h.eng
    exact ⟨h.cfg, h.port, h.foreign, h.schedule, by rw [he], by rw [he],
      ⟨l, [], by simpa using hl, hok, by rw [he], by rw [he]; simp⟩, h.sound, h.lawless, h.clock,
      fun k hk => by rw [hj] at hk; cases hk; exact .inl ⟨ht, h⟩⟩
  | cons a rest =>
    cases a with
    | trace ev =>
      rw [serve_trace s f hj ht]
      exact ⟨rfl, rfl, rfl, rfl, rfl, rfl, ⟨[], [ev], by simp, by simp, by simp, by simp⟩, fun _ h => h, id, id,
        fun k hk => by rw [hj] at hk; cases hk; exact .inr (.inl ⟨ev, rest, ht, rfl⟩)⟩
    | respond r =>
      rw [serve_respond s f hj ht]
      refine ⟨by simp, by simp, by simp, by simp, by simp, by simp, ⟨[], [], by simp, by simp, by simp, by simp⟩, ?_, ?_,
        ?_, fun k hk => by rw [hj] at hk; cases hk; exact .inr (.inr ⟨r, rest, ht, rfl⟩)⟩ <;>
      · rw [finish_of_job r s hj]
        dsimp only
        split
        · first | exact fun _ h => afterInit_sound h | exact id
        · first | exact fun _ h => h | exact id

theorem writeSeqStep_access (index : BitVec 4) (words : Vector Word 4) (pos : WriteSeqPos) (s : State) :
    AccessStep (.writeSeq index words) s (writeSeqStep index words pos s) := by
  cases pos <;> simp only [writeSeqStep]
  case lock => exact .last (.write rfl _ s) _
  all_goals exact .goOn (.write rfl _ s) rfl

/-- One step of ISSUE's rule is at most one access. -/
theorem issueStep_access (seq : BitVec 4) (addr : Word) (size : Half) (pos : IssuePos) (s : State) :
    Access s (issueStep seq addr size pos s).2 := by
  cases pos <;> simp only [issueStep]
  case waitIdle i => split <;> exact poll_access (r := .status) rfl (busyClear s.cfg) i s
  case addr => exact .write rfl _ s
  case rxPtr a => split <;> exact act_access (rxptrRole_writes _) a s
  case seqPtr a => split <;> exact act_access rfl a s
  case command => exact .write rfl _ s
  case waitDone i => split <;> exact poll_access (r := .status) rfl (busyClear s.cfg) i s

theorem issueServe_access (seq : BitVec 4) (addr : Word) (size : Half) (pos : IssuePos) (s : State) :
    AccessStep (.issue seq addr size) s (issueServe seq addr size pos s) := by
  have h := issueStep_access seq addr size pos s
  unfold issueServe
  simp only
  split
  · exact AccessStep.queued (.goOn h (by rfl)) _
  · exact .last h _
  · exact .last h _

theorem drainStep_access (size : Word) (pos : DrainPos) (out : List Byte) (k : Nat) (s : State) :
    AccessStep (.drain size) s (drainStep size pos out k s) := by
  cases pos <;> simp only [drainStep]
  case wait i =>
    have h := poll_access (r := .status) rfl (fieldSet s.cfg.mask.rxwm) i s
    split
    · exact .goOn h rfl
    · exact .goOn h rfl
    · exact .last h _
  case read => exact .goOn (.read rfl s) rfl
  case pop a =>
    have h := act_access (F := fieldRxpop s.cfg) rfl a s
    split
    · exact .goOn h rfl
    · unfold drainPopped
      split
      · exact AccessStep.queued (.goOn h (by rfl)) _
      · exact .last h _

theorem fillStep_access (seq : BitVec 4) (addr : Word) (data : List Word) (pos : FillPos) (n lim : Nat)
    (s : State) : AccessStep (.fill seq addr data) s (fillStep seq addr data pos n lim s) := by
  cases pos <;> simp only [fillStep]
  case txne => exact .goOn (.read rfl s) rfl
  case clear a => split <;> exact .goOn (act_access rfl a s) rfl
  case addr => exact .goOn (.write rfl _ s) rfl
  case wait i =>
    split
    · exact .goOn (poll_access rfl _ _ s) rfl
    · exact .goOn (poll_access rfl _ _ s) rfl
    · exact .last (poll_access rfl _ _ s) _
  case word => exact .goOn (.write rfl _ s) rfl
  case issue q =>
    have h := issueStep_access seq addr (fillSize n) q s
    split
    · exact AccessStep.queued (.goOn h (by rfl)) _
    · exact .last h _
    · exact .last h _

theorem initRmw_access {r : Role} (hr : engineReads r = true) (hw : engineWrites r = true) (f : Word → Word)
    (a : ActPos) (stay : ActPos → InitPos) (nxt : InitPos) (s : State) :
    AccessStep .init s (initRmw r f a stay nxt s) := by
  have h := rmw_access hr hw f a s
  unfold initRmw initAt
  simp only
  split <;> exact .goOn h rfl

theorem initStep_access (pos : InitPos) (s : State) : AccessStep .init s (initStep pos s) := by
  have hd : Access s s.draw.2 := .ofKeeps (.draw s)
  cases pos <;> simp only [initStep]
  case map =>
    split
    · exact .goOn hd rfl
    · exact .last hd _
  case hold => exact .goOn (.ofKeeps (.refl s)) rfl
  case clock =>
    split
    · refine AccessStep.goOn (t := s.draw.2.mapDev (fun d => { d with clockOn := true })) ⟨hd.cfg, hd.port, hd.responses,
        hd.foreign, hd.schedule, hd.eng, fun _ h => ?_, ?_, fun _ => rfl⟩ rfl
      · exact ⟨by simpa using h.mem, by simpa using h.cursor, by simpa using h.rx, by simpa using h.tx⟩
      · simp
    · exact .last hd _
  case timing => exact .last (.write rfl _ s) _
  all_goals exact initRmw_access rfl rfl _ _ _ _ s

end Sys2Proof.Machine
end

