-- ==== Sys2Proof/Laws/Flags.lean ====
section
/-! SUPPORT. What a read answers: the status flags (10_state.md R38), the RX window (R35) and what the
contract leaves to the drawn word, once each. -/

namespace Sys2Proof.Machine

/-! ### One flag -/

theorem fieldSet_eq_false {m w : Word} : fieldSet m w = false ↔ w &&& m = 0#32 := by simp [fieldSet]

theorem fieldSet_eq_true {m w : Word} : fieldSet m w = true ↔ w &&& m ≠ 0#32 := by simp [fieldSet]

theorem and_not_and_self (m w : Word) : w &&& ~~~m &&& m = 0#32 := by ext i hi; simp

theorem or_and_self (m w : Word) : (w ||| m) &&& m = m := by
  ext i hi; simp; cases m[i] <;> simp

/-- A flag put reads back. -/
theorem fieldSet_putFlag {m : Word} (hm : m ≠ 0#32) (b : Bool) (w : Word) : fieldSet m (putFlag m b w) = b := by
  unfold putFlag
  cases b
  · simp only [Bool.false_eq_true, if_false]; exact fieldSet_eq_false.mpr (and_not_and_self m w)
  · simp only [if_true]
    split
    · rw [fieldSet_eq_true, or_and_self]; exact hm
    · exact fieldSet_eq_true.mpr ‹_›

theorem and_or_apart {m n : Word} (h : m &&& n = 0#32) (w : Word) : (w ||| n) &&& m = w &&& m := by
  ext i hi
  have := congrArg (fun v => v[i]) h
  simp at this ⊢
  cases hm : m[i] <;> simp_all

theorem and_not_and_apart {m n : Word} (h : m &&& n = 0#32) (w : Word) : w &&& ~~~n &&& m = w &&& m := by
  ext i hi
  have := congrArg (fun v => v[i]) h
  simp at this ⊢
  cases hm : m[i] <;> simp_all

/-- Putting a flag leaves another with bits of its own as it was. -/
theorem fieldSet_putFlag_apart {m n : Word} (h : m &&& n = 0#32) (b : Bool) (w : Word) :
    fieldSet m (putFlag n b w) = fieldSet m w := by
  unfold putFlag fieldSet
  cases b
  · simp only [Bool.false_eq_true, if_false, and_not_and_apart h]
  · simp only [if_true]
    split
    · rw [and_or_apart h]
    · rfl

/-- Setting a flag clears none. -/
theorem fieldSet_putFlag_true {m w : Word} (n : Word) (h : fieldSet m w = true) :
    fieldSet m (putFlag n true w) = true := by
  unfold putFlag
  simp only [if_true]
  split
  · rw [fieldSet_eq_true] at h ⊢
    intro hz
    apply h
    ext i hi
    have := congrArg (fun v => v[i]) hz
    simp at this ⊢
    cases hw : w[i] <;> simp_all
  · exact h

/-! ### The status register -/

theorem masks_ne {p : Params} (h : p.valid = true) :
    p.mask.busy ≠ 0#32 ∧ p.mask.rxwm ≠ 0#32 ∧ p.mask.txfull ≠ 0#32 ∧ p.mask.txne ≠ 0#32 ∧ p.mask.rxpop ≠ 0#32 ∧
      p.mask.rxptrClr ≠ 0#32 ∧ p.mask.seqptrClr ≠ 0#32 ∧ p.mask.clrTxf ≠ 0#32 ∧ p.mask.clrRxf ≠ 0#32 := by
  simp only [Params.valid, Masks.valid, Bool.and_eq_true, List.all_cons, decide_eq_true_eq] at h
  obtain ⟨⟨-, h⟩, -⟩ := h
  exact ⟨h.1, h.2.1, h.2.2.1, h.2.2.2.1, h.2.2.2.2.1, h.2.2.2.2.2.1, h.2.2.2.2.2.2.1, h.2.2.2.2.2.2.2.1,
    h.2.2.2.2.2.2.2.2.1⟩

/-- With flags that have bits of their own, each reads as the device stands (R45, R48, R50). -/
theorem statusAnswer_flags {p : Params} (hv : p.valid = true) (ha : StatusApart p) (d : Device) (w : Word) :
    fieldSet p.mask.busy (statusAnswer p d w) = d.busy ∧ fieldSet p.mask.rxwm (statusAnswer p d w) = d.rxwm ∧
      fieldSet p.mask.txfull (statusAnswer p d w) = d.txfull p := by
  obtain ⟨h1, h2, h3, -⟩ := masks_ne hv
  obtain ⟨a, b, c⟩ := ha
  have a' : p.mask.rxwm &&& p.mask.busy = 0#32 := by rw [BitVec.and_comm]; exact a
  have b' : p.mask.txfull &&& p.mask.busy = 0#32 := by rw [BitVec.and_comm]; exact b
  have c' : p.mask.txfull &&& p.mask.rxwm = 0#32 := by rw [BitVec.and_comm]; exact c
  unfold statusAnswer putFlags
  cases d.busy <;> cases d.rxwm <;> cases d.txfull p <;>
    simp [fieldSet_putFlag, fieldSet_putFlag_apart, *]

theorem foldl_putFlag_true {m : Word} (hm : m ≠ 0#32) (l : List (Word × Bool)) (w : Word)
    (h : fieldSet m w = true ∨ ∃ f ∈ l, f.1 = m) :
    fieldSet m (l.foldl (fun v f => putFlag f.1 true v) w) = true := by
  induction l generalizing w with
  | nil => simpa using h
  | cons f l ih =>
    refine ih _ ?_
    rcases h with h | ⟨g, hg, rfl⟩
    · exact .inl (fieldSet_putFlag_true _ h)
    · rcases List.mem_cons.mp hg with rfl | hg
      · exact .inl (fieldSet_putFlag hm _ _)
      · exact .inr ⟨g, hg, rfl⟩

/-- A set flag reads set, whatever bits the flags share. -/
theorem putFlags_set {m : Word} (hm : m ≠ 0#32) {fs : List (Word × Bool)} (h : (m, true) ∈ fs) (w : Word) :
    fieldSet m (putFlags fs w) = true :=
  foldl_putFlag_true hm _ _ (.inr ⟨(m, true), List.mem_filter.mpr ⟨h, rfl⟩, rfl⟩)

theorem statusAnswer_set {p : Params} (hv : p.valid = true) (d : Device) (w : Word) :
    (d.busy = true → fieldSet p.mask.busy (statusAnswer p d w) = true) ∧
      (d.rxwm = true → fieldSet p.mask.rxwm (statusAnswer p d w) = true) ∧
      (d.txfull p = true → fieldSet p.mask.txfull (statusAnswer p d w) = true) := by
  obtain ⟨h1, h2, h3, -⟩ := masks_ne hv
  unfold statusAnswer
  exact ⟨fun h => putFlags_set h1 (by simp [h]) w, fun h => putFlags_set h2 (by simp [h]) w,
    fun h => putFlags_set h3 (by simp [h]) w⟩

theorem txstatAnswer_flag {p : Params} (hv : p.valid = true) (d : Device) (w : Word) :
    fieldSet p.mask.txne (txstatAnswer p d w) = d.txne := fieldSet_putFlag (masks_ne hv).2.2.2.1 _ _

/-! ### The RX window -/

/-- The bytes of an RX word are the four it was made of, the oldest first (20_memory.md R62). -/
theorem rxBytes_rxWordOf (o : ByteOrder) (a b c d : Byte) : rxBytes o (rxWordOf o a b c d) = [a, b, c, d] := by
  cases o <;> simp only [rxBytes, rxWordOf, List.reverse_cons, List.reverse_nil, List.nil_append,
    List.cons_append, List.cons.injEq, and_true] <;>
  · refine ⟨?_, ?_, ?_, ?_⟩ <;>
    · apply BitVec.eq_of_getLsbD_eq
      intro i hi
      simp only [BitVec.getLsbD_extractLsb', BitVec.getLsbD_append, hi, decide_true, Bool.true_and]
      repeat' split
      all_goals first | omega | (congr 1; omega)

theorem rxBytes_length (o : ByteOrder) (w : Word) : (rxBytes o w).length = 4 := by cases o <;> rfl

/-- The window shows the four oldest bytes (R35). -/
theorem rxBytes_rxAnswer (p : Params) (d : Device) (w : Word) (h : 4 ≤ d.rxBuf.length) :
    rxBytes p.rxByteOrder (rxAnswer p d 0 w) = d.rxBuf.take 4 := by
  unfold rxAnswer
  simp only [rxBytes_rxWordOf, Nat.mul_zero, Nat.zero_add]
  match d.rxBuf, h with
  | a :: b :: c :: e :: l, _ => simp

/-! ### What a device under its contract answers -/

/-- A device whose clock is on and whose contract holds answers each register as the contract has it (R40 to R52). -/
theorem readAnswer_contract {s : State} (h : Contract s) (r : Role) (w : Word) :
    readAnswer s.cfg s.dev r w =
      match r with
      | .status => statusAnswer s.cfg s.dev w
      | .txstat => txstatAnswer s.cfg s.dev w
      | .rxdata m => rxAnswer s.cfg s.dev m w
      | _ => w := by
  simp only [readAnswer, h.1, h.2, Bool.not_true, Bool.or_self, Bool.false_eq_true, if_false]
  cases r <;> rfl

end Sys2Proof.Machine
end

