-- ==== Sys2Proof/Laws/Access.lean ====
section
/-! SUPPORT. One register access at the device, reduced once to its answer or its effect: `devRead_spec`,
`devWrite_spec`. -/

namespace Sys2Proof.Machine

theorem SameButDevice.refl (s : State) : SameButDevice s s := ⟨rfl, rfl, rfl, rfl, rfl, rfl⟩

theorem SameButDevice.trans {s t u : State} (h : SameButDevice s t) (k : SameButDevice t u) : SameButDevice s u := by
  obtain ⟨a, b, c, d, e, f⟩ := h
  obtain ⟨a', b', c', d', e', f'⟩ := k
  exact ⟨a'.trans a, b'.trans b, c'.trans c, d'.trans d, e'.trans e, f'.trans f⟩

theorem SameButDevice.of {s t : State} (h : DevOnly s t) : SameButDevice s t :=
  ⟨h.cfg, h.eng, h.port, h.responses, h.foreign, h.schedule⟩

theorem OnlyKey.refl (d : Device) : OnlyKey d d := ⟨⟨d.keyArmed, rfl⟩, fun _ => rfl⟩

theorem OnlyKey.trans {d e f : Device} (h : OnlyKey d e) (k : OnlyKey e f) : OnlyKey d f := by
  obtain ⟨⟨b, rfl⟩, hd⟩ := h
  obtain ⟨⟨c, rfl⟩, he⟩ := k
  refine ⟨⟨c, rfl⟩, fun hk => ?_⟩
  have hbd := hd hk
  rw [he (by rw [hbd]; exact hk), hbd]

/-- An update that keeps the key commutes with what may have happened to it. -/
theorem OnlyKey.map {d e : Device} (h : OnlyKey d e) (f : Device → Device)
    (hf : ∀ (x : Device) (b : Bool), f { x with keyArmed := b } = { f x with keyArmed := b })
    (hk : (f d).keyArmed = d.keyArmed) : OnlyKey (f d) (f e) := by
  obtain ⟨⟨b, rfl⟩, hd⟩ := h
  exact ⟨⟨b, hf d b⟩, fun h0 => by rw [hd (hk ▸ h0)]⟩

theorem disturbKey_spec (s : State) : SameButDevice s s.disturbKey ∧ OnlyKey s.dev s.disturbKey.dev := by
  refine ⟨.of (disturbKey_keeps s).toDevOnly, ?_⟩
  unfold State.disturbKey
  split
  · next h => exact ⟨⟨s.draw.1.getLsbD 0, by simp⟩, fun h0 => by rw [h0] at h; cases h⟩
  · exact .refl _

/-- The answer does not depend on the key. -/
theorem readAnswer_key (p : Params) {d e : Device} (h : OnlyKey d e) (r : Role) (w : Word) :
    readAnswer p e r w = readAnswer p d r w := by
  obtain ⟨⟨b, rfl⟩, -⟩ := h
  cases r <;> rfl

/-- What a read of a register does and answers. -/
theorem devRead_spec (r : Role) (s : State) :
    SameButDevice s (s.devRead r).2 ∧ OnlyKey s.dev (s.devRead r).2.dev ∧
      ∃ w, (s.devRead r).1 = readAnswer s.cfg s.dev r w := by
  have h : SameButDevice s (if keepsKey r then s else s.disturbKey) ∧
      OnlyKey s.dev (if keepsKey r then s else s.disturbKey).dev := by
    split
    · exact ⟨.refl s, .refl _⟩
    · exact disturbKey_spec s
  refine ⟨.of (devRead_keeps r s).toDevOnly, ?_, (if keepsKey r then s else s.disturbKey).draw.1, ?_⟩
  · unfold State.devRead
    simp only [draw_dev]
    exact h.2
  · unfold State.devRead
    simp only [draw_dev, draw_cfg]
    rw [readAnswer_key _ h.2, h.1.1]

/-- What a write does at a device whose clock is on: an armed key may be disturbed first (U6), then the effect. -/
theorem devWrite_spec {s : State} (hc : s.dev.clockOn = true) (r : Role) (v : Word) :
    ∃ u, SameButDevice s u ∧ OnlyKey s.dev u.dev ∧ (keepsKey r = true → u = s) ∧
      s.devWrite r v = u.writeEffect r v := by
  unfold State.devWrite
  by_cases hk : keepsKey r = true
  · exact ⟨s, .refl s, .refl _, fun _ => rfl, by simp [hk, hc]⟩
  · have h := disturbKey_spec s
    refine ⟨s.disturbKey, h.1, h.2, fun h0 => absurd h0 hk, ?_⟩
    obtain ⟨⟨b, hb⟩, -⟩ := h.2
    have : s.disturbKey.dev.clockOn = true := by rw [hb]; exact hc
    simp only [hk, Bool.false_eq_true, if_false, this, if_true]

theorem regWrite_eq (r : Role) (v : Word) (s : State) :
    s.regWrite r v = (s.devWrite r v).log (.wr (offOf s.cfg r) v) := rfl

/-- Nothing races with a device that runs no transaction. -/
theorem raceIfFlying_idle {s : State} (h : s.dev.inFlight = none) : s.raceIfFlying = s := by
  simp [State.raceIfFlying, h]

theorem raceIfFlying_lawless {s : State} {f : Flight} (h : s.dev.inFlight = some f) :
    s.raceIfFlying.dev.lawless = true := by simp [State.raceIfFlying, h, State.setLawless]

@[simp] theorem raceIfFlying_inFlight (s : State) : s.raceIfFlying.dev.inFlight = s.dev.inFlight := by
  unfold State.raceIfFlying; split <;> rfl

@[simp] theorem raceIfFlying_ctrl (s : State) : s.raceIfFlying.dev.ctrl = s.dev.ctrl := by
  unfold State.raceIfFlying; split <;> rfl
@[simp] theorem raceIfFlying_rxBuf (s : State) : s.raceIfFlying.dev.rxBuf = s.dev.rxBuf := by
  unfold State.raceIfFlying; split <;> rfl
@[simp] theorem raceIfFlying_txBuf (s : State) : s.raceIfFlying.dev.txBuf = s.dev.txBuf := by
  unfold State.raceIfFlying; split <;> rfl
@[simp] theorem raceIfFlying_mem (s : State) : s.raceIfFlying.dev.mem = s.dev.mem := by
  unfold State.raceIfFlying; split <;> rfl

@[simp] theorem dropRx_rxBuf (s : State) : s.dropRx.dev.rxBuf = [] := rfl
@[simp] theorem dropRx_rxPtr (s : State) : s.dropRx.dev.rxPtr = 0 := rfl
@[simp] theorem dropRx_txBuf (s : State) : s.dropRx.dev.txBuf = s.dev.txBuf := rfl
@[simp] theorem dropRx_ctrl (s : State) : s.dropRx.dev.ctrl = s.dev.ctrl := rfl
@[simp] theorem dropRx_inFlight (s : State) : s.dropRx.dev.inFlight = s.dev.inFlight := rfl

/-- Drawing the whole device ends its transaction. -/
@[simp] theorem drawDevice_inFlight (s : State) : s.drawDevice.dev.inFlight = none := by
  simp only [State.drawDevice, State.drawRx, State.drawTx, mapDev_dev, drawWords_dev, draw_dev]

/-- A `CTRL` write that is no race and resets nothing, whole. -/
theorem writeCtrl_plain {v : Word} {s : State} (hr : s.dev.inFlight = none ∨ ctrlRaces s.cfg v = false)
    (hs : fieldSet (swrstMask s.cfg) v = false) :
    (s.writeCtrl v).dev =
      { s.dev with
        ctrl := v
        txBuf := if fieldSet s.cfg.mask.clrTxf v then [] else s.dev.txBuf
        rxBuf :=
          if fieldSet s.cfg.mask.clrRxf v || (decide (rxptrRole s.cfg = .ctrl) && fieldSet s.cfg.mask.rxptrClr v) then []
          else s.dev.rxBuf
        rxPtr :=
          if decide (rxptrRole s.cfg = .ctrl) && fieldSet s.cfg.mask.rxptrClr v then 0 else s.dev.rxPtr } := by
  have h0 : (if ctrlRaces s.cfg v then s.raceIfFlying else s) = s := by
    rcases hr with hr | hr
    · rw [raceIfFlying_idle hr]; split <;> rfl
    · rw [hr]; rfl
  simp only [State.writeCtrl, h0, hs, Bool.false_eq_true, if_false]
  by_cases h1 : fieldSet s.cfg.mask.clrTxf v = true <;> by_cases h2 : fieldSet s.cfg.mask.clrRxf v = true <;>
    by_cases h3 : rxptrRole s.cfg = .ctrl <;> by_cases h4 : fieldSet s.cfg.mask.rxptrClr v = true <;>
    simp [h1, h2, h3, h4, State.dropRx]

/-- A race that a `CTRL` write makes ends the contract, whatever else it sets (R52). -/
theorem writeCtrl_race {v : Word} {s : State} {f : Flight} (hf : s.dev.inFlight = some f)
    (hr : ctrlRaces s.cfg v = true) : (s.writeCtrl v).dev.lawless = true := by
  have h0 : (if ctrlRaces s.cfg v then s.raceIfFlying else s).dev.lawless = true := by
    rw [if_pos hr]; exact raceIfFlying_lawless hf
  unfold State.writeCtrl
  generalize (if ctrlRaces s.cfg v then s.raceIfFlying else s) = u at h0
  have h2 : (if fieldSet (swrstMask s.cfg) v then (u.mapDev (fun d => { d with ctrl := v })).softReset
      else u.mapDev (fun d => { d with ctrl := v })).dev.lawless = true := by
    split
    · exact (softReset_keeps _).lawless h0
    · exact h0
  dsimp only
  split <;> split <;> split <;> exact h2

theorem fieldSet_self {m : Word} (h : m ≠ 0#32) : fieldSet m m = true := by simpa [fieldSet] using h

theorem fieldSet_or_self {m : Word} (v : Word) (h : m ≠ 0#32) : fieldSet m (v ||| m) = true := by
  rw [fieldSet_eq_true, or_and_self]; exact h

end Sys2Proof.Machine
end

