-- ==== Sys2Proof/Laws/Config.lean ====
section
/-! SUPPORT. What a valid configuration says of the window (10_state.md R29, R30; 20_memory.md R65), in the form
linear arithmetic uses. -/

namespace Sys2Proof.Machine

/-- The facts of `Offsets.valid`, as propositions. -/
structure WindowFacts (o : Offsets) : Prop where
  aligned : ∀ a ∈ o.singles, a % 4 = 0 ∧ a < 4096
  distinct : o.singles.Nodup
  clear : ∀ a ∈ o.singles, (a < o.lut ∨ o.lut + 256 ≤ a) ∧ a ≠ o.rxdata
  lutAligned : o.lut % 4 = 0
  lutEnd : o.lut + 256 ≤ 4096
  rxAligned : o.rxdata % 4 = 0
  rxEnd : o.rxdata < 4096
  rxClear : o.rxdata < o.lut ∨ o.lut + 256 ≤ o.rxdata
  rxptr : o.rxptrClr = o.ctrl ∨ o.rxptrClr = o.rxctl ∨
    (o.rxptrClr % 4 = 0 ∧ o.rxptrClr < 4096 ∧ (o.rxptrClr < o.lut ∨ o.lut + 256 ≤ o.rxptrClr) ∧
      o.rxptrClr ≠ o.rxdata ∧ o.rxptrClr ∉ o.singles)

theorem windowFacts {p : Params} (h : p.valid = true) : WindowFacts p.off := by
  have ho : p.off.valid = true := by
    simp only [Params.valid, Bool.and_eq_true] at h; exact h.1.1.2
  simp only [Offsets.valid, Bool.and_eq_true, List.all_eq_true, Offsets.aligned, Offsets.clear, Bool.or_eq_true,
    decide_eq_true_eq, Bool.not_eq_true', List.contains_eq_mem, decide_eq_false_iff_not] at ho
  obtain ⟨⟨⟨⟨⟨⟨h1, h2⟩, h3⟩, h4, h5⟩, h6, h7⟩, h8⟩, h9⟩ := ho
  refine ⟨h1, h2, h3, h4, h5, h6, h7, h8, ?_⟩
  rcases h9 with (h9 | h9) | ⟨⟨⟨a, b⟩, c, d⟩, e⟩
  · exact .inl h9
  · exact .inr (.inl h9)
  · exact .inr (.inr ⟨a, b, c, d, e⟩)

/-- The offsets of the single registers, pairwise. -/
theorem WindowFacts.spread {o : Offsets} (h : WindowFacts o) :
    [o.ctrl, o.ipcmd, o.flshcfg, o.bufdesc, o.addr, o.rxctl, o.status, o.flags, o.txstat, o.sptrclr, o.lutkey,
      o.lckcr, o.txdata].Nodup := h.distinct

end Sys2Proof.Machine
end

