-- ==== Sys2Proof/Laws/PerInstr.lean ====
section
/-! SUPPORT. What holds of every instruction as syntax, one lemma per constructor: the shape of its encoded form
(30_encoding.md R82, R86, R88). -/

namespace Sys2Proof.Laws.EncodedShape

/-- The pad and the operand of a LUT instruction. -/
def lutFields : Instr → Option (BitVec 2 × Byte)
  | .stop pad x | .cmd pad x | .addr pad x | .dummy pad x | .mode pad x | .mode2 pad x => some (pad, x)
  | .mode4 pad x | .read pad x | .write pad x | .jumpOnCs pad x | .addrDdr pad x => some (pad, x)
  | .modeDdr pad x | .mode2Ddr pad x | .mode4Ddr pad x | .readDdr pad x | .writeDdr pad x => some (pad, x)
  | .dataLearn pad x | .unassigned _ pad x => some (pad, x)
  | .encode _ _ | .decode _ | .writeSeq _ _ | .issue _ _ _ | .drain _ | .fill _ _ _ => none
  | .acquire _ | .release _ | .init | .ipcmd _ _ => none

/-- A LUT instruction has its pad in [9:8] and its operand in [7:0]; an IP-command word has 0 in every reserved bit;
a request has a tag in 0..8. And the form is a LUT instruction exactly for the LUT instructions. -/
def Statement (i : Instr) : Prop :=
  ∀ p : Params,
    match encode p i with
    | .luti16 h => lutFields i = some (lutPad h, lutOperand h)
    | .ipcmd32 w => lutFields i = none ∧ w &&& 0xF0FF0000#32 = 0#32
    | .req m => lutFields i = none ∧ m.tag ≤ 8

theorem lut (n : BitVec 6) (pad : BitVec 2) (x : Byte) :
    some (pad, x) = some (lutPad (packLut n pad x), lutOperand (packLut n pad x)) := by
  rw [lutPad_packLut, lutOperand_packLut]

theorem stop (pad : BitVec 2) (x : Byte) : Statement (.stop pad x) := fun _ => lut _ pad x
theorem cmd (pad : BitVec 2) (x : Byte) : Statement (.cmd pad x) := fun _ => lut _ pad x
theorem addr (pad : BitVec 2) (x : Byte) : Statement (.addr pad x) := fun _ => lut _ pad x
theorem dummy (pad : BitVec 2) (x : Byte) : Statement (.dummy pad x) := fun _ => lut _ pad x
theorem mode (pad : BitVec 2) (x : Byte) : Statement (.mode pad x) := fun _ => lut _ pad x
theorem mode2 (pad : BitVec 2) (x : Byte) : Statement (.mode2 pad x) := fun _ => lut _ pad x
theorem mode4 (pad : BitVec 2) (x : Byte) : Statement (.mode4 pad x) := fun _ => lut _ pad x
theorem read (pad : BitVec 2) (x : Byte) : Statement (.read pad x) := fun _ => lut _ pad x
theorem write (pad : BitVec 2) (x : Byte) : Statement (.write pad x) := fun _ => lut _ pad x
theorem jumpOnCs (pad : BitVec 2) (x : Byte) : Statement (.jumpOnCs pad x) := fun _ => lut _ pad x
theorem addrDdr (pad : BitVec 2) (x : Byte) : Statement (.addrDdr pad x) := fun _ => lut _ pad x
theorem modeDdr (pad : BitVec 2) (x : Byte) : Statement (.modeDdr pad x) := fun _ => lut _ pad x
theorem mode2Ddr (pad : BitVec 2) (x : Byte) : Statement (.mode2Ddr pad x) := fun _ => lut _ pad x
theorem mode4Ddr (pad : BitVec 2) (x : Byte) : Statement (.mode4Ddr pad x) := fun _ => lut _ pad x
theorem readDdr (pad : BitVec 2) (x : Byte) : Statement (.readDdr pad x) := fun _ => lut _ pad x
theorem writeDdr (pad : BitVec 2) (x : Byte) : Statement (.writeDdr pad x) := fun _ => lut _ pad x
theorem dataLearn (pad : BitVec 2) (x : Byte) : Statement (.dataLearn pad x) := fun _ => lut _ pad x
theorem unassigned (n : BitVec 6) (pad : BitVec 2) (x : Byte) : Statement (.unassigned n pad x) :=
  fun _ => lut n pad x
theorem encode (i0 i1 : Triple) : Statement (.encode i0 i1) := fun _ => ⟨rfl, Nat.le_of_ble_eq_true rfl⟩
theorem decode (w : Word) : Statement (.decode w) := fun _ => ⟨rfl, Nat.le_of_ble_eq_true rfl⟩
theorem writeSeq (index : BitVec 4) (words : Vector Word 4) : Statement (.writeSeq index words) :=
  fun _ => ⟨rfl, Nat.le_of_ble_eq_true rfl⟩
theorem issue (seq : BitVec 4) (addr : Word) (size : Half) : Statement (.issue seq addr size) :=
  fun _ => ⟨rfl, Nat.le_of_ble_eq_true rfl⟩
theorem drain (size : Word) : Statement (.drain size) := fun _ => ⟨rfl, Nat.le_of_ble_eq_true rfl⟩
theorem fill (seq : BitVec 4) (addr : Word) (data : List Word) : Statement (.fill seq addr data) :=
  fun _ => ⟨rfl, Nat.le_of_ble_eq_true rfl⟩
theorem acquire (who : Requester) : Statement (.acquire who) := fun _ => ⟨rfl, Nat.le_of_ble_eq_true rfl⟩
theorem release (who : Requester) : Statement (.release who) := fun _ => ⟨rfl, Nat.le_of_ble_eq_true rfl⟩
theorem init : Statement .init := fun _ => ⟨rfl, Nat.le_of_ble_eq_true rfl⟩

theorem ipcmd (seqid : BitVec 4) (datsz : Half) : Statement (.ipcmd seqid datsz) := by
  intro p
  refine ⟨rfl, ?_⟩
  show packIpcmd seqid datsz &&& 0xF0FF0000#32 = 0#32
  ext k hk
  unfold packIpcmd
  interval_cases k <;> simp

end Sys2Proof.Laws.EncodedShape
end

