-- ==== Sys2Proof/Laws/Step.lean ====
section
/-! SUPPORT. What exec and step can do, once: the cases of an instruction that answers a next state
(`exec_cases`), and of a step that does (`step_cases`). -/

namespace Sys2Proof.Machine

/-! ### exec -/

/-- The device's own instructions: the LUT instructions and the IP-command word. -/
def deviceInstr : Instr → Bool
  | .stop _ _ | .cmd _ _ | .addr _ _ | .dummy _ _ | .mode _ _ | .mode2 _ _ | .mode4 _ _ => true
  | .read _ _ | .write _ _ | .jumpOnCs _ _ | .addrDdr _ _ | .modeDdr _ _ | .mode2Ddr _ _ => true
  | .mode4Ddr _ _ | .readDdr _ _ | .writeDdr _ _ | .dataLearn _ _ | .unassigned _ _ _ | .ipcmd _ _ => true
  | .encode _ _ | .decode _ | .writeSeq _ _ | .issue _ _ _ | .drain _ | .fill _ _ _ => false
  | .acquire _ | .release _ | .init => false

/-- The task that a request accepted from the port starts as, if it is not served in one step. -/
def firstTask (p : Params) : Instr → Option Task
  | .writeSeq index words => some (.writeSeq index words .key1)
  | .issue seq addr size => some (.issue seq addr size (.waitIdle 1))
  | .drain size => some (.drain size (.wait 1) [] 0)
  | .fill seq addr data => some (.fill seq addr data .txne 0 (fillLimit p data))
  | .init => some (.init .map)
  | .encode _ _ | .decode _ | .acquire _ | .release _ | .ipcmd _ _ => none
  | .stop _ _ | .cmd _ _ | .addr _ _ | .dummy _ _ | .mode _ _ | .mode2 _ _ | .mode4 _ _ => none
  | .read _ _ | .write _ _ | .jumpOnCs _ _ | .addrDdr _ _ | .modeDdr _ _ | .mode2Ddr _ _ => none
  | .mode4Ddr _ _ | .readDdr _ _ | .writeDdr _ _ | .dataLearn _ _ | .unassigned _ _ _ => none

/-- The internal actions that a request accepted from the port has before any access: its response, for a DRAIN of no
bytes and a FILL of too few words. -/
def firstTodo : Instr → List Internal
  | .drain size => if size.toNat = 0 then [.respond (.ok (.bytes []))] else []
  | .fill _ _ data => if data.length < txMinWords then [.respond (.err .invalidSize)] else []
  | .writeSeq _ _ | .issue _ _ _ | .init | .encode _ _ | .decode _ | .acquire _ | .release _ | .ipcmd _ _ => []
  | .stop _ _ | .cmd _ _ | .addr _ _ | .dummy _ _ | .mode _ _ | .mode2 _ _ | .mode4 _ _ => []
  | .read _ _ | .write _ _ | .jumpOnCs _ _ | .addrDdr _ _ | .modeDdr _ _ | .mode2Ddr _ _ => []
  | .mode4Ddr _ _ | .readDdr _ _ | .writeDdr _ _ | .dataLearn _ _ | .unassigned _ _ _ => []

/-- `t` is `s` after a request offered at the port was accepted: nothing but the engine and the responses change,
and of the engine no history; either its task starts, or it has its response at once. -/
structure Accepted (i : Instr) (s t : State) : Prop where
  cfg : t.cfg = s.cfg
  dev : t.dev = s.dev
  port : t.port = s.port
  foreign : t.foreign = s.foreign
  schedule : t.schedule = s.schedule
  hist : t.eng.hist = s.eng.hist
  trace : t.eng.trace = s.eng.trace
  offer : t.eng.offer = s.eng.offer
  idle : s.eng.mode ≠ .active
  allowed : ownerAllows s.eng.owner s.eng.offer = true
  goes : (∃ k, firstTask s.cfg i = some k ∧ s.eng.job = none ∧ t.eng.mode = .active ∧
      t.eng.owner = s.eng.owner ∧ s.eng.mode = taskMode k ∧
      t.eng.job = some { sender := s.eng.offer, resume := s.eng.mode, task := k, todo := firstTodo i } ∧
      t.responses = s.responses) ∨
    (firstTask s.cfg i = none ∧ t.eng.mode = s.eng.mode ∧ t.eng.job = s.eng.job ∧
      (t.eng.owner = s.eng.owner ∨ s.eng.mode = .idle) ∧
      ∃ x, t.responses = s.responses ++ [(s.eng.offer, .ok x)])

theorem admission_accepted {n : Bool} {s : State} (h : s.admission n = .accepted) :
    s.eng.mode ≠ .active ∧ ownerAllows s.eng.owner s.eng.offer = true ∧ (n = true → s.eng.mode = .idle) := by
  unfold State.admission at h
  split at h
  · cases h
  · next h1 =>
    split at h
    · cases h
    · next h2 =>
      split at h
      · cases h
      · next h3 =>
        refine ⟨h1, ?_, fun hn => ?_⟩
        · unfold ownerAllows
          simp only [Bool.or_eq_true, decide_eq_true_eq]
          by_cases ho : s.eng.owner = none
          · exact .inl ho
          · exact .inr (by_contra fun hc => h2 ⟨ho, hc⟩)
        · cases hm : s.eng.mode
          · exact absurd ⟨hn, hm⟩ h3
          · rfl
          · exact absurd hm h1

/-- A request that becomes a task. -/
theorem accepted_begin {i : Instr} {s : State} {n : Bool} {k : Task} (h : s.admission n = .accepted)
    (hj : s.eng.job = none) (hk : firstTask s.cfg i = some k) (hm : s.eng.mode = taskMode k) :
    Accepted i s (s.begin k (firstTodo i)) := by
  obtain ⟨h1, h2, -⟩ := admission_accepted h
  exact ⟨rfl, rfl, rfl, rfl, rfl, rfl, rfl, rfl, h1, h2, .inl ⟨k, hk, hj, rfl, rfl, hm, rfl, rfl⟩⟩

/-- A request served in one step. -/
theorem accepted_now {i : Instr} {s : State} {n : Bool} {x : Result} (h : s.admission n = .accepted)
    (hi : firstTask s.cfg i = none) : Accepted i s (s.replyNow (.ok x)) := by
  obtain ⟨h1, h2, -⟩ := admission_accepted h
  exact ⟨rfl, rfl, rfl, rfl, rfl, rfl, rfl, rfl, h1, h2, .inr ⟨hi, rfl, rfl, .inl rfl, x, rfl⟩⟩

/-- What an instruction that answers a next state has done: nothing (it is held), an operation of the device, one
step of the request in service, or a request accepted from the port. -/
theorem exec_cases {i : Instr} {s t : State} (h : exec i s = .next t) :
    t = s ∨ (deviceInstr i = true ∧ Keeps s t) ∨
      (∃ j, s.eng.job = some j ∧ taskInstr j.task = i ∧ ServeStep i s t) ∨
      (deviceInstr i = false ∧ Accepted i s t) := by
  have hlut : ∀ {j : Instr} {pad : BitVec 2} {f : State → State}, (∀ u, Keeps u (f u)) → deviceInstr j = true →
      lutPhase j pad f s = .next t → t = s ∨ (deviceInstr j = true ∧ Keeps s t) ∨
        (∃ k, s.eng.job = some k ∧ taskInstr k.task = j ∧ ServeStep j s t) ∨
        (deviceInstr j = false ∧ Accepted j s t) :=
    fun hf hd hn => .inr (.inl ⟨hd, lutPhase_keeps hf hn⟩)
  cases i <;> simp only [exec] at h
  case stop pad operand =>
    unfold execStop at h
    split at h
    · cases h
    · cases h
      exact .inr (.inl ⟨rfl, (record_keeps _ s).trans ((Keeps.ite (fun _ => .refl _)
        (fun _ => drawDevice_keeps _)).trans (complete_keeps _))⟩)
  case unassigned n pad operand =>
    unfold execUnassigned at h
    split at h
    · cases h
    · cases h
      exact .inr (.inl ⟨rfl, ((record_keeps _ s).trans (setWild_keeps _)).trans (setLawless_keeps _)⟩)
  case jumpOnCs => exact hlut (fun u => (record_keeps _ u).trans (setWild_keeps _)) rfl h
  case read => exact hlut (phaseRead_keeps _) rfl h
  case readDdr => exact hlut (phaseRead_keeps _) rfl h
  case write => exact hlut (phaseWrite_keeps _) rfl h
  case writeDdr => exact hlut (phaseWrite_keeps _) rfl h
  case ipcmd =>
    cases h
    exact .inr (.inl ⟨rfl, devWrite_keeps _ _ _⟩)
  case encode i0 i1 =>
    unfold execEncode at h
    split at h
    · cases h; exact .inl rfl
    · cases h
    · next ha => cases h; exact .inr (.inr (.inr ⟨rfl, accepted_now ha rfl⟩))
  case decode w =>
    unfold execDecode at h
    split at h
    · cases h; exact .inl rfl
    · cases h
    · next ha => cases h; exact .inr (.inr (.inr ⟨rfl, accepted_now ha rfl⟩))
  case writeSeq index words =>
    unfold execWriteSeq at h
    split at h
    · next j hj =>
      split at h
      · next ix ws pos ht =>
        split at h
        · next hc =>
          cases h
          exact .inr (.inr (.inl ⟨j, hj, by simp [ht, taskInstr, hc], serve_step hj (writeSeqStep_access _ _ _ _)⟩))
        · cases h; exact .inl rfl
      all_goals cases h; exact .inl rfl
    · next hj =>
      split at h
      · cases h; exact .inl rfl
      · cases h
      · next ha =>
        cases h
        exact .inr (.inr (.inr ⟨rfl, accepted_begin ha hj rfl ((admission_accepted ha).2.2 rfl)⟩))
  case issue seq addr size =>
    unfold execIssue at h
    split at h
    · next j hj =>
      split at h
      · next sq ad sz pos ht =>
        split at h
        · next hc =>
          cases h
          exact .inr (.inr (.inl ⟨j, hj, by simp [ht, taskInstr, hc], serve_step hj (issueServe_access _ _ _ _ _)⟩))
        · cases h; exact .inl rfl
      all_goals cases h; exact .inl rfl
    · next hj =>
      split at h
      · cases h; exact .inl rfl
      · cases h
      · next ha =>
        cases h
        exact .inr (.inr (.inr ⟨rfl, accepted_begin ha hj rfl ((admission_accepted ha).2.2 rfl)⟩))
  case drain size =>
    unfold execDrain at h
    split at h
    · next j hj =>
      split at h
      · next sz pos out k ht =>
        split at h
        · next hc =>
          cases h
          exact .inr (.inr (.inl ⟨j, hj, by simp [ht, taskInstr, hc], serve_step hj (drainStep_access _ _ _ _ _)⟩))
        · cases h; exact .inl rfl
      all_goals cases h; exact .inl rfl
    · next hj =>
      split at h
      · cases h; exact .inl rfl
      · cases h
      · next ha =>
        cases h
        exact .inr (.inr (.inr ⟨rfl, accepted_begin ha hj rfl ((admission_accepted ha).2.2 rfl)⟩))
  case fill seq addr data =>
    unfold execFill at h
    split at h
    · next j hj =>
      split at h
      · next sq ad dt pos n lim ht =>
        split at h
        · next hc =>
          cases h
          exact .inr (.inr (.inl ⟨j, hj, by simp [ht, taskInstr, hc], serve_step hj (fillStep_access _ _ _ _ _ _ _)⟩))
        · cases h; exact .inl rfl
      all_goals cases h; exact .inl rfl
    · next hj =>
      split at h
      · cases h; exact .inl rfl
      · cases h
      · next ha =>
        cases h
        have hb := accepted_begin (i := .fill seq addr data) ha hj rfl ((admission_accepted ha).2.2 rfl)
        refine .inr (.inr (.inr ⟨rfl, ?_⟩))
        split
        · next hz => rw [firstTodo, if_pos hz] at hb; exact hb
        · next hz => rw [firstTodo, if_neg hz] at hb; exact hb
  case acquire who =>
    unfold execAcquire at h
    split at h
    · cases h; exact .inl rfl
    · cases h
    · next ha =>
      split at h
      · cases h
      · split at h
        · cases h
        · cases h
          obtain ⟨h1, h2, h3⟩ := admission_accepted ha
          exact .inr (.inr (.inr ⟨rfl, ⟨rfl, rfl, rfl, rfl, rfl, rfl, rfl, rfl, h1, h2,
            .inr ⟨rfl, rfl, rfl, .inr (h3 rfl), _, rfl⟩⟩⟩))
  case release who =>
    unfold execRelease at h
    split at h
    · cases h; exact .inl rfl
    · cases h
    · next ha =>
      split at h
      · cases h
        obtain ⟨h1, h2, h3⟩ := admission_accepted ha
        exact .inr (.inr (.inr ⟨rfl, ⟨rfl, rfl, rfl, rfl, rfl, rfl, rfl, rfl, h1, h2,
          .inr ⟨rfl, rfl, rfl, .inr (h3 rfl), _, rfl⟩⟩⟩))
      · cases h
  case init =>
    unfold execInit at h
    split at h
    · next j hj =>
      split at h
      · next pos ht =>
        cases h
        exact .inr (.inr (.inl ⟨j, hj, by simp [ht, taskInstr], serve_step hj (initStep_access _ _)⟩))
      all_goals cases h; exact .inl rfl
    · next hj =>
      split at h
      · cases h; exact .inl rfl
      · cases h
      · next ha =>
        split at h
        · next hm => cases h; exact .inr (.inr (.inr ⟨rfl, accepted_begin ha hj rfl hm⟩))
        · cases h
  all_goals exact hlut (phaseDone_keeps _) rfl h

/-! ### step -/

/-- A decoded request is none of the device's instructions. -/
theorem decodeRequest_not_device {m : Message} {i : Instr} (h : decodeRequest m = .ok i) :
    deviceInstr i = false := by
  unfold decodeRequest at h
  split at h
  case h_1 => unfold decodeEncode at h; split at h <;> [(split at h <;> cases h; rfl); cases h]
  case h_2 => unfold decodeDecode at h; split at h <;> [(split at h <;> cases h; rfl); cases h]
  case h_3 => unfold decodeWriteSeq at h; split at h <;> [(split at h <;> cases h; rfl); cases h]
  case h_4 =>
    unfold decodeIssue at h
    split at h <;> [(split at h <;> cases h; rfl); (split at h <;> cases h; rfl); cases h]
  case h_5 => unfold decodeDrain at h; split at h <;> [(split at h <;> cases h; rfl); cases h]
  case h_6 => unfold decodeFill at h; split at h <;> [(split at h <;> cases h; rfl); cases h]
  case h_7 => unfold decodeAcquire at h; split at h <;> cases h; rfl
  case h_8 => unfold decodeRelease at h; split at h <;> cases h; rfl
  case h_9 => unfold decodeInit at h; split at h <;> cases h; rfl
  case h_10 => cases h

theorem taskInstr_not_device (k : Task) : deviceInstr (taskInstr k) = false := by cases k <;> rfl

/-- What holds of both branches holds of a conditional. -/
theorem ite_of_both {α : Type} {P : α → Prop} {c : Prop} [Decidable c] {a b : α} (ha : P a) (hb : P b) :
    P (if c then a else b) := by split <;> assumption

theorem decodeLut_device (p : Params) (h : Half) : deviceInstr (decodeLut p h) = true := by
  unfold decodeLut
  repeat refine ite_of_both (P := fun i => deviceInstr i = true) rfl ?_
  rfl

theorem pick_drawOnly (s : State) : DrawOnly s s.pick.2 := by
  unfold State.pick
  split
  · exact ⟨DevOnly.refl s, rfl⟩
  · exact ⟨DevOnly.refl s, rfl⟩
  · exact draw_drawOnly s

/-- What a step that answers a next state has done, from the state `u` in which the turn is taken: nothing; an
operation of the device (its own turn, or the write of an agent outside the block); or a step of the engine, on the
request in service or on the one it took from the port. -/
theorem step_cases {s t : State} (h : step s = .next t) :
    ∃ u, u = s.takeTurn.2 ∧ s.cfg.valid = true ∧
      ((s.takeTurn.1 = .engine ∧ (
          (∃ j, u.eng.job = some j ∧ exec (taskInstr j.task) u = .next t) ∨
          (u.eng.job = none ∧ u.pick.1 = none ∧ t = u.pick.2) ∨
          (∃ m i, u.eng.job = none ∧ u.pick.1 = some m ∧ decodeRequest m.msg = .ok i ∧
            exec i (u.pick.2.take m) = .next t))) ∨
        (s.takeTurn.1 = .device ∧ Keeps u t) ∨
        (s.takeTurn.1 = .bus ∧ (t = u ∨
          ∃ w rest r v, u.foreign = w :: rest ∧ t = ({ u with foreign := rest } : State).devWrite r v))) := by
  refine ⟨_, rfl, ?_⟩
  unfold step fetch at h
  by_cases hv : s.cfg.valid = true
  · rw [if_pos hv] at h
    refine ⟨hv, ?_⟩
    revert h
    cases ht : s.takeTurn.1 <;> simp only [ht] <;> intro h
    case engine =>
      refine .inl ⟨trivial, ?_⟩
      unfold fetchEngine at h
      cases hj : s.takeTurn.2.eng.job with
      | some j =>
        simp only [hj] at h
        exact .inl ⟨j, rfl, h⟩
      | none =>
        simp only [hj] at h
        cases hp : s.takeTurn.2.pick.1 with
        | none =>
          simp only [hp] at h
          cases h
          exact .inr (.inl ⟨rfl, rfl, rfl⟩)
        | some m =>
          simp only [hp] at h
          cases hd : decodeRequest m.msg with
          | error e => simp only [hd] at h; cases h
          | ok i =>
            simp only [hd] at h
            exact .inr (.inr ⟨m, i, rfl, rfl, hd, h⟩)
    case device =>
      refine .inr (.inl ⟨trivial, ?_⟩)
      unfold fetchDevice at h
      cases hf : s.takeTurn.2.dev.inFlight with
      | none => simp only [hf] at h; cases h; exact .refl _
      | some f =>
        simp only [hf] at h
        split at h
        · next i u hu =>
          have hk : u = s.takeTurn.2 ∧ deviceInstr i = true := by
            split at hu
            · cases hu
            · split at hu
              · cases hu
              · split at hu
                · cases hu; exact ⟨rfl, decodeLut_device _ _⟩
                · cases hu
          obtain ⟨rfl, hi⟩ := hk
          rcases exec_cases h with rfl | ⟨-, hk⟩ | ⟨j, -, hj, -⟩ | ⟨hn, -⟩
          · exact .refl _
          · exact hk
          · rw [← hj, taskInstr_not_device] at hi; cases hi
          · rw [hi] at hn; cases hn
        · next o hu =>
          split at hu
          · cases hu; cases h; exact (setWild_keeps _).trans (wildStep_keeps _)
          · split at hu
            · cases hu; cases h; exact complete_keeps _
            · split at hu
              · cases hu
              · cases hu; cases h; exact runUnwritten_keeps _
    case bus =>
      refine .inr (.inr ⟨trivial, ?_⟩)
      unfold fetchBus at h
      cases hf : s.takeTurn.2.foreign with
      | nil => simp only [hf] at h; cases h; exact .inl rfl
      | cons w rest =>
        obtain ⟨off, v⟩ := w
        simp only [hf] at h
        refine .inr ⟨(off, v), rest, ?_⟩
        cases hr : roleAt s.takeTurn.2.cfg off with
        | none => simp only [hr] at h; cases h
        | some r =>
          simp only [hr] at h
          by_cases hro : readOnly r = true
          · simp only [hro, if_true] at h; cases h
          · simp only [hro, Bool.false_eq_true, if_false] at h
            by_cases hip : r = .ipcmd
            · simp only [hip, if_true] at h
              cases hd : decodeIpcmd v with
              | error e => simp only [hd] at h; cases h; exact ⟨.ipcmd, v, rfl, rfl⟩
              | ok i =>
                simp only [hd] at h
                unfold decodeIpcmd at hd
                split at hd
                · cases hd; cases h; exact ⟨.ipcmd, _, rfl, rfl⟩
                · cases hd
            · simp only [hip, if_false] at h
              cases h
              exact ⟨r, v, rfl, rfl⟩
  · rw [if_neg hv] at h
    cases h

end Sys2Proof.Machine
end

