-- ==== Sys2Proof/Laws/Serve.lean ====
section
/-! SUPPORT. exec on a request, once per request: what it does when the request is accepted (`exec_*_ready`) and when
it is in service (`exec_*_serve`); runs of exec; one poll of `STATUS`. -/

namespace Sys2Proof.Machine

/-! ### Runs -/

theorem execTimes_succ {i : Instr} {n : Nat} {s t : State} (h : exec i s = .next t) :
    execTimes i (n + 1) s = execTimes i n t := by simp [execTimes, h]

theorem execTimes_add {i : Instr} {m n : Nat} {s t : State} (h : execTimes i m s = .next t) :
    execTimes i (m + n) s = execTimes i n t := by
  induction m generalizing s with
  | zero => simp only [execTimes] at h; cases h; simp
  | succ m ih =>
    rw [Nat.add_right_comm]
    rw [execTimes] at h
    split at h
    · next u hu => rw [execTimes_succ hu]; exact ih h
    · next o ho => exact absurd h (ho t)

/-! ### ISSUE and FILL's inner ISSUE -/

/-- The two tasks with an inner ISSUE. -/
theorem issuePos_cases {k : Task} {q : IssuePos} (h : issuePos k = some q) :
    (∃ seq addr size, k = .issue seq addr size q) ∨
      ∃ seq addr data n lim, k = .fill seq addr data (.issue q) n lim := by
  cases k with
  | issue seq addr size pos => cases h; exact .inl ⟨_, _, _, rfl⟩
  | fill seq addr data pos n lim =>
    cases pos with
    | issue r => cases h; exact .inr ⟨_, _, _, _, _, rfl⟩
    | txne | clear | addr | wait | word => cases h
  | writeSeq | drain | init => cases h

@[simp] theorem taskInstr_setIssuePos (q : IssuePos) (k : Task) : taskInstr (setIssuePos q k) = taskInstr k := by
  cases k with
  | fill _ _ _ pos _ _ => cases pos <;> rfl
  | issue | writeSeq | drain | init => rfl

theorem issuePos_setIssuePos {k : Task} {q : IssuePos} (r : IssuePos) (h : issuePos k = some q) :
    issuePos (setIssuePos r k) = some r := by
  obtain ⟨_, _, _, rfl⟩ | ⟨_, _, _, _, _, rfl⟩ := issuePos_cases h <;> rfl

/-! ### Acceptance -/

/-- A state with no request in service from which a request that needs INIT is accepted. -/
theorem Ready.admission {s : State} (h : Ready s) (b : Bool) : s.admission b = .accepted := by
  obtain ⟨-, hm, ho⟩ := h
  unfold State.admission
  rw [if_neg (by simp [hm]), if_neg (by rintro ⟨h1, h2⟩; exact ho.elim h1 h2), if_neg (by simp [hm])]

section
variable {s : State} (h : Ready s)
include h

theorem exec_writeSeq_ready (index : BitVec 4) (words : Vector Word 4) :
    exec (.writeSeq index words) s = .next (s.begin (.writeSeq index words .key1) []) := by
  simp [exec, execWriteSeq, h.1, h.admission]

theorem exec_issue_ready (seq : BitVec 4) (addr : Word) (size : Half) :
    exec (.issue seq addr size) s = .next (s.begin (.issue seq addr size (.waitIdle 1)) []) := by
  simp [exec, execIssue, h.1, h.admission]

theorem exec_drain_ready (size : Word) :
    exec (.drain size) s =
      .next (s.begin (.drain size (.wait 1) [] 0) (if size.toNat = 0 then [.respond (.ok (.bytes []))] else [])) := by
  simp only [exec, execDrain, h.1, h.admission]

theorem exec_fill_ready (seq : BitVec 4) (addr : Word) (data : List Word) :
    exec (.fill seq addr data) s =
      .next (s.begin (.fill seq addr data .txne 0 (fillLimit s.cfg data))
        (if data.length < txMinWords then [.respond (.err .invalidSize)] else [])) := by
  simp only [exec, execFill, h.1, h.admission]
  split <;> rfl
end

/-! ### Service -/

section
variable {s : State} {j : Service} (h : s.eng.job = some j)
include h

theorem exec_writeSeq_serve {index : BitVec 4} {words : Vector Word 4} {pos : WriteSeqPos}
    (ht : j.task = .writeSeq index words pos) :
    exec (.writeSeq index words) s = .next (s.serve (writeSeqStep index words pos)) := by
  simp [exec, execWriteSeq, h, ht]

theorem exec_issue_serve {seq : BitVec 4} {addr : Word} {size : Half} {pos : IssuePos}
    (ht : j.task = .issue seq addr size pos) :
    exec (.issue seq addr size) s = .next (s.serve (issueServe seq addr size pos)) := by
  simp [exec, execIssue, h, ht]

theorem exec_drain_serve {size : Word} {pos : DrainPos} {out : List Byte} {k : Nat}
    (ht : j.task = .drain size pos out k) : 
    exec (.drain size) s = .next (s.serve (drainStep size pos out k)) := by
  simp [exec, execDrain, h, ht]

theorem exec_fill_serve {seq : BitVec 4} {addr : Word} {data : List Word} {pos : FillPos} {n lim : Nat}
    (ht : j.task = .fill seq addr data pos n lim) :
    exec (.fill seq addr data) s = .next (s.serve (fillStep seq addr data pos n lim)) := by
  simp [exec, execFill, h, ht]

theorem exec_init_serve {pos : InitPos} (ht : j.task = .init pos) : 
    exec .init s = .next (s.serve (initStep pos)) := by
  simp [exec, execInit, h, ht]

/-- The access step of a task. -/
def taskStep : Task → State → State
  | .writeSeq index words pos => writeSeqStep index words pos
  | .issue seq addr size pos => issueServe seq addr size pos
  | .drain size pos out k => drainStep size pos out k
  | .fill seq addr data pos n lim => fillStep seq addr data pos n lim
  | .init pos => initStep pos

/-- exec of the request in service, whichever it is, is one step of serving it. -/
theorem exec_serve : exec (taskInstr j.task) s = .next (s.serve (taskStep j.task)) := by
  cases hk : j.task with
  | writeSeq index words pos => exact exec_writeSeq_serve h hk
  | issue seq addr size pos => exact exec_issue_serve h hk
  | drain size pos out k => exact exec_drain_serve h hk
  | fill seq addr data pos n lim => exact exec_fill_serve h hk
  | init pos => exact exec_init_serve h hk

/-- With no internal action left, it makes its next access. -/
theorem exec_access (ht : j.todo = []) : exec (taskInstr j.task) s = .next (taskStep j.task s) := by
  rw [exec_serve h, serve_access s _ h ht]

/-- Its next internal action, a trace event. -/
theorem exec_trace {ev : TraceEvent} {rest : List Internal} (ht : j.todo = .trace ev :: rest) :
    exec (taskInstr j.task) s = .next ((s.traceEv ev).queue rest) := by
  rw [exec_serve h, serve_trace s _ h ht]

/-- Its response. -/
theorem exec_respond {r : Response} {rest : List Internal} (ht : j.todo = .respond r :: rest) :
    exec (taskInstr j.task) s =
      .next
        { s with
          dev := if j.boots r then s.dev.afterInit s.cfg else s.dev
          eng := { s.eng with mode := if j.boots r then .idle else j.resume, job := none }
          responses := s.responses ++ [(j.sender, r)] } := by
  rw [exec_serve h, serve_respond s _ h ht, finish_of_job r s h]
end

/-- What the access step of a task can do. -/
theorem taskStep_access (k : Task) (s : State) : AccessStep (taskInstr k) s (taskStep k s) := by
  cases k with
  | writeSeq index words pos => exact writeSeqStep_access _ _ _ _
  | issue seq addr size pos => exact issueServe_access _ _ _ _ _
  | drain size pos out k => exact drainStep_access _ _ _ _ _
  | fill seq addr data pos n lim => exact fillStep_access _ _ _ _ _ _ _
  | init pos => exact initStep_access _ _

/-! ### Reads of the device under its contract -/

/-- One register read of the engine: the engine gains it in `hist`, of the device only an armed key may change, and
the answer is the device's. -/
theorem regRead_full (r : Role) (s : State) :
    ∃ w, (s.regRead r).1 = readAnswer s.cfg s.dev r w ∧ OnlyKey s.dev (s.regRead r).2.dev ∧
      (s.regRead r).2.cfg = s.cfg ∧ (s.regRead r).2.port = s.port ∧ (s.regRead r).2.responses = s.responses ∧
      (s.regRead r).2.foreign = s.foreign ∧ (s.regRead r).2.schedule = s.schedule ∧
      (s.regRead r).2.eng = { s.eng with hist := s.eng.hist ++ [.rd (offOf s.cfg r) (s.regRead r).1] } := by
  obtain ⟨⟨h1, h2, h3, h4, h5, h6⟩, hk, w, hw⟩ := devRead_spec r s
  refine ⟨w, hw, hk, h1, h3, h4, h5, h6, ?_⟩
  simp only [State.regRead, State.log, State.mapEng, h2]

/-- With a transaction in flight and the contract in force, `BUSY` reads set (R45). -/
theorem busy_reads_set {s : State} (hv : s.cfg.valid = true) (hc : Contract s)
    (hf : s.dev.inFlight.isSome = true) : busyClear s.cfg (s.regRead .status).1 = false := by
  obtain ⟨w, hw, -⟩ := regRead_full .status s
  rw [hw, readAnswer_contract hc]
  simp only [busyClear]
  rw [(statusAnswer_set hv s.dev w).1 hf]; rfl

/-- With none in flight it reads clear, the flags' bits being apart. -/
theorem busy_reads_clear {s : State} (hv : s.cfg.valid = true) (hc : Contract s) (ha : StatusApart s.cfg)
    (hf : s.dev.inFlight = none) : busyClear s.cfg (s.regRead .status).1 = true := by
  obtain ⟨w, hw, -⟩ := regRead_full .status s
  rw [hw, readAnswer_contract hc]
  simp only [busyClear]
  rw [(statusAnswer_flags hv ha s.dev w).1]
  simp [Device.busy, hf]

end Sys2Proof.Machine
end

