-- ==== Sys2Proof/Tests/Slice0.lean ====
section
/-! SUPPORT. Tests: ill-formed instructions, words written out from the spec's encodings, single steps with results
from 95_test_vectors.md, and for each obligation that has hypotheses a witness that meets them (`test_witness_*`). -/

namespace Sys2Proof.Tests

open Sys2Proof.Machine

/-! ### Small states -/

/-- After INIT and a WRITE_SEQ: mode Idle, no owner, the clock on, the controller enabled, the LUT locked. -/
def idle : State :=
  { State.reset with
    eng := { Engine.reset with mode := .idle }
    dev := { Device.reset with clockOn := true, ctrl := 0x000F0000, lutLock := .locked } }

/-- A request of requester 0 in service. -/
def serving (t : Task) : State :=
  { idle with eng := { Engine.reset with mode := .active, job := some ⟨0, .idle, t, []⟩ } }

/-- A request of requester 0 that has these internal actions before its next access. -/
def acting (t : Task) (l : List Internal) : State :=
  { idle with eng := { Engine.reset with mode := .active, job := some ⟨0, .idle, t, l⟩ } }

/-- INIT in service. -/
def booting (pos : InitPos) : State :=
  { State.reset with eng := { Engine.reset with mode := .active, job := some ⟨0, .uninit, .init pos, []⟩ } }

/-- A transaction of sequence 2 in flight, the cursor at `n`. -/
def flight : Flight := { seq := 2, addr := 0, size := 0, start := 0, wild := false }

/-- `s` with that transaction in flight. -/
def flying (n : Nat) (s : State) : State := { s with dev := { s.dev with inFlight := some flight, seqPtr := n } }

/-- `s` whose next answers are these. -/
def told (l : List Word) (s : State) : State := { s with answers := l }

/-- `s` whose next turn is this. -/
def turn (t : Turn) (s : State) : State := { s with schedule := [t] }

/-- What an outcome says of the state it goes on in. -/
def ask {α : Type} (d : α) (f : State → α) : Host.Outcome State Fault Refusal → α
  | .next t => f t
  | .fault _ | .refused _ => d

/-- The responses an outcome has. -/
def responses : Host.Outcome State Fault Refusal → List (Requester × Response) := ask [] State.responses

/-- The accesses an outcome has. -/
def accesses : Host.Outcome State Fault Refusal → List Event := ask [] (fun t => t.eng.hist)

/-- The reason an outcome refuses for. -/
def refusal : Host.Outcome State Fault Refusal → Option Refusal
  | .refused r => some r
  | .next _ | .fault _ => none

/-! ### Well-formedness -/

/-- A FILL of too many words is ill formed (10_state.md R21). -/
theorem test_wf_fill_too_long : Instr.wf Params.configT (.fill 0 0 (List.replicate (2 ^ 32) 0)) = false := by
  simp only [Instr.wf, List.length_replicate, Nat.lt_irrefl, decide_false]

/-- STOP's value is no unassigned opcode (40_lut_instructions.md R118). -/
theorem test_wf_unassigned_stop : Instr.wf Params.configT (.unassigned 0 0 0) = false := by decide

/-- An assigned value is no unassigned opcode (R118). -/
theorem test_wf_unassigned_read : Instr.wf Params.configT (.unassigned 7 0 0) = false := by decide

/-- Configuration T passes U19's checks. -/
theorem test_configT_valid : Params.configT.valid = true := by decide

/-! ### Decoding: the words of 95_test_vectors.md 2.1, one per LUT instruction -/

/-- The LUT instruction that a half-word is, under configuration T. -/
def lut (h : Half) : Except Reject Instr := decode Params.configT (.luti16 h)

theorem test_decode_stop : lut 0b0000001000011000 = .ok (.stop 2 0x18) := rfl
theorem test_decode_cmd : lut 0b0000011111111111 = .ok (.cmd 3 0xFF) := rfl
theorem test_decode_addr : lut 0b0000101000011000 = .ok (.addr 2 0x18) := rfl
theorem test_decode_dummy : lut 0b0000111000011000 = .ok (.dummy 2 0x18) := rfl
theorem test_decode_mode : lut 0b0001001000011000 = .ok (.mode 2 0x18) := rfl
theorem test_decode_mode2 : lut 0b0001011000011000 = .ok (.mode2 2 0x18) := rfl
theorem test_decode_mode4 : lut 0b0001101000011000 = .ok (.mode4 2 0x18) := rfl
theorem test_decode_read : lut 0b0001111000011000 = .ok (.read 2 0x18) := rfl
theorem test_decode_write : lut 0b0010001000011000 = .ok (.write 2 0x18) := rfl
theorem test_decode_jumpOnCs : lut 0b0010011000011000 = .ok (.jumpOnCs 2 0x18) := rfl
theorem test_decode_addrDdr : lut 0b0010101000011000 = .ok (.addrDdr 2 0x18) := rfl
theorem test_decode_modeDdr : lut 0b0010111000011000 = .ok (.modeDdr 2 0x18) := rfl
theorem test_decode_mode2Ddr : lut 0b0011001000011000 = .ok (.mode2Ddr 2 0x18) := rfl
theorem test_decode_mode4Ddr : lut 0b0011011000011000 = .ok (.mode4Ddr 2 0x18) := rfl
theorem test_decode_readDdr : lut 0b0011101000011000 = .ok (.readDdr 2 0x18) := rfl
theorem test_decode_writeDdr : lut 0b0011111000011000 = .ok (.writeDdr 2 0x18) := rfl
theorem test_decode_dataLearn : lut 0b0100001000011000 = .ok (.dataLearn 2 0x18) := rfl
theorem test_decode_unassigned : lut 0b0100011000011000 = .ok (.unassigned 17 2 0x18) := rfl

/-- IPCMD (2.4): `SEQID` 5 in [27:24], `DATSZ` 16 in [15:0]; a reserved bit is rejected (R91). -/
theorem test_decode_ipcmd :
    decodeIpcmd 0b00000101000000000000000000010000 = .ok (.ipcmd 5 16) ∧
      decodeIpcmd 0b00000101000000010000000000010000 = .error .reservedBits := ⟨rfl, rfl⟩

/-! The requests, by the tags and the argument order of 30_encoding.md R88. -/

theorem test_decode_encode : decodeRequest ⟨0, [1, 0, 0x9F, 7, 0, 3]⟩ = .ok (.encode ⟨1, 0, 0x9F⟩ ⟨7, 0, 3⟩) := rfl
theorem test_decode_decode : decodeRequest ⟨1, [0x1C03049F]⟩ = .ok (.decode 0x1C03049F) := rfl
theorem test_decode_writeSeq : decodeRequest ⟨2, [15, 1, 2, 3, 4]⟩ = .ok (.writeSeq 15 #v[1, 2, 3, 4]) := rfl
theorem test_decode_issue :
    decodeRequest ⟨3, [3, 0x1000, 16]⟩ = .ok (.issue 3 0x1000 16) ∧
      decodeRequest ⟨3, [3, 0x1000, 0x10000]⟩ = .error (.argumentWidth 3) := ⟨rfl, rfl⟩
theorem test_decode_drain : decodeRequest ⟨4, [16]⟩ = .ok (.drain 16) := rfl
theorem test_decode_fill : decodeRequest ⟨5, [2, 0x1000, 1, 2, 3]⟩ = .ok (.fill 2 0x1000 [1, 2, 3]) := rfl
theorem test_decode_acquire : decodeRequest ⟨6, [7]⟩ = .ok (.acquire 7) := rfl
theorem test_decode_release : decodeRequest ⟨7, [7]⟩ = .ok (.release 7) := rfl
theorem test_decode_init : decodeRequest ⟨8, []⟩ = .ok .init := rfl
theorem test_decode_no_request : decodeRequest ⟨9, []⟩ = .error (.unknownTag 9) := rfl

/-- 30_encoding.md R87 and 95_test_vectors.md 2.1: the four effective lengths it gives. -/
theorem test_effective_length :
    [[0x1C03049F, 0, 0, 0], [0x00000406, 0x1C03049F, 0, 0], [0, 0x1C03049F, 0, 0],
      List.replicate 4 0x04060406].map (effectiveLength Params.configT) = [2, 1, 0, 8] := by decide

/-! ### ENCODE and DECODE (95_test_vectors.md 2.2) -/

/-- V-ENC-1, V-ENC-9 and X2. -/
theorem test_encode_words :
    encodeWord ⟨1, 0, 0x9F⟩ ⟨7, 0, 3⟩ = 0x1C03049F ∧ encodeWord ⟨64, 4, 256⟩ ⟨65, 7, 0x1AB⟩ = 0x07AB0000 ∧
      encodeWord ⟨0x41, 5, 0x1FF⟩ ⟨0xFFFFFFFF, 0xFFFFFFFF, 0xFFFFFFFF⟩ = 0xFFFF05FF := by decide

/-- V-ENC-13: ENCODE in Uninit answers, and the mode stays. -/
theorem test_encode_uninit :
    responses (exec (.encode ⟨1, 0, 0x9F⟩ ⟨7, 0, 3⟩) State.reset) = [(0, .ok (.word 0x1C03049F))] := by decide

/-- V-DEC-4. -/
theorem test_decode_deadbeef : decodeWord 0xDEADBEEF = (⟨47, 2, 0xEF⟩, ⟨55, 2, 0xAD⟩) := by decide

/-! ### The other requests, one step each -/

/-- V-SEQ-2: the fourth LUT write of sequence 15 is at 0x40C. -/
theorem test_writeSeq_last_word :
    accesses (exec (.writeSeq 15 #v[1, 2, 3, 4]) (serving (.writeSeq 15 #v[1, 2, 3, 4] (.word 3)))) =
      [.wr 0x40C 4] := by decide

/-- V-ISSUE-2: the IP-command word of sequence 5 and size 16 (not X11's 0). -/
theorem test_issue_command :
    accesses (exec (.issue 5 0x1000 16) (serving (.issue 5 0x1000 16 .command))) = [.wr 0x008 0x05000010] := by
  decide

/-- V-ISSUE-3: the third failed poll is `Busy`. -/
theorem test_issue_busy :
    responses (execTimes (.issue 3 0 0) 2 (told [1] (flying 0 (serving (.issue 3 0 0 (.waitIdle 3)))))) =
      [(0, .err .busy)] := by decide

/-- The `IPCMD` write and its trace event are two steps (00_scope.md R5; 60_exceptions.md R199). -/
theorem test_issue_trace_is_a_step :
    ask [] (fun t => t.eng.trace) (exec (.issue 5 0x1000 16) (serving (.issue 5 0x1000 16 .command))) = [] ∧
      ask [] (fun t => t.eng.trace) (execTimes (.issue 5 0x1000 16) 2 (serving (.issue 5 0x1000 16 .command))) =
        [.issueStart 5 0x1000 16] := by decide

/-- R190 and D16: `Ok` is code 0, and the errors are 1 to 5. -/
theorem test_codes :
    ([Response.ok .unit, .err .busy, .err .timeout, .err .invalidSize, .err .mapError, .err .clockError].map
      Response.code) = [0, 1, 2, 3, 4, 5] := by decide

/-- V-DRAIN-2: three bytes of the word 0xFF19BA20, the fourth discarded. -/
theorem test_drain_bytes : drainTake .little 3 [] 0xFF19BA20 = [0x20, 0xBA, 0x19] := by decide

/-- V-DRAIN-4: the other byte order. -/
theorem test_drain_big : drainTake .big 4 [] 0x44332211 = [0x44, 0x33, 0x22, 0x11] := by decide

/-- V-FILL-1: three words are `InvalidSize`, with no access. -/
theorem test_fill_short :
    responses (execTimes (.fill 2 0x1000 [1, 2, 3]) 2 idle) = [(0, .err .invalidSize)] ∧
      accesses (execTimes (.fill 2 0x1000 [1, 2, 3]) 2 idle) = [] := by decide

/-- V-FILL-3: of ten words eight are written, and the size is 32 bytes. -/
theorem test_fill_limit : fillLimit Params.configT (List.replicate 10 0) = 8 ∧ fillSize 8 = 32 := by decide

/-- V-LOCK-1 and V-LOCK-7. -/
theorem test_lock :
    ask none (fun t => t.eng.owner) (exec (.acquire 0) idle) = some 0 ∧
      refusal (exec (.release 0) idle) = some .notTheOwner := by decide

/-- V-INIT-1, accesses 3 and 4: the read answers the bit set, and both software-reset bits are set with it. -/
theorem test_init_reset_write :
    accesses (exec .init (told (List.replicate 20 0) (booting (.resetSet (.write 0x4000))))) =
      [.wr 0x000 0x4003] := by decide

/-- R39: after INIT's `Ok` the controller is enabled, whatever `CTRL` held. -/
theorem test_init_settles :
    ask 0 (fun t => t.dev.ctrl &&& 0x4003) (exec .init { booting .timing with
      dev := { idle.dev with ctrl := 0x4003 }
      eng := { (booting .timing).eng with job := some ⟨0, .uninit, .init .timing, [.respond (.ok .unit)]⟩ } }) = 0 := by
  decide

/-- R31: a controller that `MDIS` disables need not start the transaction, as drawn. -/
theorem test_disabled :
    ask (some flight) (fun t => t.dev.inFlight)
      (exec (.ipcmd 2 16) (told [0, 0] { idle with dev := { idle.dev with ctrl := 0x4000 } })) = none := by decide

/-- V-INIT-5: ISSUE in Uninit is refused. -/
theorem test_issue_uninit : refusal (exec (.issue 0 0 0) State.reset) = some .uninitialised := by decide

/-! ### LUT instructions, one step each -/

/-- STOP ends the transaction (40_lut_instructions.md R101). -/
theorem test_stop_ends : ask (some flight) (fun t => t.dev.inFlight) (exec (.stop 0 0) (flying 2 idle)) = none := by
  decide

/-- U9: a STOP with an operand ends it too, and every other value is drawn. -/
theorem test_stop_operand :
    ask (some flight) (fun t => t.dev.inFlight) (exec (.stop 0 1) (told (List.replicate 30 0) (flying 2 idle))) = none ∧
      ask 1 (fun t => t.dev.ctrl) (exec (.stop 0 1) (told (List.replicate 30 0) (flying 2 idle))) = 0 := by decide

/-- READ: a byte that arrives is the last of the RX buffer (R108). -/
theorem test_read_byte :
    ask [] (fun t => t.dev.rxBuf) (exec (.read 0 4) (told [0x1AB] (flying 2 idle))) = [0xAB] := by decide

/-- The eighth instruction completes the transaction (30_encoding.md R87). -/
theorem test_eighth_completes :
    ask (some flight) (fun t => t.dev.inFlight) (exec (.cmd 0 0x9F) (flying 7 idle)) = none := by decide

/-- The placed instruction is the one the next step runs. -/
theorem test_withFetchWord :
    accesses (step (State.reset.withFetchWord 8 8)) = [] ∧
      ask [] (fun t => t.dev.executed) (step (State.reset.withFetchWord 16 0x049F)) = [.cmd 0 0x9F] := by decide

/-! ### Witnesses: a state and operands that meet each obligation's hypotheses, clause by clause -/

theorem test_witness_EncodeAnswersPackedWord :
    idle.eng.mode ≠ .active ∧ ownerAllows idle.eng.owner idle.eng.offer = true := by decide

/-- The owner's own request is not held either. -/
theorem test_witness_DecodeAnswersBothTriples :
    State.reset.eng.mode ≠ .active ∧ ownerAllows (some 0) State.reset.eng.offer = true := by decide

theorem test_witness_EncodeDecodeRoundTrip :
    Triple.masked ⟨64, 4, 256⟩ = Triple.masked ⟨0, 0, 0⟩ ∧ Triple.masked ⟨65, 7, 0x1AB⟩ = Triple.masked ⟨1, 3, 0xAB⟩ := by
  decide

theorem test_witness_DecodeOfEncodeIsIdentity :
    Params.configT.valid = true ∧ Instr.wf Params.configT (.unassigned 63 3 255) = true ∧
      Instr.wf Params.configT (.unassigned 17 0 0) = true ∧ Instr.wf Params.configT (.fill 15 0 [1, 2]) = true := by
  decide

/-- A message that decodes, ISSUE's size left out, and one that does not, at the head of the port. -/
theorem test_witness_UnnamedRequestIsRefused :
    decodeRequest ⟨3, [15, 0]⟩ = .ok (.issue 15 0 0) ∧
      ∃ s : State, s.cfg.valid = true ∧ s.takeTurn.1 = .engine ∧ s.eng.job = none ∧
        s.takeTurn.2.pick.1 = some ⟨0, 9, []⟩ ∧ decodeRequest ⟨9, []⟩ = .error (.unknownTag 9) :=
  ⟨rfl, { turn .engine idle with port := [⟨0, 9, []⟩] }, by decide, rfl, rfl, rfl, rfl⟩

/-- STOP in the first slot (all four words), in the second slot, at an even place, and none at all. -/
theorem test_witness_EffectiveLengthIsFirstStop :
    ([0, 0, 0, 0] : List Word).length = 4 ∧ effectiveLength Params.configT [0, 0, 0, 0] = 2 * 0 ∧
      effectiveLength Params.configT [0x00000406, 0, 0, 0] = 2 * 0 + 1 ∧
      effectiveLength Params.configT [0x1C03049F, 0, 0, 0] = 2 * 1 ∧
      effectiveLength Params.configT (List.replicate 4 0x04060406) = 8 := by decide

/-- The last LUT word is the last register of its range. -/
theorem test_witness_WindowOffsetsAlignedDistinct :
    Params.configT.valid = true ∧ engineReads (.rxdata 0) = true ∧ engineWrites (.lut 63) = true ∧
      offOf Params.configT (.lut 63) = 0x40C := by decide

/-- Each clause on its own, at its boundary. -/
theorem test_witness_BadConfigurationIsRefused :
    ({ Params.configT with off := { Params.configT.off with status := 0x15D } } : Params).valid = false ∧
      ({ Params.configT with off := { Params.configT.off with status := 4096 } } : Params).valid = false ∧
      ({ Params.configT with off := { Params.configT.off with status := 0 } } : Params).valid = false ∧
      ({ Params.configT with off := { Params.configT.off with txdata := 0x310 } } : Params).valid = false ∧
      ({ Params.configT with off := { Params.configT.off with rxdata := 0x100 } } : Params).valid = false ∧
      ({ Params.configT with mask := { Params.configT.mask with busy := 0 } } : Params).valid = false ∧
      ({ Params.configT with lckUnlock := 1 } : Params).valid = false ∧
      ({ Params.configT with txCapacity := 3 } : Params).valid = false ∧
      ({ Params.configT with waitLimit := 0 } : Params).valid = false ∧
      ({ Params.configT with opc := { Params.configT.opc with cmd := 7 } } : Params).valid = false ∧
      ({ Params.configT with opc := { Params.configT.opc with cmd := 0 } } : Params).valid = false := by decide

/-- `idle` with the LUT unlocked and the key as given. -/
def unlocked (key : Bool) : State := { idle with dev := { idle.dev with lutLock := .unlocked, keyArmed := key } }

theorem test_witness_LutWriteNeedsUnlock :
    (unlocked false).dev.clockOn = true ∧ (unlocked false).dev.lutLock = .unlocked ∧
      (unlocked false).dev.inFlight = none ∧ idle.dev.clockOn = true ∧ idle.dev.lutLock = .locked ∧
      idle.dev.inFlight = none := by decide

theorem test_witness_KeyArmsLockControl :
    idle.cfg.valid = true ∧ idle.dev.clockOn = true ∧ idle.dev.keyArmed = false ∧
      (unlocked true).cfg.valid = true ∧ (unlocked true).dev.clockOn = true ∧ (unlocked true).dev.keyArmed = true ∧
      idle.cfg.lckUnlock = 2 ∧ idle.cfg.lckLock = 1 := by decide

/-- An enabled controller, a disabled one, and one whose software reset is held. -/
theorem test_witness_IpcmdStartsTransaction :
    (idle.dev.clockOn = true ∧ idle.dev.inFlight = none ∧ idle.dev.enabled idle.cfg = true) ∧
      ({ idle.dev with ctrl := 0x4000 } : Device).enabled idle.cfg = false ∧
      ({ idle.dev with ctrl := 0x1 } : Device).enabled idle.cfg = false := by decide

/-- A lawless device at rest goes on; a transaction in flight, and a word of each clause. -/
theorem test_witness_RacingWriteEndsContract :
    (∃ s t : State, s.dev.lawless = true ∧ step s = .next t) ∧
      ((flying 0 idle).dev.clockOn = true ∧ (flying 0 idle).dev.inFlight = some flight) ∧
      fieldSet idle.cfg.mask.seqptrClr 0x100 = true ∧
      fieldSet idle.cfg.mask.clrTxf 0x803 = true ∧ fieldSet idle.cfg.mask.rxptrClr 0x400 = true :=
  ⟨⟨turn .device { idle with dev := { idle.dev with lawless := true } }, _, rfl, rfl⟩, by decide, by decide,
    by decide, by decide⟩

/-- A LUT write while a transaction of another sequence is in flight is a race too (20_memory.md R74, D25). -/
theorem test_lut_write_races :
    ((flying 0 (unlocked false)).devWrite (.lut 63) 1).dev.lawless = true ∧
      ((unlocked false).devWrite (.lut 63) 1).dev.lawless = false := by decide

theorem test_witness_StatusFlagsFollowDevice :
    idle.cfg.valid = true ∧ Contract idle ∧ StatusApart idle.cfg := by
  unfold StatusApart Contract; decide

/-- `idle` with these bytes in the RX buffer. -/
def received (l : List Byte) : State := { idle with dev := { idle.dev with rxBuf := l } }

/-- Exactly one watermark in the buffer. -/
theorem test_witness_RxWindowAndPop :
    4 ≤ (received [1, 2, 3, 4]).dev.rxBuf.length ∧ Contract (received [1, 2, 3, 4]) ∧
      (received [1, 2, 3, 4]).dev.clockOn = true ∧ fieldSet (received [1, 2, 3, 4]).cfg.mask.rxpop 0x10000 = true := by
  unfold Contract; decide

theorem test_witness_PointerClears :
    idle.dev.clockOn = true ∧ fieldSet idle.cfg.mask.seqptrClr 0x100 = true ∧ idle.dev.inFlight = none ∧
      fieldSet idle.cfg.mask.rxptrClr 0x400 = true := by decide

/-- `idle` with `n` words in the TX buffer. -/
def loaded (n : Nat) : State := { idle with dev := { idle.dev with txBuf := List.replicate n 0 } }

/-- The last free word, and a word with each clear bit that resets nothing; with a transaction in flight, one that
is no race (in configuration T `CLR_RXF` is `RXPTR_CLR`'s bit, so with `RXPTR_CLR` in its own register). -/
theorem test_witness_BufferWritesAndClears :
    (loaded 7).dev.clockOn = true ∧ (loaded 7).dev.inFlight = none ∧
      (loaded 7).dev.txBuf.length < (loaded 7).cfg.txCapacity ∧ fieldSet (loaded 7).cfg.mask.clrTxf 0x800 = true ∧
      fieldSet (loaded 7).cfg.mask.clrRxf 0x400 = true ∧ fieldSet (swrstMask (loaded 7).cfg) 0x800 = false ∧
      ctrlRaces { Params.configT with off := { Params.configT.off with rxptrClr := 0x170 } } 0x400 = false := by decide

/-- The seventh and the eighth instruction of the sequence. -/
theorem test_witness_PhasesAdvanceCursor :
    (flying 6 idle).dev.inFlight = some flight ∧ (flying 7 idle).dev.inFlight = some flight ∧
      padWired idle.cfg 3 = true ∧ Instr.addr 3 24 ∈ [Instr.cmd 3 24, .addr 3 24] := by decide

theorem test_witness_StopEndsTransaction : (flying 0 idle).dev.inFlight = some flight := by decide

/-- Room for one more byte, and none; a drawn word that brings a byte, and one that does not. -/
theorem test_witness_ReadPhaseFillsRxBuffer :
    (flying 0 (received (List.replicate 127 0))).dev.inFlight = some flight ∧ padWired idle.cfg 0 = true ∧
      Instr.readDdr 0 4 ∈ [Instr.read 0 4, .readDdr 0 4] ∧
      (flying 0 (received (List.replicate 127 0))).dev.rxBuf.length < idle.cfg.rxCapacity ∧
      (flying 0 (received (List.replicate 128 0))).dev.inFlight = some flight ∧
      idle.cfg.rxCapacity ≤ (flying 0 (received (List.replicate 128 0))).dev.rxBuf.length ∧
      (told [0x100] (flying 0 (received (List.replicate 128 0)))).draw.1.getLsbD 8 = true ∧
      (told [0x200] (flying 0 (received (List.replicate 128 0)))).draw.1.getLsbD 8 = false :=
  ⟨rfl, by decide, by decide, lt_of_eq_of_lt List.length_replicate (by decide), rfl,
    Nat.le_of_eq List.length_replicate.symm, by decide, by decide⟩

theorem test_witness_WritePhaseConsumesTxBuffer :
    (flying 7 (loaded 1)).dev.inFlight = some flight ∧ padWired idle.cfg 0 = true ∧
      Instr.write 0 4 ∈ [Instr.write 0 4, .writeDdr 0 4] := by decide

/-- A wired pad width, and a board on which none is. -/
theorem test_witness_UnconstrainedInstructions :
    (flying 0 idle).dev.inFlight = some flight ∧ padWired idle.cfg 3 = true ∧
      padWired { idle.cfg with wiredPads := 0 } 3 = false ∧ Instr.cmd 3 0 ∈ [Instr.cmd 3 0, .addr 3 0] := by decide

theorem test_witness_LutInstrNeedsTransaction :
    idle.dev.inFlight = none ∧ Instr.unassigned 17 0 0 ∈ [Instr.stop 0 0, .unassigned 17 0 0] := by decide

/-- `idle` is ready for a request. -/
theorem idle_ready : Ready idle := ⟨rfl, rfl, .inl rfl⟩

/-- No transaction in flight, and one. -/
theorem test_witness_WriteSeqInstallsSequence :
    idle.cfg.valid = true ∧ Ready idle ∧ idle.dev.clockOn = true ∧ idle.dev.inFlight = none ∧ Ready (flying 0 idle) ∧
      (flying 0 idle).dev.clockOn = true ∧ (flying 0 idle).dev.inFlight.isSome = true :=
  ⟨by decide, idle_ready, rfl, rfl, ⟨rfl, rfl, .inl rfl⟩, rfl, rfl⟩

theorem test_witness_WriteSeqIsIdempotent :
    idle.cfg.valid = true ∧ Ready idle ∧ idle.dev.clockOn = true ∧ idle.dev.inFlight = none ∧
      ∃ t u, execTimes (.writeSeq 0 #v[0x1C03049F, 0, 0, 0]) 11 idle = .next t ∧
        execTimes (.writeSeq 0 #v[0x1C03049F, 0, 0, 0]) 11 t = .next u :=
  ⟨by decide, idle_ready, rfl, rfl, _, _, rfl, rfl⟩

/-- The first write of the bracket, and the last LUT word's. -/
theorem test_witness_OnlyWriteSeqTouchesTable :
    idle.cfg.valid = true ∧
      (∃ t, exec (.writeSeq 0 #v[0, 0, 0, 0]) (serving (.writeSeq 0 #v[0, 0, 0, 0] .key1)) = .next t ∧
        t.eng.hist = [] ++ [.wr 0x300 0x5AF05AF0]) ∧
      ∃ t, exec (.writeSeq 15 #v[0, 0, 0, 9]) (serving (.writeSeq 15 #v[0, 0, 0, 9] (.word 3))) = .next t ∧
        t.eng.hist = [] ++ [.wr 0x40C 9] ∧ 0x310 ≤ 0x40C ∧ 0x40C < 0x310 + 256 :=
  ⟨by decide, ⟨_, rfl, by decide⟩, _, rfl, by decide, by decide, by decide⟩

theorem test_witness_IssueServesItsRule : idle.cfg.valid = true ∧ Ready idle := ⟨by decide, idle_ready⟩

/-- A FILL at the start of its inner ISSUE, its four words in the TX buffer. -/
def filled : State :=
  { serving (.fill 2 0x1000 [1, 2, 3, 4] (.issue (.waitIdle 1)) 4 4) with
    dev := { idle.dev with txBuf := [1, 2, 3, 4] } }

/-- The oracle's `CTRL` read answers no bit that resets, disables or clears the TX buffer. V-FILL-2 of
95_test_vectors.md: FILL's `IPCMD` word is 0x02000010. -/
theorem test_witness_IssueStartsItsTransaction :
    (idle.cfg.valid = true ∧ Ready idle ∧ Contract idle ∧ idle.dev.enabled idle.cfg = true ∧ idle.dev.inFlight = none ∧
        StatusApart idle.cfg ∧ CtrlApart idle.cfg) ∧
      (∃ t l, execTimes (.issue 5 0x1000 16) (6 + actCost (fieldRxptrClr idle.cfg)) (told [0, 0xF0000] idle) = .next t ∧
        t.eng.hist = [] ++ l ∧ l[2]? = some (.rd idle.cfg.off.ctrl 0xF0000) ∧
        0xF0000#32 &&& haltMask idle.cfg = 0#32) ∧
      (filled.eng.job = some ⟨0, .idle, .fill 2 0x1000 [1, 2, 3, 4] (.issue (.waitIdle 1)) 4 4, []⟩ ∧
        Contract filled ∧ filled.dev.enabled filled.cfg = true ∧ filled.dev.inFlight = none) ∧
      ∃ t, execTimes (.fill 2 0x1000 [1, 2, 3, 4]) (5 + actCost (fieldRxptrClr idle.cfg)) (told [0, 0xF0000] filled) =
          .next t ∧
        t.eng.hist = [] ++
          [.rd 0x15C 0, .wr 0x100 0x1000, .rd 0x000 0xF0000, .wr 0x000 0xF0400, .wr 0x16C 0x100, .wr 0x008 0x02000010] ∧
        fieldSet idle.cfg.mask.clrTxf 0xF0400 = false := by
  refine ⟨⟨by decide, idle_ready, ⟨rfl, rfl⟩, by decide, rfl, ?_, ?_⟩, ⟨_, _, rfl, rfl, by decide, by decide⟩,
    ⟨rfl, ⟨rfl, rfl⟩, by decide, rfl⟩, _, rfl, by decide, by decide⟩
  · unfold StatusApart; decide
  · unfold CtrlApart; decide

theorem test_witness_IssueCompletes :
    idle.cfg.valid = true ∧
      (serving (.issue 2 0 0 (.waitDone 1))).eng.job = some ⟨0, .idle, .issue 2 0 0 (.waitDone 1), []⟩ ∧
      Contract (serving (.issue 2 0 0 (.waitDone 1))) ∧ StatusApart idle.cfg ∧
      (serving (.issue 2 0 0 (.waitDone 1))).dev.inFlight = none := by
  unfold StatusApart Contract; decide

/-- The last poll that may fail and be tried again, and poll `WAIT_LIMIT`; both waits, of ISSUE and of FILL. -/
theorem test_witness_IssueWaitsAreBounded :
    idle.cfg.valid = true ∧
      (flying 0 (serving (.issue 2 0 0 (.waitDone 2)))).eng.job = some ⟨0, .idle, .issue 2 0 0 (.waitDone 2), []⟩ ∧
      issuePos (.issue 2 0 0 (.waitDone 2)) = some (if true then .waitDone 2 else .waitIdle 2) ∧
      (flying 0 filled).eng.job = some ⟨0, .idle, .fill 2 0x1000 [1, 2, 3, 4] (.issue (.waitIdle 1)) 4 4, []⟩ ∧
      issuePos (.fill 2 0x1000 [1, 2, 3, 4] (.issue (.waitIdle 3)) 4 4) =
        some (if false then .waitDone 3 else .waitIdle 3) ∧
      Contract (flying 0 filled) ∧ (flying 0 filled).dev.inFlight.isSome = true ∧
      2 < idle.cfg.waitLimit ∧ idle.cfg.waitLimit ≤ 3 := by
  unfold Contract; decide

/-- A size of 5 takes two watermarks, which the buffer just holds; a size of 0 takes none. -/
theorem test_witness_DrainDeliversOldestBytes :
    idle.cfg.valid = true ∧ Ready (received [1, 2, 3, 4, 5, 6, 7, 8]) ∧ Contract (received [1, 2, 3, 4, 5, 6, 7, 8]) ∧
      2 = ((5 : Word).toNat + 3) / 4 ∧ 4 * 2 ≤ (received [1, 2, 3, 4, 5, 6, 7, 8]).dev.rxBuf.length ∧
      0 = ((0 : Word).toNat + 3) / 4 ∧ 4 * 0 ≤ idle.dev.rxBuf.length :=
  ⟨by decide, ⟨rfl, rfl, .inl rfl⟩, ⟨rfl, rfl⟩, by decide, by decide, by decide, by decide⟩

/-- Three bytes are one too few; the last poll that may be tried again, and poll `WAIT_LIMIT`. -/
theorem test_witness_DrainTimesOut :
    idle.cfg.valid = true ∧
      (serving (.drain 4 (.wait 3) [] 0)).eng.job = some ⟨0, .idle, .drain 4 (.wait 3) [] 0, []⟩ ∧
      Contract (received [1, 2, 3]) ∧ StatusApart idle.cfg ∧ (received [1, 2, 3]).dev.rxBuf.length < 4 ∧
      2 < idle.cfg.waitLimit ∧ idle.cfg.waitLimit ≤ 3 := by
  unfold StatusApart Contract; decide

/-- A DRAIN that is about to respond. -/
def lastPop : State :=
  acting (.drain 3 (.pop .start) [0x20, 0xBA, 0x19] 0) [.respond (.ok (.bytes [0x20, 0xBA, 0x19]))]

/-- The locals of that request, and its response, are as R26 and R11 say. -/
theorem lastPop_locals : LocalsInv lastPop := by
  intro j hj
  cases hj
  refine ⟨fun h => (by cases h), fun r hr => ?_⟩
  cases List.mem_singleton.mp hr
  exact .inl ⟨_, rfl, by decide⟩

theorem test_witness_DrainResponseLength :
    LocalsInv lastPop ∧ ∃ t, exec (.drain 3) lastPop = .next t ∧
      t.responses = lastPop.responses ++ [(0, .ok (.bytes [0x20, 0xBA, 0x19]))] := ⟨lastPop_locals, _, rfl, by decide⟩

theorem test_witness_FillRejectsShortData : Ready idle ∧ ([1, 2, 3] : List Word).length < 4 := ⟨idle_ready, by decide⟩

/-- The shortest FILL, and one that the capacity cuts. -/
theorem test_witness_FillLoadsTxBuffer :
    idle.cfg.valid = true ∧ Ready idle ∧ Contract idle ∧ StatusApart idle.cfg ∧ idle.dev.inFlight = none ∧
      idle.dev.txBuf = [] ∧ 4 ≤ ([1, 2, 3, 4] : List Word).length ∧
      4 = min ([1, 2, 3, 4] : List Word).length idle.cfg.txCapacity ∧
      8 = min (List.replicate 9 (0 : Word)).length idle.cfg.txCapacity := by
  refine ⟨by decide, idle_ready, ⟨rfl, rfl⟩, ?_, rfl, rfl, by decide, by decide, by decide⟩
  unfold StatusApart; decide

theorem test_witness_FillCompletes :
    idle.cfg.valid = true ∧
      (serving (.fill 2 0 [1, 2, 3, 4] (.issue (.waitDone 3)) 4 4)).eng.job =
        some ⟨0, .idle, .fill 2 0 [1, 2, 3, 4] (.issue (.waitDone 3)) 4 4, []⟩ ∧
      Contract idle ∧ StatusApart idle.cfg ∧ idle.dev.inFlight = none := by
  unfold StatusApart Contract; decide

/-- `TXNE` at the start; the two positions of the clear; then room for the last word, a full buffer at poll 2, and
at poll `WAIT_LIMIT`. -/
theorem test_witness_FillClearsAndWaits :
    idle.cfg.valid = true ∧ Contract idle ∧ StatusApart idle.cfg ∧
      (serving (.fill 2 0 [1, 2, 3, 4] .txne 0 4)).eng.job = some ⟨0, .idle, .fill 2 0 [1, 2, 3, 4] .txne 0 4, []⟩ ∧
      (serving (.fill 2 0 [1, 2, 3, 4] (.clear .start) 0 4)).eng.job =
        some ⟨0, .idle, .fill 2 0 [1, 2, 3, 4] (.clear .start) 0 4, []⟩ ∧
      (serving (.fill 2 0 [1, 2, 3, 4] (.clear (.write 3)) 0 4)).eng.job =
        some ⟨0, .idle, .fill 2 0 [1, 2, 3, 4] (.clear (.write 3)) 0 4, []⟩ ∧
      (loaded 8).dev.inFlight = none ∧
      (serving (.fill 2 0 [1, 2, 3, 4] (.wait 3) 3 4)).eng.job =
        some ⟨0, .idle, .fill 2 0 [1, 2, 3, 4] (.wait 3) 3 4, []⟩ ∧
      (loaded 7).dev.txBuf.length < idle.cfg.txCapacity ∧ idle.cfg.txCapacity ≤ (loaded 8).dev.txBuf.length ∧
      2 < idle.cfg.waitLimit ∧ idle.cfg.waitLimit ≤ 3 := by
  unfold StatusApart Contract; decide

/-- `idle` owned by `r`, the port offering a request of requester 0. -/
def owned (r : Requester) : State := { idle with eng := { idle.eng with owner := some r } }

/-- The free lock, the owner's, another's, Uninit, and Active. -/
theorem test_witness_LockIsTakenAndFreed :
    (idle.eng.mode = .idle ∧ idle.eng.owner = none ∧ (1 : Requester) ≠ idle.eng.offer) ∧
      ((owned 0).eng.mode = .idle ∧ (owned 0).eng.owner = some (owned 0).eng.offer ∧
        (1 : Requester) ≠ (owned 0).eng.offer) ∧
      ((owned 1).eng.owner = some 1 ∧ (1 : Requester) ≠ (owned 1).eng.offer) ∧
      (State.reset.eng.mode = .uninit ∧ State.reset.eng.owner = none) ∧
      (serving (.init .map)).eng.mode = .active := by decide

theorem test_witness_InitBootsOrAborts :
    State.reset.cfg.valid = true ∧ State.reset.eng.mode = .uninit ∧ State.reset.eng.job = none ∧
      State.reset.eng.owner = none := by decide

/-- INIT at its last step, the clock on. -/
def lastBoot : State := { booting .timing with dev := idle.dev }

theorem test_witness_InitCompletes :
    lastBoot.eng.job = some ⟨0, .uninit, .init .timing, []⟩ ∧ lastBoot.dev.clockOn = true := by decide

theorem test_witness_RequestsAreRefused :
    (State.reset.eng.mode ≠ .active ∧ State.reset.eng.job = none ∧
        ownerAllows State.reset.eng.owner State.reset.eng.offer = true ∧ State.reset.eng.mode = .uninit ∧
        Instr.drain 0 ∈ [Instr.acquire 0, .drain 0]) ∧
      (idle.eng.mode ≠ .active ∧ idle.eng.job = none ∧ ownerAllows idle.eng.owner idle.eng.offer = true ∧
        idle.eng.mode = .idle ∧ idle.eng.owner ≠ some 0) ∧
      ((owned 0).eng.mode ≠ .active ∧ ownerAllows (owned 0).eng.owner (owned 0).eng.offer = true ∧
        (owned 0).eng.owner = some (owned 0).eng.offer ∧ (owned 0).eng.mode = .idle) := by decide

/-- Another request in service, and another requester's lock. -/
theorem test_witness_RequestsAreHeld :
    (ModeInv (serving (.drain 4 .read [] 0)) ∧
        (serving (.drain 4 .read [] 0)).eng.job = some ⟨0, .idle, .drain 4 .read [] 0, []⟩ ∧
        taskInstr (.drain 4 .read [] 0) ≠ .drain 5 ∧ taskInstr (.drain 4 .read [] 0) ≠ .init) ∧
      ModeInv (owned 1) ∧ (owned 1).eng.job = none ∧ ownerAllows (owned 1).eng.owner (owned 1).eng.offer = false :=
  ⟨⟨⟨rfl, rfl⟩, rfl, by decide, by decide⟩, (fun h => by cases h), rfl, by decide⟩

/-- Three requests on the port of a state that requester 1 owns: the second is the one taken. -/
def queued : State := { owned 1 with port := [⟨0, 8, []⟩, ⟨1, 4, [0]⟩, ⟨1, 8, []⟩] }

theorem test_witness_RequestsAreTakenInOrder :
    queued.pick.1 = some ⟨1, 4, [0]⟩ ∧ queued.eng.mode ≠ .active ∧ (⟨1, 8, []⟩ : Posted) ∈ queued.port ∧
      ownerAllows queued.eng.owner 1 = true ∧ (serving (.init .map)).eng.mode = .active := by decide

/-- `flying` with the word 0x0000049F as the first of its sequence. -/
def programmed : State :=
  turn .device { flying 0 idle with
    dev := { (flying 0 idle).dev with mem := Memory.writeWord [] (lutOff Params.configT 8) 0x0000049F } }

/-- `programmed` with the cursor past its word, where nothing was written, and past the eighth instruction. -/
def astray (n : Nat) : State := { programmed with dev := { programmed.dev with seqPtr := n } }

/-- `programmed` with its controller disabled by `MDIS`. -/
def halted : State := { programmed with dev := { programmed.dev with ctrl := 0x4000 } }

/-- `programmed` with a transaction that has no constrained outcome. -/
def untamed : State := { programmed with dev := { programmed.dev with inFlight := some { flight with wild := true } } }

/-- An outside agent's next write. -/
def outside (off : Nat) : State := turn .bus { idle with foreign := [(off, 0)] }

/-- The four agents' instructions: in service, from the port, at the cursor, from outside; and each turn without
one. -/
theorem test_witness_StepRunsDecodedInstr :
    ((turn .engine (serving (.drain 0 .read [] 0))).cfg.valid = true ∧
        (turn .engine (serving (.drain 0 .read [] 0))).takeTurn.1 = .engine ∧
        (turn .engine (serving (.drain 0 .read [] 0))).eng.job = some ⟨0, .idle, .drain 0 .read [] 0, []⟩) ∧
      ((turn .engine queued).takeTurn.1 = .engine ∧ (turn .engine queued).eng.job = none ∧
        (turn .engine queued).takeTurn.2.pick.1 = some ⟨1, 4, [0]⟩ ∧ decodeRequest ⟨4, [0]⟩ = .ok (.drain 0)) ∧
      (programmed.takeTurn.1 = .device ∧ programmed.dev.inFlight = some flight ∧ flight.wild = false ∧
        programmed.dev.enabled programmed.cfg = true ∧ programmed.dev.seqPtr < 8 ∧
        programmed.dev.lutHalf programmed.cfg flight.seq programmed.dev.seqPtr = some 0x049F) ∧
      ((astray 8).takeTurn.1 = .device ∧ (astray 8).dev.inFlight = some flight ∧ 8 ≤ (astray 8).dev.seqPtr ∧
        (astray 7).dev.seqPtr < 8 ∧
        (astray 7).dev.lutHalf (astray 7).cfg flight.seq (astray 7).dev.seqPtr = none) ∧
      (halted.takeTurn.1 = .device ∧ halted.dev.inFlight = some flight ∧ halted.dev.enabled halted.cfg = false ∧
        untamed.takeTurn.1 = .device ∧ untamed.dev.inFlight = some { flight with wild := true }) ∧
      ((outside 0x008).takeTurn.1 = .bus ∧ (outside 0x008).foreign = (idle.cfg.off.ipcmd, 0) :: [] ∧
        decodeIpcmd 0 = .ok (.ipcmd 0 0)) ∧
      (roleAt idle.cfg 0xFFC = none ∧ roleAt idle.cfg 0x15C = some .status ∧ readOnly .status = true ∧
        roleAt idle.cfg 0x40C = some (.lut 63) ∧ readOnly (.lut 63) = false) :=
  ⟨by decide, ⟨rfl, rfl, rfl, rfl⟩, by decide, by decide, by decide, ⟨rfl, rfl, rfl⟩, by decide⟩

theorem test_witness_DeviceTurnFrame :
    (programmed.takeTurn.1 = .device ∧ ConstrainedTurn programmed ∧ ∃ t, step programmed = .next t) ∧
      (turn .device idle).takeTurn.1 = .device ∧ (turn .device idle).dev.inFlight = none ∧
      ∃ t, step (turn .device idle) = .next t :=
  ⟨⟨rfl, fun f hf => (by cases hf; exact ⟨rfl, by decide, fun _ => ⟨0x049F, by decide, by decide⟩⟩), _, rfl⟩, rfl, rfl,
    _, rfl⟩

/-- A step with an access, a fault (a write to the read-only `STATUS`), and a refusal. -/
theorem test_witness_HistoryIsObservationOnly :
    (∃ t, step (turn .engine (serving (.drain 4 .read [] 0))) = .next t) ∧
      step (turn .bus { idle with foreign := [(0x15C, 0)] }) = .fault (.noSuchRegister 0x15C) ∧
      step (turn .engine { State.reset with port := [⟨0, 4, [0]⟩] }) = .refused .uninitialised :=
  ⟨⟨_, rfl⟩, rfl, rfl⟩

theorem test_witness_AccessesStayInWindow :
    HistInv (turn .engine (serving (.drain 4 .read [] 0))) ∧
      ∃ t, step (turn .engine (serving (.drain 4 .read [] 0))) = .next t :=
  ⟨fun e he => (by cases he), _, rfl⟩

theorem test_witness_NoErrorFromTheseRequests :
    (LocalsInv idle ∧ LocalsInv (owned 0) ∧ LocalsInv (serving (.writeSeq 0 #v[0, 0, 0, 0] .lock))) ∧
      (∃ t, exec (.encode ⟨0, 0, 0⟩ ⟨0, 0, 0⟩) idle = .next t) ∧ (∃ t, exec (.decode 0) idle = .next t) ∧
      (∃ t, exec (.writeSeq 0 #v[0, 0, 0, 0]) (serving (.writeSeq 0 #v[0, 0, 0, 0] .lock)) = .next t) ∧
      (∃ t, exec (.acquire 0) idle = .next t) ∧ ∃ t, exec (.release 0) (owned 0) = .next t :=
  ⟨⟨fun j hj => (by cases hj), fun j hj => (by cases hj),
    fun j hj => (by cases hj; exact ⟨fun _ => trivial, fun r hr => (by cases hr)⟩)⟩,
    ⟨_, rfl⟩, ⟨_, rfl⟩, ⟨_, rfl⟩, ⟨_, rfl⟩, _, rfl⟩

/-- A DRAIN whose wait expires. -/
def expiring : State := told [0] (serving (.drain 4 (.wait 3) [] 0))

/-- The same DRAIN after that poll: only the response is left. -/
def failing : State := acting (.drain 4 (.wait 3) [] 0) [.respond (.err .timeout)]

theorem test_witness_ErrorEndsRequest :
    failing.eng.job = some ⟨0, .idle, .drain 4 (.wait 3) [] 0, [.respond (.err .timeout)]⟩ ∧
      ∃ t, exec (.drain 4) failing = .next t ∧ t.responses = failing.responses ++ [(0, .err .timeout)] :=
  ⟨rfl, _, rfl, by decide⟩

/-- A request that makes its last access, and one that has an internal action left. -/
theorem test_witness_RequestsEndWithinBounds :
    (expiring.cfg.valid = true ∧ LocalsInv expiring ∧
        expiring.eng.job = some ⟨0, .idle, .drain 4 (.wait 3) [] 0, []⟩ ∧
        ∃ t, exec (taskInstr (.drain 4 (.wait 3) [] 0)) expiring = .next t) ∧
      (lastPop.cfg.valid = true ∧ LocalsInv lastPop ∧ ∃ t, exec (.drain 3) lastPop = .next t) ∧ 0 < (1 : Word).toNat := by
  refine ⟨⟨by decide, fun j hj => ?_, rfl, _, rfl⟩, ⟨by decide, lastPop_locals, _, rfl⟩, by decide⟩
  cases hj
  exact ⟨fun _ => ⟨⟨by decide, by decide⟩, rfl, by decide⟩, fun r hr => (by cases hr)⟩

/-- A full RX buffer, a full TX buffer and a cursor at its last place. -/
theorem test_witness_StepKeepsDeviceSound :
    (MemInv programmed ∧ CursorInv programmed ∧ BufferInv programmed) ∧ CursorInv (flying 8 idle) ∧
      BufferInv (received (List.replicate 128 0)) ∧ BufferInv (loaded 8) ∧ ∃ t, step programmed = .next t := by
  refine ⟨⟨?_, ?_, ?_⟩, ?_, ?_, ?_, _, rfl⟩
  · unfold MemInv; decide
  · unfold CursorInv; decide
  · unfold BufferInv; decide
  · unfold CursorInv; decide
  · exact ⟨Nat.le_of_eq List.length_replicate, by decide⟩
  · unfold BufferInv; decide

/-- A request in service, of the owner, about to respond. -/
def ownersPop : State := turn .engine { lastPop with eng := { lastPop.eng with owner := some 0 } }

theorem test_witness_StepKeepsModeAndOwner :
    ModeInv ownersPop ∧ OwnerInv ownersPop ∧ ∃ t, step ownersPop = .next t :=
  ⟨⟨rfl, rfl⟩, ⟨fun h => (by cases h), fun j hj => (by cases hj; exact ⟨fun h => (by cases h), rfl⟩)⟩, _, rfl⟩

theorem test_witness_StepKeepsLocalRanges : LocalsInv ownersPop ∧ ∃ t, step ownersPop = .next t :=
  ⟨lastPop_locals, _, rfl⟩

/-- Nothing executed yet. -/
theorem test_witness_StepKeepsExecutionOrder :
    CursorInv programmed ∧ ExecutedInv programmed ∧ ∃ t, step programmed = .next t := by
  refine ⟨?_, fun t ht _ _ => ?_, _, rfl⟩
  · unfold CursorInv; decide
  · cases ht
    exact ⟨by decide, rfl, fun k hk => absurd hk (Nat.not_lt_zero k)⟩

theorem test_witness_StepKeepsClockOn : ModeInv ownersPop ∧ ClockInv ownersPop ∧ ∃ t, step ownersPop = .next t :=
  ⟨⟨rfl, rfl⟩, fun _ => rfl, _, rfl⟩

/-- ISSUE about to write `IPCMD`. -/
def atCommand : State := turn .engine (serving (.issue 5 0 16 .command))

/-- FILL's inner ISSUE there. -/
def fillAtCommand : State := turn .engine (serving (.fill 5 0 [1, 2, 3, 4] (.issue .command) 4 4))

theorem test_witness_TransactionsNeverOverlap :
    (atCommand.cfg.valid = true ∧ ModeInv atCommand ∧ ClockInv atCommand ∧ CtrlApart atCommand.cfg ∧
        atCommand.foreign = [] ∧ TriggerInv atCommand ∧
        ∃ t, step atCommand = .next t ∧
          ∀ w, t.eng.hist = atCommand.eng.hist ++ [.rd atCommand.cfg.off.ctrl w] →
            w &&& swrstMask atCommand.cfg = 0#32) ∧
      Contract atCommand ∧ atCommand.dev.enabled atCommand.cfg = true ∧
      atCommand.eng.job = some ⟨0, .idle, .issue 5 0 16 .command, []⟩ ∧
      (∃ t, exec (.issue 5 0 16) atCommand = .next t) ∧
      (TriggerInv fillAtCommand ∧ Contract fillAtCommand ∧ fillAtCommand.dev.enabled fillAtCommand.cfg = true ∧
        fillAtCommand.eng.job = some ⟨0, .idle, .fill 5 0 [1, 2, 3, 4] (.issue .command) 4 4, []⟩ ∧
        (16 : Half) = BitVec.ofNat 16 (4 * 4) ∧ ∃ t, exec (.fill 5 0 [1, 2, 3, 4]) fillAtCommand = .next t) := by
  refine ⟨⟨by decide, ⟨rfl, rfl⟩, fun _ => rfl, ?_, rfl, fun _ j hj => ?_, _, rfl, fun w hw => ?_⟩, ⟨rfl, rfl⟩,
    by decide, rfl, ⟨_, rfl⟩, fun _ j hj => ?_, ⟨rfl, rfl⟩, by decide, rfl, rfl, _, rfl⟩
  · unfold CtrlApart; decide
  · cases hj
    exact ⟨fun _ => rfl, fun v hv => (by cases hv)⟩
  · cases hw
  · cases hj
    exact ⟨fun _ => rfl, fun v hv => (by cases hv)⟩

theorem test_witness_ResetMeetsInvariants : AfterReset State.reset ∧ AfterReset { State.reset with dev := idle.dev } :=
  ⟨rfl, rfl⟩

end Sys2Proof.Tests
end

section
/-! ## What every step keeps (10_state.md R24, R25, R34 to R36, R52)

The case analysis of a step (`step_cases`) is made once here, for what all its cases keep (`step_keeps`), and once for
the engine's mode and owner. -/

namespace Sys2Proof.Machine

/-- What every transition of the model keeps: the configuration, a sound device, an ended contract, and a history of
accesses that R30 gives the engine. -/
structure StepKeeps (s t : State) : Prop where
  cfg : t.cfg = s.cfg
  sound : s.cfg.valid = true → DevSound s.cfg s.dev → DevSound s.cfg t.dev
  lawless : s.dev.lawless = true → t.dev.lawless = true
  hist : ∃ l, (∀ e ∈ l, accessOk s.cfg e) ∧ t.eng.hist = s.eng.hist ++ l

namespace StepKeeps

theorem refl (s : State) : StepKeeps s s := ⟨rfl, fun _ h => h, id, [], by simp, by simp⟩

theorem trans {s t u : State} (h : StepKeeps s t) (k : StepKeeps t u) : StepKeeps s u := by
  obtain ⟨l, hl, hh⟩ := h.hist
  obtain ⟨m, hm, hk⟩ := k.hist
  have ks := k.sound
  rw [h.cfg] at ks hm
  refine ⟨k.cfg.trans h.cfg, fun hv hd => ks hv (h.sound hv hd), fun hx => k.lawless (h.lawless hx), l ++ m, ?_, ?_⟩
  · intro e he
    exact (List.mem_append.mp he).elim (hl e) (hm e)
  · rw [hk, hh, List.append_assoc]

/-- A transition that touches neither the configuration, the device nor the history. -/
theorem of_frame {s t : State} (hc : t.cfg = s.cfg) (hd : t.dev = s.dev) (hh : t.eng.hist = s.eng.hist) :
    StepKeeps s t :=
  ⟨hc, fun _ h => hd ▸ h, fun h => hd ▸ h, [], by simp, by simp [hh]⟩

theorem of_keeps {s t : State} (h : Keeps s t) : StepKeeps s t :=
  ⟨h.cfg, h.sound, h.lawless, [], by simp, by simp [h.eng]⟩

theorem of_serve {i : Instr} {s t : State} (h : ServeStep i s t) : StepKeeps s t := by
  obtain ⟨l, -, -, hok, hh, -⟩ := h.hist
  exact ⟨h.cfg, h.sound, h.lawless, l, hok, hh⟩

end StepKeeps

theorem takeTurn_stepKeeps (s : State) : StepKeeps s s.takeTurn.2 := .of_frame (by simp) (by simp) (by simp)

/-- Taking a request from the port changes the port and the offer only. -/
theorem pick_take_frame (m : Posted) (s : State) :
    (s.pick.2.take m).cfg = s.cfg ∧ (s.pick.2.take m).dev = s.dev ∧
      (s.pick.2.take m).eng = { s.eng with offer := m.sender } := by
  have h := pick_drawOnly s
  simp [State.take, State.mapEng, h.cfg, h.dev, h.eng]

/-- Every instruction that answers a next state. -/
theorem exec_stepKeeps {i : Instr} {s t : State} (h : exec i s = .next t) : StepKeeps s t := by
  obtain rfl | ⟨-, hk⟩ | ⟨_, -, -, hs⟩ | ⟨-, ha⟩ := exec_cases h
  · exact .refl _
  · exact .of_keeps hk
  · exact .of_serve hs
  · exact .of_frame ha.cfg ha.dev ha.hist

/-- Every step that answers a next state. -/
theorem step_keeps {s t : State} (h : step s = .next t) : StepKeeps s t := by
  obtain ⟨u, rfl, -, hc⟩ := step_cases h
  refine (takeTurn_stepKeeps s).trans ?_
  obtain ⟨-, ⟨_, -, he⟩ | ⟨-, -, rfl⟩ | ⟨m, i, -, -, -, he⟩⟩ | ⟨-, hk⟩ | ⟨-, rfl | ⟨w, rest, r, v, -, rfl⟩⟩ := hc
  · exact exec_stepKeeps he
  · exact .of_keeps (.ofDraw (pick_drawOnly _))
  · obtain ⟨hc, hd, hg⟩ := pick_take_frame m s.takeTurn.2
    exact (StepKeeps.of_frame hc hd (by rw [hg])).trans (exec_stepKeeps he)
  · exact .of_keeps hk
  · exact .refl _
  · have hf : StepKeeps s.takeTurn.2 { s.takeTurn.2 with foreign := rest } := .of_frame rfl rfl rfl
    exact hf.trans (.of_keeps (devWrite_keeps _ _ _))

theorem step_valid {s t : State} (h : step s = .next t) : s.cfg.valid = true := by
  obtain ⟨_, -, hv, -⟩ := step_cases h
  exact hv

theorem devSound_iff (s : State) : DevSound s.cfg s.dev ↔ MemInv s ∧ CursorInv s ∧ BufferInv s :=
  ⟨fun h => ⟨h.mem, h.cursor, h.rx, h.tx⟩, fun ⟨hm, hc, hr, ht⟩ => ⟨hm, hc, hr, ht⟩⟩

/-- Settles O53: each operation of the device keeps it sound, and every step is made of those. -/
theorem stepKeepsDeviceSound : Obligations.StepKeepsDeviceSound := by
  unfold Obligations.StepKeepsDeviceSound
  intro s t hs h
  have hk := step_keeps h
  have hd := hk.sound (step_valid h) ((devSound_iff s).mpr hs)
  rw [← hk.cfg] at hd
  exact (devSound_iff t).mp hd

/-- Settles O49: a step appends accesses that R30 gives the engine, or none. -/
theorem accessesStayInWindow : Obligations.AccessesStayInWindow := by
  unfold Obligations.AccessesStayInWindow
  intro s t hs h
  obtain ⟨hc, -, -, l, hl, hh⟩ := step_keeps h
  refine ⟨fun e he => ?_, hc⟩
  rw [hh] at he
  rw [hc]
  exact (List.mem_append.mp he).elim (hs e) (hl e)

/-! ### The mode and the owner -/

theorem taskMode_eq (k : Task) : taskMode k = if taskInstr k = .init then .uninit else .idle := by
  cases k <;> simp [taskMode, taskInstr]

theorem taskMode_ne_active (k : Task) : taskMode k ≠ .active := by cases k <;> simp [taskMode]

/-- The mode discipline of R24 and R25 speaks of the engine alone. -/
theorem modeOwner_congr {s t : State} (he : t.eng = s.eng) (h : ModeInv s ∧ OwnerInv s) :
    ModeInv t ∧ OwnerInv t := by
  unfold ModeInv OwnerInv at *
  rw [he]
  exact h

/-- The discipline of a state whose engine serves a request. -/
theorem modeOwner_serving {s : State} {j : Service} (hj : s.eng.job = some j) :
    ModeInv s ∧ OwnerInv s ↔
      s.eng.mode = .active ∧ j.resume = taskMode j.task ∧ (j.resume = .uninit → s.eng.owner = none) ∧
        ownerAllows s.eng.owner j.sender = true := by
  unfold ModeInv OwnerInv
  simp only [hj, Option.some.injEq, forall_eq']
  constructor
  · rintro ⟨⟨h1, h2⟩, -, h3, h4⟩
    exact ⟨h1, h2, h3, h4⟩
  · rintro ⟨h1, h2, h3, h4⟩
    exact ⟨⟨h1, h2⟩, by simp [h1], h3, h4⟩

/-- The discipline of a state whose engine serves none. -/
theorem modeOwner_waiting {s : State} (hj : s.eng.job = none) :
    ModeInv s ∧ OwnerInv s ↔ s.eng.mode ≠ .active ∧ (s.eng.mode = .uninit → s.eng.owner = none) := by
  unfold ModeInv OwnerInv
  simp [hj]

/-- One step of the request in service keeps the discipline: an access or a trace event leaves the mode, the owner, the
sender and the mode to return to; the response returns to that mode, or to Idle after INIT. -/
theorem serveStep_modeOwner {i : Instr} {s t : State} {j : Service} (hj : s.eng.job = some j)
    (hi : taskInstr j.task = i) (hs : ServeStep i s t) (h : ModeInv s ∧ OwnerInv s) : ModeInv t ∧ OwnerInv t := by
  obtain ⟨ha, hr, ho, hw⟩ := (modeOwner_serving hj).mp h
  obtain ⟨-, hacc⟩ | ⟨ev, rest, -, rfl⟩ | ⟨r, rest, -, rfl⟩ := hs.goes j hj
  · obtain ⟨l, f, -, -, hf, he⟩ := hacc.eng
    obtain ⟨f1, f2, f3⟩ := hf j
    have htj : t.eng.job = some (f j) := by rw [he, hj]; rfl
    refine (modeOwner_serving htj).mpr ⟨by rw [he]; exact ha, ?_, ?_, ?_⟩
    · rw [f2, hr, taskMode_eq, taskMode_eq, hi, f3 hi]
    · rw [f2, he]
      exact ho
    · rw [f1, he]
      exact hw
  · exact (modeOwner_serving (j := { j with todo := rest }) (by simp [hj])).mpr (by simpa using ⟨ha, hr, ho, hw⟩)
  · rw [finish_of_job r s hj]
    refine (modeOwner_waiting rfl).mpr ⟨?_, ?_⟩ <;> dsimp only <;> split
    · simp
    · rw [hr]
      exact taskMode_ne_active _
    · simp
    · exact ho

/-- Accepting a request keeps the discipline: the task returns to the mode it was accepted in, and its sender is one
the owner lets through. -/
theorem accepted_modeOwner {i : Instr} {s t : State} (hj : s.eng.job = none) (ha : Accepted i s t)
    (h : ModeInv s ∧ OwnerInv s) : ModeInv t ∧ OwnerInv t := by
  obtain ⟨-, ho⟩ := (modeOwner_waiting hj).mp h
  obtain ⟨k, -, -, hm, hown, hk, htj, -⟩ | ⟨-, hm, htj, hown, -⟩ := ha.goes
  · refine (modeOwner_serving htj).mpr ⟨hm, hk, ?_, ?_⟩
    · rw [hown]
      exact ho
    · rw [hown]
      exact ha.allowed
  · refine (modeOwner_waiting (htj.trans hj)).mpr ⟨by rw [hm]; exact ha.idle, fun hu => ?_⟩
    rw [hm] at hu
    obtain hown | hidle := hown
    · rw [hown]
      exact ho hu
    · rw [hu] at hidle
      cases hidle

/-- An instruction that is none of the device's keeps the discipline. -/
theorem exec_modeOwner {i : Instr} {s t : State} (hd : deviceInstr i = false) (he : exec i s = .next t)
    (h : ModeInv s ∧ OwnerInv s) : ModeInv t ∧ OwnerInv t := by
  obtain rfl | ⟨hi, -⟩ | ⟨j, hj, hi, hs⟩ | ⟨-, ha⟩ := exec_cases he
  · exact h
  · rw [hd] at hi
    cases hi
  · exact serveStep_modeOwner hj hi hs h
  · refine accepted_modeOwner ?_ ha h
    cases hj : s.eng.job with
    | none => rfl
    | some j => exact absurd ((modeOwner_serving hj).mp h).1 ha.idle

/-- Settles O54: by the agent whose turn it is; only the engine's own turn changes the engine. -/
theorem stepKeepsModeAndOwner : Obligations.StepKeepsModeAndOwner := by
  unfold Obligations.StepKeepsModeAndOwner
  intro s t hs h
  obtain ⟨u, rfl, -, hc⟩ := step_cases h
  have hu : ModeInv s.takeTurn.2 ∧ OwnerInv s.takeTurn.2 := modeOwner_congr (by simp) hs
  obtain ⟨-, ⟨_, -, he⟩ | ⟨-, -, rfl⟩ | ⟨m, i, hj, -, hi, he⟩⟩ | ⟨-, hk⟩ | ⟨-, rfl | ⟨w, rest, r, v, -, rfl⟩⟩ := hc
  · exact exec_modeOwner (taskInstr_not_device _) he hu
  · exact modeOwner_congr (pick_drawOnly _).eng hu
  · refine exec_modeOwner (decodeRequest_not_device hi) he ?_
    obtain ⟨-, -, hg⟩ := pick_take_frame m s.takeTurn.2
    have hw := (modeOwner_waiting hj).mp hu
    exact (modeOwner_waiting (by rw [hg]; exact hj)).mpr (by rw [hg]; exact hw)
  · exact modeOwner_congr hk.eng hu
  · exact hu
  · exact modeOwner_congr (by simp) hu

end Sys2Proof.Machine
end

section
/-! ## The window (10_state.md R29, R30; 20_memory.md R65) -/

namespace Sys2Proof.Machine

/-- The LUT index of a LUT register's offset (R34). -/
theorem lutIndex_lut (p : Params) (j : Fin 64) : lutIndex p (p.off.lut + 4 * j.val) = some j := by
  have hj := j.isLt
  have hd : (p.off.lut + 4 * j.val - p.off.lut) / 4 = j.val := by omega
  unfold lutIndex
  rw [dif_pos ⟨by omega, by omega, by omega⟩]
  exact congrArg some (Fin.ext hd)

/-- An offset that no single register has, nor the RX window, nor `RXPTR_CLR`, is looked up in the LUT. -/
theorem roleAt_of_not_single {p : Params} {a : Nat} (hs : ∀ b ∈ p.off.singles, a ≠ b) :
    roleAt p a =
      if a = p.off.rxdata then some (.rxdata 0)
      else if a = p.off.rxptrClr then some .rxptrClr
      else (lutIndex p a).map .lut := by
  simp only [Offsets.singles, List.forall_mem_cons] at hs
  simp [roleAt, hs]

/-- In a valid configuration the register at a role's offset is that role's, `RXPTR_CLR` and the words of `RXDATA`
past the first apart (R30, R35). -/
theorem roleAt_offOf {p : Params} (hv : p.valid = true) {r : Role} (hr : r ≠ .rxptrClr)
    (h0 : ∀ m, r = .rxdata m → m = 0) : roleAt p (offOf p r) = some r := by
  have hw := windowFacts hv
  have hd := List.nodup_reverse.mpr hw.spread
  simp only [List.reverse_cons, List.reverse_nil, List.nil_append, List.cons_append, List.nodup_cons, List.mem_cons,
    List.not_mem_nil, or_false, not_or] at hd
  cases r with
  | lut j =>
    have hj := j.isLt
    have hrx := hw.rxClear
    have hclear : ∀ a, a < p.off.lut ∨ p.off.lut + 256 ≤ a → offOf p (.lut j) ≠ a := fun a ha => by
      simp only [offOf]
      omega
    have hptr : offOf p (.lut j) ≠ p.off.rxptrClr := by
      obtain h | h | ⟨-, -, h, -⟩ := hw.rxptr
      · rw [h]
        exact hclear _ (hw.clear _ (by simp [Offsets.singles])).1
      · rw [h]
        exact hclear _ (hw.clear _ (by simp [Offsets.singles])).1
      · exact hclear _ h
    rw [roleAt_of_not_single (fun b hb => hclear b (hw.clear b hb).1), if_neg (hclear _ hrx), if_neg hptr]
    simp only [offOf, lutIndex_lut, Option.map_some]
  | rxdata m =>
    obtain rfl := h0 m rfl
    simp only [offOf, Nat.mul_zero, Nat.add_zero]
    rw [roleAt_of_not_single (fun b hb => (hw.clear b hb).2.symm), if_pos rfl]
  | rxptrClr => exact absurd rfl hr
  | ctrl | ipcmd | flshcfg | bufdesc | addr | rxctl | status | flags | txstat | sptrclr | lutkey | lckcr | txdata =>
    simp [roleAt, offOf, hd]

/-- Each register R30 gives the engine is aligned and in the window; `RXPTR_CLR` is another matter (log 15). -/
theorem offOf_aligned {p : Params} (hv : p.valid = true) {r : Role} (hr : engineReads r = true ∨ engineWrites r = true)
    (hx : r ≠ .rxptrClr) : offOf p r % 4 = 0 ∧ offOf p r < windowBytes := by
  have hw := windowFacts hv
  cases r with
  | lut j =>
    have hj := j.isLt
    have ha := hw.lutAligned
    have he := hw.lutEnd
    simp only [offOf, windowBytes]
    omega
  | rxdata m =>
    obtain rfl : m = 0 := by simpa [engineReads, engineWrites] using hr
    exact ⟨hw.rxAligned, hw.rxEnd⟩
  | rxptrClr => exact absurd rfl hx
  | ctrl | ipcmd | flshcfg | bufdesc | addr | rxctl | status | flags | txstat | sptrclr | lutkey | lckcr | txdata =>
    exact hw.aligned _ (by simp [Offsets.singles, offOf])

theorem offOf_rxptrRole (p : Params) : offOf p (rxptrRole p) = p.off.rxptrClr := by
  unfold rxptrRole
  split_ifs with h1 h2
  · exact h1.symm
  · exact h2.symm
  · rfl

theorem rxptrClr_aligned {p : Params} (hv : p.valid = true) :
    p.off.rxptrClr % 4 = 0 ∧ p.off.rxptrClr < windowBytes := by
  have hw := windowFacts hv
  obtain h | h | ⟨h1, h2, -⟩ := hw.rxptr
  · rw [h]
    exact hw.aligned _ (by simp [Offsets.singles])
  · rw [h]
    exact hw.aligned _ (by simp [Offsets.singles])
  · exact ⟨h1, h2⟩

/-- Settles O10: the register at a role's offset is that role's, so no two share one. -/
theorem windowOffsetsAlignedDistinct : Obligations.WindowOffsetsAlignedDistinct := by
  unfold Obligations.WindowOffsetsAlignedDistinct
  intro p hv
  refine ⟨fun r hr hx => offOf_aligned hv hr hx, ⟨offOf_rxptrRole p, rxptrClr_aligned hv⟩,
    fun q r hq hr hq0 hr0 he => ?_⟩
  have h := roleAt_offOf hv hq hq0
  rw [he, roleAt_offOf hv hr hr0] at h
  exact (Option.some.inj h).symm

end Sys2Proof.Machine
end

section
/-! ## What a step comes to, by whose turn it is (00_scope.md section 3; 10_state.md R45, R46, R53) -/

namespace Sys2Proof.Machine

/-- What the step makes of what was fetched. -/
def Fetched.outcome : Fetched → Host.Outcome State Fault Refusal
  | .run i t => exec i t
  | .done o => o

theorem step_eq (s : State) : step s = (fetch s).outcome := by
  unfold step
  cases fetch s <;> rfl

section
variable {s : State} (hv : s.cfg.valid = true)
include hv

theorem step_engine (ht : s.takeTurn.1 = .engine) : step s = (fetchEngine s.takeTurn.2).outcome := by
  rw [step_eq, fetch, if_pos hv]
  simp only [ht]

theorem step_device (ht : s.takeTurn.1 = .device) : step s = (fetchDevice s.takeTurn.2).outcome := by
  rw [step_eq, fetch, if_pos hv]
  simp only [ht]

theorem step_bus (ht : s.takeTurn.1 = .bus) : step s = (fetchBus s.takeTurn.2).outcome := by
  rw [step_eq, fetch, if_pos hv]
  simp only [ht]
end

/-! ### What each agent fetches -/

section
variable {s : State}

theorem fetchEngine_serving {j : Service} (hj : s.eng.job = some j) : fetchEngine s = .run (taskInstr j.task) s := by
  simp only [fetchEngine, hj]

theorem fetchEngine_taken {m : Posted} {i : Instr} (hj : s.eng.job = none) (hp : s.pick.1 = some m)
    (hi : decodeRequest m.msg = .ok i) : fetchEngine s = .run i (s.pick.2.take m) := by
  simp only [fetchEngine, hj, hp, hi]

theorem fetchDevice_idle (hf : s.dev.inFlight = none) : fetchDevice s = .done (.next s) := by
  simp only [fetchDevice, hf]

/-- A transaction without a constrained outcome, or at a controller that is not enabled (R31). -/
theorem fetchDevice_wild {f : Flight} (hf : s.dev.inFlight = some f)
    (hw : f.wild = true ∨ s.dev.enabled s.cfg = false) : fetchDevice s = .done (.next s.setWild.wildStep) := by
  have h : (f.wild || !s.dev.enabled s.cfg) = true := by simpa using hw
  simp only [fetchDevice, hf, h, if_true]

section
variable {f : Flight} (hf : s.dev.inFlight = some f) (hw : f.wild = false) (he : s.dev.enabled s.cfg = true)
include hf hw he

/-- A cursor past the eighth instruction (R46). -/
theorem fetchDevice_past (hc : 8 ≤ s.dev.seqPtr) : fetchDevice s = .done (.next s.complete) := by
  simp [fetchDevice, hf, hw, he, instrPerSeq, hc]

theorem fetchDevice_run (hc : s.dev.seqPtr < 8) {h : Half} (hh : s.dev.lutHalf s.cfg f.seq s.dev.seqPtr = some h) :
    fetchDevice s = .run (decodeLut s.cfg h) s := by
  simp [fetchDevice, hf, hw, he, instrPerSeq, Nat.not_le.mpr hc, hh]

/-- An instruction that was never written (R53). -/
theorem fetchDevice_unwritten (hc : s.dev.seqPtr < 8) (hh : s.dev.lutHalf s.cfg f.seq s.dev.seqPtr = none) :
    fetchDevice s = .done (.next s.runUnwritten) := by
  simp [fetchDevice, hf, hw, he, instrPerSeq, Nat.not_le.mpr hc, hh]
end

section
variable {off : Nat} {v : Word} {rest : List (Nat × Word)} (hs : s.foreign = (off, v) :: rest)
include hs

theorem fetchBus_none (hr : roleAt s.cfg off = none) : fetchBus s = .done (.fault (.noSuchRegister off)) := by
  simp only [fetchBus, hs, hr]

theorem fetchBus_readOnly {r : Role} (hr : roleAt s.cfg off = some r) (ho : readOnly r = true) :
    fetchBus s = .done (.fault (.noSuchRegister off)) := by
  simp only [fetchBus, hs, hr, ho, if_true]

theorem fetchBus_write {r : Role} (hr : roleAt s.cfg off = some r) (ho : readOnly r = false) (hi : r ≠ .ipcmd) :
    fetchBus s = .done (.next ({ s with foreign := rest }.devWrite r v)) := by
  simp [fetchBus, hs, hr, ho, hi]

theorem fetchBus_ipcmd {i : Instr} (hr : roleAt s.cfg off = some .ipcmd) (hi : decodeIpcmd v = .ok i) :
    fetchBus s = .run i { s with foreign := rest } := by
  simp [fetchBus, hs, hr, hi, readOnly]
end
end

/-- The device of a transaction that is going wild: only the mark changes. -/
theorem setWild_dev {s : State} {f : Flight} (hf : s.dev.inFlight = some f) :
    s.setWild.dev = { s.dev with inFlight := some { f with wild := true } } := by
  simp [State.setWild, hf]

theorem runUnwritten_eq {s : State} {f : Flight} (hf : s.dev.inFlight = some f) :
    s.runUnwritten =
      { s with dev := { s.dev with inFlight := some { f with wild := true }, lawless := true } } := by
  simp [State.runUnwritten, State.setWild, State.setLawless, State.mapDev, hf]

/-- A device turn of a transaction without a constrained outcome: its buffers, its cursor and its completion are all
that may change (log 7). -/
theorem setWild_wildStep_dev {s : State} {f : Flight} (hf : s.dev.inFlight = some f) :
    ∃ rx tx c g,
      s.setWild.wildStep.dev = { s.dev with rxBuf := rx, txBuf := tx, seqPtr := c, inFlight := g } ∧
        (rx = s.dev.rxBuf ∨ rx.length ≤ s.cfg.rxCapacity) ∧ (tx = s.dev.txBuf ∨ tx = s.dev.txBuf.tail) ∧
        (c = s.dev.seqPtr ∨ c ≤ 8) ∧ (g = none ∨ g = some { f with wild := true }) := by
  obtain ⟨rx, tx, c, g, he, hr, ht, hc, hg⟩ := wildStep_dev s.setWild
  rw [setWild_dev hf] at he hr ht hc hg
  exact ⟨rx, tx, c, g, he, hr, ht, hc, hg⟩

/-- Settles O46: by whose turn it is, from what that agent fetches. -/
theorem stepRunsDecodedInstr : Obligations.StepRunsDecodedInstr := by
  unfold Obligations.StepRunsDecodedInstr
  intro s hv
  refine ⟨fun ht j hj => ?_, fun ht hj m i hp hi => ?_, fun ht f h hf hw he hc hh => ?_,
    fun ht f hf hw he => ⟨fun hc => ?_, fun hc hh => ?_⟩, fun ht f hf hw => ?_, fun ht w i rest hs hi => ?_,
    fun ht off v rest hs => ⟨fun hr => ?_, fun r hr => ⟨fun ho => ?_, fun ho hn => ?_⟩⟩⟩
  · rw [step_engine hv ht, fetchEngine_serving (by simpa using hj), Fetched.outcome]
  · rw [step_engine hv ht, fetchEngine_taken (by simpa using hj) hp hi, Fetched.outcome]
  · rw [step_device hv ht, fetchDevice_run (by simpa using hf) hw (by simpa using he) (by simpa using hc)
      (by simpa using hh), Fetched.outcome, takeTurn_cfg]
  · rw [step_device hv ht, fetchDevice_past (by simpa using hf) hw (by simpa using he) (by simpa using hc),
      Fetched.outcome, State.complete, State.mapDev, takeTurn_dev]
  · rw [step_device hv ht, fetchDevice_unwritten (by simpa using hf) hw (by simpa using he) (by simpa using hc)
      (by simpa using hh), Fetched.outcome, runUnwritten_eq (by simpa using hf), takeTurn_dev]
  · have hu : s.takeTurn.2.dev.inFlight = some f := by simpa using hf
    obtain ⟨rx, tx, c, g, hd, hr, htx, hc, hg⟩ := setWild_wildStep_dev hu
    rw [takeTurn_dev] at hd hr htx hc
    rw [takeTurn_cfg] at hr
    refine ⟨_, rx, tx, c, g, ?_, ?_, hd, hr, htx, hc, hg⟩
    · rw [step_device hv ht, fetchDevice_wild hu (by simpa using hw), Fetched.outcome]
    · exact .of ((setWild_keeps _).trans (wildStep_keeps _)).toDevOnly
  · rw [step_bus hv ht, fetchBus_ipcmd (by simpa using hs)
      (by simpa [offOf] using roleAt_offOf hv (r := .ipcmd) (by simp) (by simp)) hi, Fetched.outcome]
  · rw [step_bus hv ht, fetchBus_none (by simpa using hs) (by simpa using hr), Fetched.outcome]
  · rw [step_bus hv ht, fetchBus_readOnly (by simpa using hs) (by simpa using hr) ho, Fetched.outcome]
  · rw [step_bus hv ht, fetchBus_write (by simpa using hs) (by simpa using hr) ho hn, Fetched.outcome]

/-! ## The LUT instructions at the device (40_lut_instructions.md R100 to R119) -/

/-- Every instruction of the device: STOP, an unassigned opcode, the IP-command word, or a phase, which moves no
buffer data, reads, writes, or is JUMP_ON_CS. -/
theorem device_cases {i : Instr} (h : deviceInstr i = true) :
    (∃ pad x, i = .stop pad x) ∨ (∃ n pad x, i = .unassigned n pad x) ∨ (∃ q z, i = .ipcmd q z) ∨
      ∃ pad f, (∀ s, exec i s = lutPhase i pad f s) ∧ i.isStop = false ∧
        ((∀ p, constrainedInstr p i = padWired p pad) ∧ (f = phaseDone i ∨ f = phaseRead i ∨ f = phaseWrite i) ∨
          (∀ p, constrainedInstr p i = false) ∧ f = fun t => (t.record i).setWild) := by
  cases i
  case stop pad x => exact .inl ⟨pad, x, rfl⟩
  case unassigned n pad x => exact .inr (.inl ⟨n, pad, x, rfl⟩)
  case ipcmd q z => exact .inr (.inr (.inl ⟨q, z, rfl⟩))
  case encode | decode | writeSeq | issue | drain | fill | acquire | release | init => cases h
  case jumpOnCs pad x => exact .inr (.inr (.inr ⟨pad, _, fun _ => rfl, rfl, .inr ⟨fun _ => rfl, rfl⟩⟩))
  case read pad x | readDdr pad x =>
    exact .inr (.inr (.inr ⟨pad, _, fun _ => rfl, rfl, .inl ⟨fun _ => rfl, .inr (.inl rfl)⟩⟩))
  case write pad x | writeDdr pad x =>
    exact .inr (.inr (.inr ⟨pad, _, fun _ => rfl, rfl, .inl ⟨fun _ => rfl, .inr (.inr rfl)⟩⟩))
  case cmd pad x | addr pad x | dummy pad x | mode pad x | mode2 pad x | mode4 pad x | addrDdr pad x | modeDdr pad x |
      mode2Ddr pad x | mode4Ddr pad x | dataLearn pad x =>
    exact .inr (.inr (.inr ⟨pad, _, fun _ => rfl, rfl, .inl ⟨fun _ => rfl, .inl rfl⟩⟩))

section
variable {s : State} {i : Instr} {pad : BitVec 2} {g : State → State}

theorem lutPhase_idle (hf : s.dev.inFlight = none) : lutPhase i pad g s = .refused .noTransaction := by
  simp only [lutPhase, hf]

theorem lutPhase_wired {f : Flight} (hf : s.dev.inFlight = some f) (hp : padWired s.cfg pad = true) :
    lutPhase i pad g s = .next (g s) := by
  simp only [lutPhase, hf, hp, if_true]

theorem lutPhase_unwired {f : Flight} (hf : s.dev.inFlight = some f) (hp : padWired s.cfg pad = false) :
    lutPhase i pad g s = .next (s.record i).setWild := by
  simp [lutPhase, hf, hp]

/-- A phase that is done, whole: it is recorded, the cursor moves on, and after the eighth instruction the transaction
is complete (R46). -/
theorem phaseDone_eq {f : Flight} (hf : s.dev.inFlight = some f) :
    phaseDone i s =
      { s with
        dev :=
          { s.dev with
            executed := s.dev.executed ++ [i]
            seqPtr := if s.dev.seqPtr + 1 < 8 then s.dev.seqPtr + 1 else 8
            inFlight := if s.dev.seqPtr + 1 < 8 then some f else none } } := by
  unfold phaseDone State.advance instrPerSeq
  by_cases hc : s.dev.seqPtr + 1 < 8 <;>
    simp [State.record, State.complete, State.mapDev, hc, hf]
end

/-- Settles O20: each of these phases is done in its one step. -/
theorem phasesAdvanceCursor : Obligations.PhasesAdvanceCursor := by
  unfold Obligations.PhasesAdvanceCursor
  intro s f pad x i hf hp hi
  have he : exec i s = lutPhase i pad (phaseDone i) s := by
    simp only [List.mem_cons, List.not_mem_nil, or_false] at hi
    rcases hi with rfl | rfl | rfl | rfl | rfl | rfl | rfl | rfl | rfl | rfl | rfl <;> rfl
  rw [he, lutPhase_wired hf hp, phaseDone_eq hf]

/-- Settles O25: every LUT instruction asks for the transaction in flight first. -/
theorem lutInstrNeedsTransaction : Obligations.LutInstrNeedsTransaction := by
  unfold Obligations.LutInstrNeedsTransaction
  intro s n pad x i hf hi
  have hd : deviceInstr i = true ∧ ∀ q z, i ≠ .ipcmd q z := by
    revert i
    simp [deviceInstr]
  obtain ⟨pad, x, rfl⟩ | ⟨n, pad, x, rfl⟩ | ⟨q, z, rfl⟩ | ⟨pad, g, he, -⟩ := device_cases hd.1
  · simp only [exec, execStop, hf]
  · simp only [exec, execUnassigned, hf]
  · exact absurd rfl (hd.2 q z)
  · rw [he, lutPhase_idle hf]

/-! ### What a transaction with a constrained outcome may change -/

/-- Of the device only the transaction's own part differs: its cursor, its record, its end, and the buffers. -/
def TransactionOnly (d e : Device) : Prop :=
  ∃ c g rx tx x, e = { d with seqPtr := c, inFlight := g, rxBuf := rx, txBuf := tx, executed := x }

namespace TransactionOnly

theorem refl (d : Device) : TransactionOnly d d := ⟨_, _, _, _, _, rfl⟩

theorem trans {d e f : Device} (h : TransactionOnly d e) (k : TransactionOnly e f) : TransactionOnly d f := by
  obtain ⟨_, _, _, _, _, rfl⟩ := h
  obtain ⟨_, _, _, _, _, rfl⟩ := k
  exact ⟨_, _, _, _, _, rfl⟩

theorem ite {d : Device} {t u : State} {c : Prop} [Decidable c] (h : TransactionOnly d t.dev)
    (k : TransactionOnly d u.dev) : TransactionOnly d (if c then t else u).dev := by split <;> assumption

end TransactionOnly

theorem complete_transactionOnly (s : State) : TransactionOnly s.dev s.complete.dev := ⟨_, _, _, _, _, rfl⟩

theorem setWild_transactionOnly (s : State) : TransactionOnly s.dev s.setWild.dev := ⟨_, _, _, _, _, rfl⟩

theorem record_transactionOnly (i : Instr) (s : State) : TransactionOnly s.dev (s.record i).dev :=
  ⟨_, _, _, _, _, rfl⟩

theorem draw_transactionOnly (s : State) : TransactionOnly s.dev s.draw.2.dev := by
  rw [draw_dev]
  exact .refl _

theorem drawRx_transactionOnly (s : State) : TransactionOnly s.dev s.drawRx.dev := by
  obtain ⟨_, -, hd⟩ := drawRx_dev s
  rw [hd]
  exact ⟨_, _, _, _, _, rfl⟩

theorem txTake_transactionOnly (s : State) : TransactionOnly s.dev s.txTake.dev := ⟨_, _, _, _, _, rfl⟩

theorem advance_transactionOnly (s : State) : TransactionOnly s.dev s.advance.dev :=
  .ite ⟨_, _, _, _, _, rfl⟩ ⟨_, _, _, _, _, rfl⟩

theorem rxPush_transactionOnly (b : Byte) (s : State) : TransactionOnly s.dev (s.rxPush b).dev :=
  .ite ⟨_, _, _, _, _, rfl⟩ ((drawRx_transactionOnly s).trans (setWild_transactionOnly _))

theorem phaseDone_transactionOnly (i : Instr) (s : State) : TransactionOnly s.dev (phaseDone i s).dev :=
  (record_transactionOnly i s).trans (advance_transactionOnly _)

theorem phaseRead_transactionOnly (i : Instr) (s : State) : TransactionOnly s.dev (phaseRead i s).dev := by
  have hb := TransactionOnly.ite (c := s.draw.1.getLsbD 8)
    ((draw_transactionOnly s).trans (rxPush_transactionOnly (s.draw.1.extractLsb' 0 8) _)) (draw_transactionOnly s)
  exact .ite (hb.trans (phaseDone_transactionOnly i _)) hb

theorem phaseWrite_transactionOnly (i : Instr) (s : State) : TransactionOnly s.dev (phaseWrite i s).dev := by
  have hb := TransactionOnly.ite (c := s.draw.1.getLsbD 8)
    ((draw_transactionOnly s).trans (txTake_transactionOnly _)) (draw_transactionOnly s)
  exact .ite (hb.trans (phaseDone_transactionOnly i _)) hb

/-- A constrained LUT instruction changes nothing of the LUT, the lock and the registers. -/
theorem exec_constrained_transactionOnly {i : Instr} {s t : State} (hi : constrainedInstr s.cfg i = true)
    (h : exec i s = .next t) (hd : deviceInstr i = true) : TransactionOnly s.dev t.dev := by
  obtain ⟨pad, x, rfl⟩ | ⟨n, pad, x, rfl⟩ | ⟨q, z, rfl⟩ | ⟨pad, g, he, -, ⟨hp, hg⟩ | ⟨hn, -⟩⟩ := device_cases hd
  · have hz : pad = 0#2 ∧ x = 0#8 := by simpa [constrainedInstr] using hi
    simp only [exec, execStop, hz, and_self, if_true] at h
    split at h <;> cases h
    exact (record_transactionOnly _ s).trans (complete_transactionOnly _)
  · cases hi
  · cases hi
  · rw [he] at h
    rw [hp] at hi
    cases hf : s.dev.inFlight with
    | none => rw [lutPhase_idle hf] at h; cases h
    | some f =>
      rw [lutPhase_wired hf hi] at h
      cases h
      obtain rfl | rfl | rfl := hg
      · exact phaseDone_transactionOnly i s
      · exact phaseRead_transactionOnly i s
      · exact phaseWrite_transactionOnly i s
  · rw [hn] at hi
    cases hi

/-- What a device turn that answers a next state has done, from the state `u` in which the turn is taken. -/
theorem deviceTurn_cases {s t : State} (ht : s.takeTurn.1 = .device) (h : step s = .next t) :
    (s.dev.inFlight = none ∧ t = s.takeTurn.2) ∨
      ∃ f, s.dev.inFlight = some f ∧
        (((f.wild = true ∨ s.dev.enabled s.cfg = false) ∧ t = s.takeTurn.2.setWild.wildStep) ∨
          (f.wild = false ∧ s.dev.enabled s.cfg = true ∧
            (t = s.takeTurn.2.complete ∨
              (s.dev.seqPtr < 8 ∧ s.dev.lutHalf s.cfg f.seq s.dev.seqPtr = none ∧ t = s.takeTurn.2.runUnwritten) ∨
              (s.dev.seqPtr < 8 ∧ ∃ h, s.dev.lutHalf s.cfg f.seq s.dev.seqPtr = some h ∧
                exec (decodeLut s.cfg h) s.takeTurn.2 = .next t)))) := by
  have hu := step_device (step_valid h) ht
  rw [h] at hu
  cases hf : s.dev.inFlight with
  | none =>
    rw [fetchDevice_idle (by simpa using hf)] at hu
    cases hu
    exact .inl ⟨rfl, rfl⟩
  | some f =>
    have hf' : s.takeTurn.2.dev.inFlight = some f := by simpa using hf
    refine .inr ⟨f, rfl, ?_⟩
    by_cases hw : f.wild = true ∨ s.dev.enabled s.cfg = false
    · rw [fetchDevice_wild hf' (by simpa using hw)] at hu
      cases hu
      exact .inl ⟨hw, rfl⟩
    · have hw' : f.wild = false ∧ s.dev.enabled s.cfg = true := by simpa using hw
      obtain ⟨hw1, hw2⟩ := hw'
      have he : s.takeTurn.2.dev.enabled s.takeTurn.2.cfg = true := by simpa using hw2
      refine .inr ⟨hw1, hw2, ?_⟩
      by_cases hc : s.dev.seqPtr < 8
      · cases hh : s.dev.lutHalf s.cfg f.seq s.dev.seqPtr with
        | none =>
          rw [fetchDevice_unwritten hf' hw1 he (by simpa using hc) (by simpa using hh)] at hu
          cases hu
          exact .inr (.inl ⟨hc, rfl, rfl⟩)
        | some h =>
          rw [fetchDevice_run hf' hw1 he (by simpa using hc) (by simpa using hh), Fetched.outcome, takeTurn_cfg] at hu
          exact .inr (.inr ⟨hc, h, rfl, hu.symm⟩)
      · rw [fetchDevice_past hf' hw1 he (by simpa using hc)] at hu
        cases hu
        exact .inl rfl

/-- A device turn whose transaction and instruction have a constrained outcome changes the transaction's part only. -/
theorem deviceTurn_transactionOnly {s t : State} (ht : s.takeTurn.1 = .device) (hc : ConstrainedTurn s)
    (h : step s = .next t) : TransactionOnly s.dev t.dev := by
  obtain ⟨-, rfl⟩ | ⟨f, hf, hcases⟩ := deviceTurn_cases ht h
  · rw [takeTurn_dev]
    exact .refl _
  obtain ⟨hw, he, hinstr⟩ := hc f hf
  obtain ⟨hn, -⟩ | ⟨-, -, rfl | ⟨hlt, hh, -⟩ | ⟨hlt, h', hh, hx⟩⟩ := hcases
  · simp [hw, he] at hn
  · have hd := complete_transactionOnly s.takeTurn.2
    rwa [takeTurn_dev] at hd
  · obtain ⟨_, hs, -⟩ := hinstr hlt
    rw [hh] at hs
    cases hs
  · obtain ⟨_, hs, hi⟩ := hinstr hlt
    rw [hh] at hs
    cases hs
    have hd := exec_constrained_transactionOnly (by simpa using hi) hx (decodeLut_device _ _)
    rwa [takeTurn_dev] at hd

/-- Settles O47: the frame of every operation of the device, and of the transaction's own where it is constrained. -/
theorem deviceTurnFrame : Obligations.DeviceTurnFrame := by
  unfold Obligations.DeviceTurnFrame
  intro s t ht h
  have hk : Keeps s.takeTurn.2 t := by
    obtain ⟨u, rfl, -, ⟨hn, -⟩ | ⟨-, hk⟩ | ⟨hn, -⟩⟩ := step_cases h
    · rw [ht] at hn
      cases hn
    · exact hk
    · rw [ht] at hn
      cases hn
  refine ⟨by simpa using hk.cfg, by simpa using hk.eng, by simpa using hk.port, by simpa using hk.responses,
    by simpa using hk.foreign, by simpa using hk.clock, fun hc => ?_, fun hf => ?_⟩
  · obtain ⟨_, _, _, _, _, hd⟩ := deviceTurn_transactionOnly ht hc h
    rw [hd]
    simp only [and_self]
  · obtain ⟨-, hr⟩ | ⟨f, hs, -⟩ := deviceTurn_cases ht h
    · exact hr
    · rw [hf] at hs
      cases hs

end Sys2Proof.Machine
end

section
/-! ## The device contract, register by register (10_state.md R40 to R52) -/

namespace Sys2Proof.Machine

/-- A register write changes nothing outside the device. -/
theorem devWrite_sameButDevice (r : Role) (v : Word) (s : State) : SameButDevice s (s.devWrite r v) :=
  .of (devWrite_keeps r v s).toDevOnly

/-- The fields of the device, besides the key, that the effects of register writes depend on. -/
structure KeyApart (d e : Device) : Prop where
  lutLock : e.lutLock = d.lutLock
  inFlight : e.inFlight = d.inFlight
  rxBuf : e.rxBuf = d.rxBuf
  txBuf : e.txBuf = d.txBuf
  lawless : e.lawless = d.lawless

theorem OnlyKey.apart {d e : Device} (h : OnlyKey d e) : KeyApart d e := by
  obtain ⟨⟨_, rfl⟩, -⟩ := h
  exact ⟨rfl, rfl, rfl, rfl, rfl⟩

/-- A LUT write with no transaction in flight (R40). -/
theorem writeLut_idle {s : State} (hf : s.dev.inFlight = none) (j : Fin 64) (v : Word) :
    s.writeLut j v =
      if s.dev.lutLock = .unlocked then
        s.mapDev (fun d => { d with mem := Memory.writeWord d.mem (lutOff s.cfg j.val) v })
      else s := by
  simp only [State.writeLut, raceIfFlying_idle hf]

/-- Settles O12: the write reads back, and lies in the four bytes of its register. -/
theorem lutWriteNeedsUnlock : Obligations.LutWriteNeedsUnlock := by
  unfold Obligations.LutWriteNeedsUnlock
  intro s j v hc hf
  obtain ⟨u, hs, hk, -, he⟩ := devWrite_spec hc (.lut j) v
  have hu := hk.apart
  have hw : s.devWrite (.lut j) v = _ := he.trans (writeLut_idle (hu.inFlight.trans hf) j v)
  rw [hs.1, hu.lutLock] at hw
  refine ⟨devWrite_sameButDevice _ v s, fun hl => ?_, fun hl => ?_⟩
  · rw [if_pos hl] at hw
    have hword : (s.devWrite (.lut j) v).dev.lutWord s.cfg j.val = some v := by
      rw [hw]
      exact Memory.readWord_writeWord _ _ _
    refine ⟨Memory.writeWord s.dev.mem (lutOff s.cfg j.val) v, ?_, lutReg_of_lutWord hword, hword,
      fun a ha => Memory.read_writeWord_other _ _ ha⟩
    rw [hw]
    exact hk.map (fun d => { d with mem := Memory.writeWord d.mem (lutOff s.cfg j.val) v }) (fun _ _ => rfl) rfl
  · rw [if_neg (by simp [hl])] at hw
    rw [hw]
    exact hk

/-- Settles O13: neither lock register's access disturbs the key. -/
theorem keyArmsLockControl : Obligations.KeyArmsLockControl := by
  unfold Obligations.KeyArmsLockControl
  intro s hv hc
  have hne : s.cfg.lckUnlock ≠ s.cfg.lckLock := by
    simp only [Params.valid, Bool.and_eq_true, decide_eq_true_eq] at hv
    tauto
  have hkey : s.devWrite .lutkey s.cfg.lutKey = s.writeLutkey s.cfg.lutKey := by
    simp [State.devWrite, keepsKey, hc, State.writeEffect]
  have hlck : ∀ v, s.devWrite .lckcr v = s.writeLckcr v := fun v => by
    simp [State.devWrite, keepsKey, hc, State.writeEffect]
  refine ⟨by rw [hkey, State.writeLutkey, if_pos rfl, State.mapDev], fun v => ⟨fun h => ?_, fun h => ?_⟩⟩
  · rw [hlck, State.writeLckcr, if_neg (by simp [h])]
  · refine ⟨devWrite_sameButDevice _ v s, ?_⟩
    rw [hlck, State.writeLckcr, if_pos h]
    split_ifs with h1 h2
    · exact ⟨.unlocked, rfl, fun _ => rfl, fun h2 => absurd (h1.symm.trans h2) hne⟩
    · exact ⟨.locked, rfl, fun h => absurd h h1, fun _ => rfl⟩
    · exact ⟨_, by rw [mapDev_dev, draw_dev], fun h => absurd h h1, fun h => absurd h h2⟩

/-- The IP-command write on a controller that runs no transaction (R44): enabled, it starts the transaction of its two
fields; disabled, a wild one or none (log 37). -/
theorem writeIpcmd_idle {s : State} (hf : s.dev.inFlight = none) (w : Word) :
    (s.dev.enabled s.cfg = true →
        (s.writeIpcmd w).dev =
          { s.dev with
            ipcmd := w
            executed := []
            inFlight :=
              some
                { seq := ipcmdSeq w, addr := s.dev.addr, size := ipcmdSize w, start := s.dev.seqPtr,
                  wild := false } }) ∧
      (s.dev.enabled s.cfg = false →
        (s.writeIpcmd w).dev = { s.dev with ipcmd := w } ∨
          (s.writeIpcmd w).dev =
            { s.dev with
              ipcmd := w
              executed := []
              inFlight :=
                some
                  { seq := ipcmdSeq w, addr := s.dev.addr, size := ipcmdSize w, start := s.dev.seqPtr,
                    wild := true } }) := by
  simp only [State.writeIpcmd, hf]
  refine ⟨fun he => ?_, fun he => ?_⟩
  · rw [if_pos he]
    rfl
  · rw [if_neg (by simp [he])]
    split
    · exact .inr (by simp [State.startFlight])
    · exact .inl (by simp [hf])

/-- Settles O14: the IP-command word packs and unpacks, and the key may have been disturbed before the start. -/
theorem ipcmdStartsTransaction : Obligations.IpcmdStartsTransaction := by
  unfold Obligations.IpcmdStartsTransaction
  intro s seqid datsz hc hf
  obtain ⟨u, hs, ⟨⟨b, hb⟩, hk⟩, -, he⟩ := devWrite_spec hc .ipcmd (packIpcmd seqid datsz)
  have hen : u.dev.enabled u.cfg = s.dev.enabled s.cfg := by rw [hb, hs.1]; rfl
  obtain ⟨hw1, hw2⟩ := writeIpcmd_idle (s := u) (by rw [hb]; exact hf) (packIpcmd seqid datsz)
  rw [hen, hb, ipcmdSeq_pack, ipcmdSize_pack] at hw1 hw2
  refine ⟨_, b, rfl, devWrite_sameButDevice _ _ s, fun h => ?_, fun h => ?_, fun h => ?_⟩
  · have hd := congrArg Device.keyArmed (hk h)
    rw [hb] at hd
    exact hd.trans h
  · rw [he]
    exact hw1 h
  · rw [he]
    exact hw2 h

/-! ### The pointer clears, the window and the buffers (R35, R47 to R52) -/

theorem rxptrRole_cases (p : Params) : rxptrRole p = .ctrl ∨ rxptrRole p = .rxctl ∨ rxptrRole p = .rxptrClr := by
  unfold rxptrRole
  split_ifs <;> simp

/-- `RXPTR_CLR`, wherever the configuration puts it, empties the RX buffer and clears its pointer (R47). -/
theorem writeEffect_rxptrClr {s : State} {v : Word} (h : fieldSet s.cfg.mask.rxptrClr v = true) :
    (s.writeEffect (rxptrRole s.cfg) v).dev.rxBuf = [] ∧ (s.writeEffect (rxptrRole s.cfg) v).dev.rxPtr = 0 := by
  obtain hr | hr | hr := rxptrRole_cases s.cfg <;> rw [hr] <;> simp only [State.writeEffect]
  · simp only [State.writeCtrl, hr, h, and_self, if_true]
    exact ⟨rfl, rfl⟩
  · rw [State.writeRxctl, if_pos ⟨hr, h⟩]
    exact ⟨rfl, rfl⟩
  · rw [if_pos h]
    exact ⟨rfl, rfl⟩

/-- With a transaction in flight it is a race, wherever it lies (R52). -/
theorem writeEffect_rxptrClr_race {s : State} {v : Word} {f : Flight} (hf : s.dev.inFlight = some f)
    (h : fieldSet s.cfg.mask.rxptrClr v = true) : (s.writeEffect (rxptrRole s.cfg) v).dev.lawless = true := by
  have hclear : ∀ u : State, u.dev.inFlight = some f → u.rxptrClear.dev.lawless = true := fun u hu =>
    raceIfFlying_lawless hu
  obtain hr | hr | hr := rxptrRole_cases s.cfg <;> rw [hr] <;> simp only [State.writeEffect]
  · exact writeCtrl_race hf (by simp [ctrlRaces, hr, h])
  · rw [State.writeRxctl, if_pos ⟨hr, h⟩]
    exact hclear _ hf
  · rw [if_pos h]
    exact hclear _ hf

/-- A `CTRL` write that resets nothing leaves its value in `CTRL` (log 9). -/
theorem writeCtrl_ctrl {s : State} {v : Word} (h : fieldSet (swrstMask s.cfg) v = false) :
    (s.writeCtrl v).dev.ctrl = v := by
  simp only [State.writeCtrl, h, Bool.false_eq_true, if_false]
  split_ifs <;> rfl

/-- `CLR_TXF` empties the TX buffer, after a reset that the same write asks for (R51; log 11). -/
theorem writeCtrl_clrTxf {s : State} {v : Word} (h : fieldSet s.cfg.mask.clrTxf v = true) :
    (s.writeCtrl v).dev.txBuf = [] := by
  simp only [State.writeCtrl, h, if_true]
  split_ifs <;> rfl

/-- `CLR_RXF` empties the RX buffer, after a reset that the same write asks for (R51; log 11). -/
theorem writeCtrl_clrRxf {s : State} {v : Word} (h : fieldSet s.cfg.mask.clrRxf v = true) :
    (s.writeCtrl v).dev.rxBuf = [] := by
  simp only [State.writeCtrl, h, if_true]
  split_ifs <;> rfl

/-- A `TXDATA` write to a buffer with room, with no transaction in flight (R50). -/
theorem writeTxdata_room {s : State} (hf : s.dev.inFlight = none) (hl : s.dev.txBuf.length < s.cfg.txCapacity)
    (v : Word) : s.writeTxdata v = s.mapDev (fun d => { d with txBuf := d.txBuf ++ [v] }) := by
  have hn : s.dev.txfull s.cfg = false := by simpa [Device.txfull] using hl
  simp [State.writeTxdata, raceIfFlying_idle hf, hn]

/-- A pop with a watermark in the RX buffer (R49). -/
theorem rxPop_watermark {s : State} (h : 4 ≤ s.dev.rxBuf.length) :
    s.rxPop = s.mapDev (fun d => { d with rxBuf := d.rxBuf.drop 4, rxPtr := d.rxPtr + 4 }) := by
  have hn : s.dev.rxwm = true := decide_eq_true h
  simp [State.rxPop, hn, rxWatermarkBytes]

/-- Settles O15: each of the racing writes passes `raceIfFlying` or sets the mark itself. -/
theorem racingWriteEndsContract : Obligations.RacingWriteEndsContract := by
  unfold Obligations.RacingWriteEndsContract
  refine ⟨fun s t hl h => (step_keeps h).lawless hl, fun s f v hc hf => ?_⟩
  have hrace : ∀ r, (∀ u : State, u.cfg = s.cfg → u.dev.inFlight = some f → (u.writeEffect r v).dev.lawless = true) →
      (s.devWrite r v).dev.lawless = true := fun r hr => by
    obtain ⟨u, hs, hk, -, he⟩ := devWrite_spec hc r v
    rw [he]
    exact hr u hs.1 (hk.apart.inFlight.trans hf)
  refine ⟨hrace _ fun u _ hu => ?_, hrace _ fun u _ hu => ?_, hrace _ fun u _ hu => ?_,
    fun h => hrace _ fun u hp hu => ?_, fun h => hrace _ fun u hp hu => ?_, fun h => hrace _ fun u hp hu => ?_, fun j => hrace _ fun u _ hu => ?_⟩
  · exact raceIfFlying_lawless hu
  · simp [State.writeEffect, State.writeIpcmd, hu, State.setLawless]
  · simp only [State.writeEffect, State.writeTxdata]
    split
    · rfl
    · exact raceIfFlying_lawless hu
  · simp only [State.writeEffect, hp, h, if_true]
    exact raceIfFlying_lawless hu
  · exact writeCtrl_race hu (by simp [ctrlRaces, hp, h])
  · rw [← hp] at h ⊢
    exact writeEffect_rxptrClr_race hu h
  · simp only [State.writeEffect, State.writeLut]
    split <;> exact raceIfFlying_lawless hu

/-- Settles O16: what a read answers under the contract, flag by flag. -/
theorem statusFlagsFollowDevice : Obligations.StatusFlagsFollowDevice := by
  unfold Obligations.StatusFlagsFollowDevice
  intro s hv hc ha
  obtain ⟨hs, hk, w, hw⟩ := devRead_spec .status s
  obtain ⟨hs', hk', w', hw'⟩ := devRead_spec .txstat s
  rw [readAnswer_contract hc] at hw hw'
  obtain ⟨hbusy, hrxwm, htxfull⟩ := statusAnswer_flags hv ha s.dev w
  refine ⟨⟨by rw [hw]; exact hbusy, by rw [hw]; exact hrxwm, by rw [hw]; exact htxfull, ?_⟩, ⟨hs, hk⟩, hs', hk'⟩
  rw [hw', txstatAnswer_flag hv, Device.txne]
  cases s.dev.txBuf <;> simp

/-- Settles O17: the window's answer holds the four oldest bytes, and the pop drops four. -/
theorem rxWindowAndPop : Obligations.RxWindowAndPop := by
  unfold Obligations.RxWindowAndPop
  intro s h4
  refine ⟨fun hc => ?_, fun v hc hpop => ⟨devWrite_sameButDevice _ v s, ?_⟩⟩
  · obtain ⟨hs, hk, w, hw⟩ := devRead_spec (.rxdata 0) s
    rw [readAnswer_contract hc] at hw
    exact ⟨by rw [hw]; exact rxBytes_rxAnswer _ _ _ h4, hs, hk⟩
  · obtain ⟨u, hs, hk, -, he⟩ := devWrite_spec hc .flags v
    have hd : s.devWrite .flags v = u.rxPop := by rw [he, State.writeEffect, hs.1, if_pos hpop]
    rw [hd, rxPop_watermark (by rw [hk.apart.rxBuf]; exact h4)]
    exact hk.map (fun d => { d with rxBuf := d.rxBuf.drop 4, rxPtr := d.rxPtr + 4 }) (fun _ _ => rfl) rfl

/-- Settles O18: without a transaction in flight neither clear is a race. -/
theorem pointerClears : Obligations.PointerClears := by
  unfold Obligations.PointerClears
  intro s v hc hf
  refine ⟨fun h => ?_, fun h => ?_⟩
  · obtain ⟨u, hs, hk, -, he⟩ := devWrite_spec hc .sptrclr v
    rw [he, State.writeEffect, hs.1, if_pos h, raceIfFlying_idle (hk.apart.inFlight.trans hf)]
    exact hk.map (fun d => { d with seqPtr := 0 }) (fun _ _ => rfl) rfl
  · obtain ⟨u, hs, -, -, he⟩ := devWrite_spec hc (rxptrRole s.cfg) v
    rw [← hs.1] at h he ⊢
    rw [he]
    exact writeEffect_rxptrClr h

/-- Settles O19: one write each, its effect after the key may have been disturbed. -/
theorem bufferWritesAndClears : Obligations.BufferWritesAndClears := by
  unfold Obligations.BufferWritesAndClears
  intro s v hc
  obtain ⟨u, hs, hk, -, he⟩ := devWrite_spec hc .txdata v
  obtain ⟨c, hs', -, -, he'⟩ := devWrite_spec hc .ctrl v
  refine ⟨fun hf hl => ⟨devWrite_sameButDevice _ v s, ?_⟩, fun h => ?_, fun _ h => ?_, fun _ h => ?_⟩
  · have hu := hk.apart
    rw [he, State.writeEffect, writeTxdata_room (hu.inFlight.trans hf) (by rw [hu.txBuf, hs.1]; exact hl)]
    exact hk.map (fun d => { d with txBuf := d.txBuf ++ [v] }) (fun _ _ => rfl) rfl
  · rw [he']
    exact writeCtrl_ctrl (by rw [hs'.1]; exact h)
  · rw [he']
    exact writeCtrl_clrTxf (by rw [hs'.1]; exact h)
  · rw [he']
    exact writeCtrl_clrRxf (by rw [hs'.1]; exact h)

end Sys2Proof.Machine
end

section
/-! ## The order of execution (10_state.md R46; 30_encoding.md R87)

`ExecutedInv` speaks of the device alone (`ExecOk`). A register write of the engine or of an outside agent leaves the
record, the cursor, the transaction and the table as they are, or starts a new record, or ends the contract; a device
turn adds the instruction at the cursor, or leaves the transaction without a constrained outcome. -/

namespace Sys2Proof.Machine

/-- `ExecutedInv`, of a device under a configuration. -/
def ExecOk (p : Params) (d : Device) : Prop :=
  ∀ f, d.inFlight = some f → f.wild = false → d.lawless = false →
    f.start ≤ d.seqPtr ∧ d.executed.length = d.seqPtr - f.start ∧
      ∀ k, k < d.executed.length →
        ∃ h, d.lutHalf p f.seq (f.start + k) = some h ∧ d.executed[k]? = some (decodeLut p h) ∧
          (decodeLut p h).isStop = false

theorem executedInv_iff (s : State) : ExecutedInv s ↔ ExecOk s.cfg s.dev := Iff.rfl

/-- The fields that the order of execution speaks of are the same. -/
structure SameOrder (d e : Device) : Prop where
  inFlight : e.inFlight = d.inFlight
  lawless : e.lawless = d.lawless
  seqPtr : e.seqPtr = d.seqPtr
  executed : e.executed = d.executed
  mem : e.mem = d.mem

/-- No transaction in flight has a constrained outcome. -/
def Unconstrained (d : Device) : Prop := ∀ f, d.inFlight = some f → f.wild = true

namespace ExecOk

variable {p : Params} {d e : Device}

theorem same (h : ExecOk p d) (k : SameOrder d e) : ExecOk p e := by
  obtain ⟨k1, k2, k3, k4, k5⟩ := k
  unfold ExecOk Device.lutHalf at *
  rw [k1, k2, k3, k4, k5]
  exact h

theorem ite {t u : State} {c : Prop} [Decidable c] (h : ExecOk p t.dev) (k : ExecOk p u.dev) :
    ExecOk p (if c then t else u).dev := by split <;> assumption

theorem of_none (h : d.inFlight = none) : ExecOk p d := by simp [ExecOk, h]

theorem of_lawless (h : d.lawless = true) : ExecOk p d := by simp [ExecOk, h]

theorem of_unconstrained (h : Unconstrained d) : ExecOk p d := fun f hf hw => by simp [h f hf] at hw

/-- A transaction that has just started has executed nothing. -/
theorem of_fresh (hx : d.executed = []) (hs : ∀ f, d.inFlight = some f → f.start = d.seqPtr) : ExecOk p d :=
  fun f hf _ _ => by simp [hx, hs f hf]

/-- The instruction at the cursor, which is no STOP, is executed next. -/
theorem advance {f : Flight} {h : Half} (ho : ExecOk p d) (hf : d.inFlight = some f)
    (hh : d.lutHalf p f.seq d.seqPtr = some h) (hn : (decodeLut p h).isStop = false) :
    ExecOk p { d with executed := d.executed ++ [decodeLut p h], seqPtr := d.seqPtr + 1 } := by
  intro g hg hw hl
  have hgf : g = f := Option.some.inj (hg.symm.trans hf)
  subst hgf
  obtain ⟨h1, h2, h3⟩ := ho g hf hw hl
  refine ⟨Nat.le_succ_of_le h1, ?_, fun k hk => ?_⟩
  · simp only [List.length_append, List.length_cons, List.length_nil]
    omega
  · simp only [List.length_append, List.length_cons, List.length_nil] at hk
    by_cases hlt : k < d.executed.length
    · rw [List.getElem?_append_left hlt]
      exact h3 k hlt
    · obtain rfl : k = d.executed.length := by omega
      refine ⟨h, ?_, by simp, hn⟩
      rw [show g.start + d.executed.length = d.seqPtr by omega]
      exact hh

end ExecOk

/-- An update of the device that the order of execution does not see. -/
theorem mapDev_execOk {p : Params} {s : State} {f : Device → Device} (h : ExecOk p s.dev)
    (hf : ∀ d, SameOrder d (f d)) : ExecOk p (s.mapDev f).dev := h.same (hf s.dev)

theorem SameOrder.refl (d : Device) : SameOrder d d := ⟨rfl, rfl, rfl, rfl, rfl⟩

theorem OnlyKey.sameOrder {d e : Device} (h : OnlyKey d e) : SameOrder d e := by
  obtain ⟨⟨_, rfl⟩, -⟩ := h
  exact ⟨rfl, rfl, rfl, rfl, rfl⟩

theorem drawRx_sameOrder (s : State) : SameOrder s.dev s.drawRx.dev := by
  obtain ⟨_, -, hd⟩ := drawRx_dev s
  rw [hd]
  exact ⟨rfl, rfl, rfl, rfl, rfl⟩

theorem setWild_unconstrained (s : State) : Unconstrained s.setWild.dev := fun f hf => by
  obtain ⟨_, -, rfl⟩ := Option.map_eq_some_iff.mp hf
  rfl

/-! ### Register writes -/

section
variable (p : Params) (v : Word) (s : State)

/-- After a race nothing is claimed, and without a transaction there is nothing to claim: so a write that R52 lists
may change the cursor or the table. -/
theorem raced_execOk (f : Device → Device) (hf : ∀ d, (f d).inFlight = d.inFlight)
    (hl : ∀ d, (f d).lawless = d.lawless) : ExecOk p (s.raceIfFlying.mapDev f).dev := by
  cases h : s.dev.inFlight with
  | none => exact .of_none (by rw [mapDev_dev, hf, raceIfFlying_inFlight, h])
  | some g => exact .of_lawless (by rw [mapDev_dev, hl]; exact raceIfFlying_lawless h)

/-- A reset leaves a transaction, if any, of which nothing has run. -/
theorem softReset_execOk : ExecOk p s.softReset.dev := by
  refine .of_fresh rfl fun f hf => ?_
  simp only [State.softReset, mapDev_dev] at hf ⊢
  split at hf
  · cases hf
    rfl
  · cases hf

variable {p s} (h : ExecOk p s.dev)
include h

theorem raceIfFlying_execOk : ExecOk p s.raceIfFlying.dev := by
  unfold State.raceIfFlying
  split
  · exact .of_lawless rfl
  · exact h

theorem writeCtrl_execOk : ExecOk p (s.writeCtrl v).dev := by
  unfold State.writeCtrl
  have h0 : ExecOk p (if ctrlRaces s.cfg v then s.raceIfFlying else s).dev := .ite (raceIfFlying_execOk h) h
  have h1 := mapDev_execOk h0 (f := fun d => { d with ctrl := v }) fun _ => ⟨rfl, rfl, rfl, rfl, rfl⟩
  have h2 := ExecOk.ite (c := fieldSet (swrstMask s.cfg) v = true)
    (softReset_execOk p ((if ctrlRaces s.cfg v then s.raceIfFlying else s).mapDev fun d => { d with ctrl := v })) h1
  have h3 := ExecOk.ite (c := fieldSet s.cfg.mask.clrTxf v = true)
    (mapDev_execOk h2 (f := fun d => { d with txBuf := [] }) fun _ => ⟨rfl, rfl, rfl, rfl, rfl⟩) h2
  have h4 := ExecOk.ite (c := fieldSet s.cfg.mask.clrRxf v = true)
    (mapDev_execOk h3 (f := fun d => { d with rxBuf := [] }) fun _ => ⟨rfl, rfl, rfl, rfl, rfl⟩) h3
  exact .ite (mapDev_execOk h4 fun _ => ⟨rfl, rfl, rfl, rfl, rfl⟩) h4

theorem writeRxctl_execOk : ExecOk p (s.writeRxctl v).dev := by
  unfold State.writeRxctl
  dsimp only
  split
  · exact raced_execOk p _ _ (fun _ => rfl) (fun _ => rfl)
  · exact h

omit h in
theorem writeIpcmd_execOk : ExecOk p (s.writeIpcmd v).dev := by
  have hstart : ∀ (u : State) (b : Bool), ExecOk p (u.startFlight v b).dev := fun u b =>
    .of_fresh rfl fun f hf => by
      cases hf
      rfl
  cases hf : s.dev.inFlight with
  | some f =>
    simp only [State.writeIpcmd, hf]
    exact .of_lawless rfl
  | none =>
    simp only [State.writeIpcmd, hf]
    split
    · exact hstart _ _
    · split
      · exact hstart _ _
      · exact .of_none (by rw [draw_dev]; exact hf)

theorem writeLutkey_execOk : ExecOk p (s.writeLutkey v).dev := by
  unfold State.writeLutkey
  split
  · exact h
  · dsimp only
    rw [mapDev_dev, draw_dev]
    exact h

theorem writeLckcr_execOk : ExecOk p (s.writeLckcr v).dev := by
  unfold State.writeLckcr
  split_ifs
  · exact h
  · exact h
  · dsimp only
    rw [mapDev_dev, draw_dev]
    exact h
  · exact h

theorem writeLut_execOk (j : Fin 64) : ExecOk p (s.writeLut j v).dev := by
  unfold State.writeLut
  dsimp only
  split
  · exact raced_execOk p _ _ (fun _ => rfl) (fun _ => rfl)
  · exact raceIfFlying_execOk h

omit h in
theorem writeTxdata_execOk : ExecOk p (s.writeTxdata v).dev := by
  unfold State.writeTxdata
  dsimp only
  split
  · exact .of_lawless rfl
  · exact raced_execOk p _ _ (fun _ => rfl) (fun _ => rfl)

theorem rxPop_execOk : ExecOk p s.rxPop.dev := by
  unfold State.rxPop
  split
  · exact h
  · exact h.same (drawRx_sameOrder s)

theorem writeEffect_execOk (r : Role) : ExecOk p (s.writeEffect r v).dev := by
  cases r <;> simp only [State.writeEffect]
  case ctrl => exact writeCtrl_execOk v h
  case ipcmd => exact writeIpcmd_execOk v
  case addr => exact raced_execOk p _ _ (fun _ => rfl) (fun _ => rfl)
  case rxctl => exact writeRxctl_execOk v h
  case flags =>
    split
    · exact rxPop_execOk h
    · exact h
  case sptrclr =>
    split
    · exact raced_execOk p _ _ (fun _ => rfl) (fun _ => rfl)
    · exact h
  case lutkey => exact writeLutkey_execOk v h
  case lckcr => exact writeLckcr_execOk v h
  case lut j => exact writeLut_execOk v h j
  case txdata => exact writeTxdata_execOk v
  case rxptrClr =>
    split
    · exact raced_execOk p _ _ (fun _ => rfl) (fun _ => rfl)
    · exact h
  case flshcfg | bufdesc | status | txstat | rxdata => exact h

theorem devWrite_execOk (r : Role) : ExecOk p (s.devWrite r v).dev := by
  have h1 : ExecOk p (if keepsKey r then s else s.disturbKey).dev :=
    .ite h (h.same (disturbKey_spec s).2.sameOrder)
  unfold State.devWrite State.writeUnclocked
  generalize (if keepsKey r then s else s.disturbKey) = u at h1
  have h2 : ExecOk p u.draw.2.dev := by
    rw [draw_dev]
    exact h1
  exact .ite (writeEffect_execOk v h1 r) (.ite (writeEffect_execOk v h2 r) h2)

omit v in
theorem devRead_execOk (r : Role) : ExecOk p (s.devRead r).2.dev := h.same (devRead_spec r s).2.1.sameOrder
end

/-! ### The device after one engine step -/

/-- What an access step of the engine leaves of the device: one register access, the clock that INIT enables, or
nothing. -/
inductive DevAccess (s : State) : Device → Prop
  | same : DevAccess s s.dev
  | write (r : Role) (v : Word) : DevAccess s (s.devWrite r v).dev
  | read (r : Role) : DevAccess s (s.devRead r).2.dev
  | clock : DevAccess s { s.dev with clockOn := true }

theorem rmw_devAccess (r : Role) (f : Word → Word) (a : ActPos) (s : State) : DevAccess s (s.rmw r f a).2.dev := by
  cases a
  · exact .read r
  · exact .write r _

theorem act_devAccess (F : Field) (a : ActPos) (s : State) : DevAccess s (s.act F a).2.dev := by
  unfold State.act
  split
  · exact rmw_devAccess _ _ _ _
  · exact .write _ _

theorem issueStep_devAccess (seq : BitVec 4) (addr : Word) (size : Half) (pos : IssuePos) (s : State) :
    DevAccess s (issueStep seq addr size pos s).2.dev := by
  cases pos <;> simp only [issueStep]
  case waitIdle | waitDone => split <;> exact .read .status
  case rxPtr | seqPtr => split <;> exact act_devAccess _ _ s
  case addr | command => exact .write _ _

theorem writeSeqStep_devAccess (index : BitVec 4) (words : Vector Word 4) (pos : WriteSeqPos) (s : State) :
    DevAccess s (writeSeqStep index words pos s).dev := by
  cases pos <;> exact .write _ _

theorem issueServe_devAccess (seq : BitVec 4) (addr : Word) (size : Half) (pos : IssuePos) (s : State) :
    DevAccess s (issueServe seq addr size pos s).dev := by
  unfold issueServe
  dsimp only
  split <;> exact issueStep_devAccess seq addr size pos s

theorem drainStep_devAccess (size : Word) (pos : DrainPos) (out : List Byte) (k : Nat) (s : State) :
    DevAccess s (drainStep size pos out k s).dev := by
  cases pos <;> simp only [drainStep]
  case wait => split <;> exact .read .status
  case read => exact .read (.rxdata 0)
  case pop a =>
    split
    · exact act_devAccess _ _ s
    · unfold drainPopped
      split <;> exact act_devAccess _ _ s

theorem fillStep_devAccess (seq : BitVec 4) (addr : Word) (data : List Word) (pos : FillPos) (n lim : Nat)
    (s : State) : DevAccess s (fillStep seq addr data pos n lim s).dev := by
  cases pos <;> simp only [fillStep]
  case txne => exact .read .txstat
  case clear => split <;> exact act_devAccess _ _ s
  case addr | word => exact .write _ _
  case wait => split <;> exact .read .status
  case issue q => split <;> exact issueStep_devAccess _ _ _ q s

theorem initRmw_devAccess (r : Role) (f : Word → Word) (a : ActPos) (stay : ActPos → InitPos) (nxt : InitPos)
    (s : State) : DevAccess s (initRmw r f a stay nxt s).dev := by
  unfold initRmw
  dsimp only
  split <;> exact rmw_devAccess r f a s

theorem initStep_devAccess (pos : InitPos) (s : State) : DevAccess s (initStep pos s).dev := by
  have hdraw : DevAccess s s.draw.2.dev := by
    rw [draw_dev]
    exact .same
  cases pos <;> simp only [initStep]
  case map => split <;> exact hdraw
  case hold => exact .same
  case clock =>
    split
    · simp only [initAt, setTask_dev, mapDev_dev, draw_dev]
      exact .clock
    · exact hdraw
  case timing => exact .write _ _
  case disable | resetSet | resetClear | enable | clearBuffers | watermark => exact initRmw_devAccess _ _ _ _ _ s

theorem taskStep_devAccess (k : Task) (s : State) : DevAccess s (taskStep k s).dev := by
  cases k with
  | writeSeq index words pos => exact writeSeqStep_devAccess _ _ _ _
  | issue seq addr size pos => exact issueServe_devAccess _ _ _ _ _
  | drain size pos out k => exact drainStep_devAccess _ _ _ _ _
  | fill seq addr data pos n lim => exact fillStep_devAccess _ _ _ _ _ _ _
  | init pos => exact initStep_devAccess _ _

theorem DevAccess.execOk {p : Params} {s : State} {d : Device} (h : DevAccess s d) (ho : ExecOk p s.dev) :
    ExecOk p d := by
  cases h with
  | same => exact ho
  | write r v => exact devWrite_execOk v ho r
  | read r => exact devRead_execOk ho r
  | clock => exact ho.same ⟨rfl, rfl, rfl, rfl, rfl⟩

/-- One step of the request in service. -/
theorem serve_execOk {p : Params} {s : State} {j : Service} (hj : s.eng.job = some j) (ho : ExecOk p s.dev) :
    ExecOk p (s.serve (taskStep j.task)).dev := by
  cases ht : j.todo with
  | nil =>
    rw [serve_access s _ hj ht]
    exact (taskStep_devAccess j.task s).execOk ho
  | cons a rest =>
    cases a with
    | trace ev =>
      rw [serve_trace s _ hj ht]
      exact ho
    | respond r =>
      rw [serve_respond s _ hj ht, finish_of_job r s hj]
      dsimp only
      split
      · exact ho.same ⟨rfl, rfl, rfl, rfl, rfl⟩
      · exact ho

/-! ### The device's own turn -/

theorem phaseDone_inFlight (i : Instr) (s : State) :
    (phaseDone i s).dev.inFlight = s.dev.inFlight ∨ (phaseDone i s).dev.inFlight = none := by
  unfold phaseDone State.advance
  split
  · exact .inl rfl
  · exact .inr rfl

/-- A phase that is done, from a state `u` that still is as `s` was when the instruction at the cursor was fetched, or
whose transaction has lost its constrained outcome. -/
theorem phaseDone_execOk {s u : State} {f : Flight} {h : Half} (ho : ExecOk s.cfg s.dev)
    (hf : s.dev.inFlight = some f) (hh : s.dev.lutHalf s.cfg f.seq s.dev.seqPtr = some h) (hn : (decodeLut s.cfg h).isStop = false)
    (hu : SameOrder s.dev u.dev ∨ Unconstrained u.dev) : ExecOk s.cfg (phaseDone (decodeLut s.cfg h) u).dev := by
  obtain hu | hu := hu
  · have hfu : u.dev.inFlight = some f := hu.inFlight.trans hf
    have hhu : u.dev.lutHalf s.cfg f.seq u.dev.seqPtr = some h := by
      rw [hu.seqPtr, Device.lutHalf, hu.mem]
      exact hh
    rw [phaseDone_eq hfu]
    by_cases hc : u.dev.seqPtr + 1 < 8
    · simp only [hc, if_true]
      exact ((ho.same hu).advance hfu hhu hn).same ⟨by simp [hfu], rfl, rfl, rfl, rfl⟩
    · simp only [hc, if_false]
      exact .of_none rfl
  · obtain hk | hk := phaseDone_inFlight (decodeLut s.cfg h) u
    · exact .of_unconstrained fun g hg => hu g (hk.symm.trans hg)
    · exact .of_none hk

/-- A byte that enters the RX buffer, or finds it full. -/
theorem rxPush_order (b : Byte) (s : State) :
    SameOrder s.dev (s.rxPush b).dev ∨ Unconstrained (s.rxPush b).dev := by
  unfold State.rxPush
  split
  · exact .inl ⟨rfl, rfl, rfl, rfl, rfl⟩
  · exact .inr (setWild_unconstrained _)

theorem draw_sameOrder (s : State) : SameOrder s.dev s.draw.2.dev := by
  rw [draw_dev]
  exact .refl _

/-- A read phase: first a byte arrives or not, then the phase is done or not. -/
theorem phaseRead_order (i : Instr) (s : State) :
    ∃ u : State, (SameOrder s.dev u.dev ∨ Unconstrained u.dev) ∧
      (phaseRead i s = phaseDone i u ∨ phaseRead i s = u) := by
  refine ⟨if s.draw.1.getLsbD 8 then s.draw.2.rxPush (s.draw.1.extractLsb' 0 8) else s.draw.2, ?_, ?_⟩
  · split
    · have hr := rxPush_order (s.draw.1.extractLsb' 0 8) s.draw.2
      rwa [draw_dev] at hr
    · exact .inl (draw_sameOrder s)
  · exact ite_eq_or_eq _ _ _

/-- A write phase: first a word is consumed or not, then the phase is done or not. -/
theorem phaseWrite_order (i : Instr) (s : State) :
    ∃ u : State, SameOrder s.dev u.dev ∧ (phaseWrite i s = phaseDone i u ∨ phaseWrite i s = u) := by
  refine ⟨if s.draw.1.getLsbD 8 then s.draw.2.txTake else s.draw.2, ?_, ?_⟩
  · split
    · rw [State.txTake, mapDev_dev, draw_dev]
      exact ⟨rfl, rfl, rfl, rfl, rfl⟩
    · exact draw_sameOrder s
  · exact ite_eq_or_eq _ _ _

/-- The instruction at the cursor, run by the device. -/
theorem exec_fetched_execOk {s t : State} {f : Flight} {h : Half} (ho : ExecOk s.cfg s.dev)
    (hf : s.dev.inFlight = some f) (hh : s.dev.lutHalf s.cfg f.seq s.dev.seqPtr = some h)
    (hx : exec (decodeLut s.cfg h) s = .next t) : ExecOk s.cfg t.dev := by
  obtain ⟨pad, x, hi⟩ | ⟨n, pad, x, hi⟩ | ⟨q, z, hi⟩ | ⟨pad, g, he, hn, hg⟩ :=
    device_cases (decodeLut_device s.cfg h)
  · rw [hi] at hx
    simp only [exec, execStop, hf] at hx
    cases hx
    exact .of_none rfl
  · rw [hi] at hx
    simp only [exec, execUnassigned, hf] at hx
    cases hx
    exact .of_lawless rfl
  · rw [hi] at hx
    cases hx
    exact devWrite_execOk _ ho _
  · rw [he] at hx
    cases hp : padWired s.cfg pad with
    | false =>
      rw [lutPhase_unwired hf hp] at hx
      cases hx
      exact .of_unconstrained (setWild_unconstrained _)
    | true =>
      rw [lutPhase_wired hf hp] at hx
      cases hx
      have hdone : ∀ u : State, SameOrder s.dev u.dev ∨ Unconstrained u.dev →
          ExecOk s.cfg (phaseDone (decodeLut s.cfg h) u).dev := fun u => phaseDone_execOk ho hf hh hn
      have hdata : ∀ u x : State, SameOrder s.dev u.dev ∨ Unconstrained u.dev →
          (x = phaseDone (decodeLut s.cfg h) u ∨ x = u) → ExecOk s.cfg x.dev := fun u x hu hx => by
        obtain rfl | rfl := hx
        · exact hdone u hu
        · exact hu.elim ho.same .of_unconstrained
      obtain ⟨-, rfl | rfl | rfl⟩ | ⟨-, rfl⟩ := hg
      · exact hdone s (.inl (.refl _))
      · obtain ⟨u, hu, hx⟩ := phaseRead_order (decodeLut s.cfg h) s
        exact hdata u _ hu hx
      · obtain ⟨u, hu, hx⟩ := phaseWrite_order (decodeLut s.cfg h) s
        exact hdata u _ (.inl hu) hx
      · exact .of_unconstrained (setWild_unconstrained _)

/-- A device turn. -/
theorem deviceTurn_execOk {s t : State} (ht : s.takeTurn.1 = .device) (h : step s = .next t)
    (ho : ExecOk s.cfg s.dev) : ExecOk s.cfg t.dev := by
  obtain ⟨-, rfl⟩ | ⟨f, hf, hcases⟩ := deviceTurn_cases ht h
  · rwa [takeTurn_dev]
  have hf' : s.takeTurn.2.dev.inFlight = some f := by simpa using hf
  obtain ⟨-, rfl⟩ | ⟨-, -, rfl | ⟨-, -, rfl⟩ | ⟨-, i, hh, hx⟩⟩ := hcases
  · obtain ⟨_, _, _, g, hd, -, -, -, hg⟩ := setWild_wildStep_dev hf'
    rw [hd]
    obtain rfl | rfl := hg
    · exact .of_none rfl
    · refine .of_unconstrained fun g hg => ?_
      cases hg
      rfl
  · exact .of_none rfl
  · exact .of_lawless rfl
  · have hu := exec_fetched_execOk (s := s.takeTurn.2) (t := t) (by simpa using ho) hf' (by simpa using hh)
      (by simpa using hx)
    simpa using hu

/-- A request that leaves the device alone when it is taken: every one, unless it is already in service. -/
theorem exec_request_execOk {p : Params} {i : Instr} {s t : State} (hj : s.eng.job = none)
    (hi : deviceInstr i = false) (hx : exec i s = .next t) (ho : ExecOk p s.dev) : ExecOk p t.dev := by
  obtain rfl | ⟨hd, -⟩ | ⟨_, hs, -⟩ | ⟨-, ha⟩ := exec_cases hx
  · exact ho
  · rw [hi] at hd
    cases hd
  · rw [hj] at hs
    cases hs
  · rw [ha.dev]
    exact ho

/-- Settles O56: by the agent whose turn it is. -/
theorem stepKeepsExecutionOrder : Obligations.StepKeepsExecutionOrder := by
  unfold Obligations.StepKeepsExecutionOrder
  intro s t _ hs h
  rw [executedInv_iff] at hs ⊢
  rw [(step_keeps h).cfg]
  have hu : ExecOk s.cfg s.takeTurn.2.dev := by simpa using hs
  obtain ⟨u, rfl, -, hc⟩ := step_cases h
  obtain ⟨-, ⟨j, hj, hx⟩ | ⟨-, -, rfl⟩ | ⟨m, i, hj, -, hi, hx⟩⟩ | ⟨ht, -⟩ | ⟨-, rfl | ⟨w, rest, r, v, -, rfl⟩⟩ := hc
  · rw [exec_serve hj] at hx
    cases hx
    exact serve_execOk hj hu
  · rw [(pick_drawOnly _).dev]
    exact hu
  · obtain ⟨-, hd, hg⟩ := pick_take_frame m s.takeTurn.2
    exact exec_request_execOk (by rw [hg]; exact hj) (decodeRequest_not_device hi) hx (by rw [hd]; exact hu)
  · exact deviceTurn_execOk ht h hs
  · exact hu
  · exact devWrite_execOk v (s := { s.takeTurn.2 with foreign := rest }) hu r

end Sys2Proof.Machine
end

section
/-! ## The locals of the request in service (10_state.md R26; 00_scope.md R11; 60_exceptions.md R190) -/

namespace Sys2Proof.Machine

/-- `LocalsInv`, of one request in service: its locals are in range unless only its response is left, and a response
it is about to give is one of its own. -/
structure ServiceOk (p : Params) (j : Service) : Prop where
  ranges : answering j.todo = false → taskOk p j.task
  reply : ∀ r, .respond r ∈ j.todo → replyOk p j.task r

/-- The request in service, if there is one, is as R26 and R11 have it. -/
def JobOk (p : Params) (s : State) : Prop := ∀ j, s.eng.job = some j → ServiceOk p j

theorem localsInv_iff (s : State) : LocalsInv s ↔ JobOk s.cfg s :=
  ⟨fun h j hj => ⟨(h j hj).1, (h j hj).2⟩, fun h j hj => ⟨(h j hj).ranges, (h j hj).reply⟩⟩

section
variable {p : Params} {s : State} {j : Service} {k : Task} {l : List Internal}

theorem jobOk_congr {t : State} (he : t.eng.job = s.eng.job) (h : JobOk p s) : JobOk p t := by
  unfold JobOk
  rw [he]
  exact h

/-- The request goes on at `k`. -/
theorem setTask_jobOk (hj : s.eng.job = some j) (ht : j.todo = []) (hk : taskOk p k) : JobOk p (s.setTask k) := by
  intro j' hj'
  rw [setTask_job, hj] at hj'
  cases hj'
  exact ⟨fun _ => hk, by simp [ht]⟩

/-- The request goes on at `k` after internal actions that do not answer it. -/
theorem setTask_queue_jobOk (hj : s.eng.job = some j) (hk : taskOk p k) (hl : ∀ r, .respond r ∉ l) :
    JobOk p ((s.setTask k).queue l) := by
  intro j' hj'
  rw [queue_job, setTask_job, hj] at hj'
  cases hj'
  exact ⟨fun _ => hk, fun r hr => absurd hr (hl r)⟩

/-- The request has only the actions `l` left, which answer it. -/
theorem queue_jobOk (hj : s.eng.job = some j) (ha : answering l = true)
    (hr : ∀ r, .respond r ∈ l → replyOk p j.task r) : JobOk p (s.queue l) := by
  intro j' hj'
  rw [queue_job, hj] at hj'
  cases hj'
  exact ⟨fun h => absurd (ha.symm.trans h) (by decide), hr⟩

/-- The request has only its error left. -/
theorem raise_jobOk {e : ErrorKind} (hj : s.eng.job = some j) (hr : replyOk p j.task (.err e)) :
    JobOk p (s.raise e) :=
  queue_jobOk hj rfl fun r hm => by
    cases List.mem_singleton.mp hm
    exact hr
end

/-- A wait is polled again before poll `WAIT_LIMIT` only (R150). -/
theorem poll_again {r : Role} {ok : Word → Bool} {i k : Nat} {s : State} (h : (s.poll r ok i).1 = .again k) :
    pollOk s.cfg k := by
  simp only [State.poll] at h
  split_ifs at h with h1 h2
  cases h
  exact ⟨by omega, h2⟩

theorem pollOk_one {p : Params} (hv : p.valid = true) : pollOk p 1 := by
  simp only [Params.valid, Bool.and_eq_true, decide_eq_true_eq] at hv
  exact ⟨Nat.le_refl 1, by tauto⟩

/-! ### ISSUE's rule and FILL's loop -/

/-- How an access of ISSUE may end: with its counters in range and no response, or with one of its two errors. -/
def IssueNextOk (p : Params) : IssueNext → Prop
  | .at q l => issuePosOk p q ∧ ∀ r, .respond r ∉ l
  | .done => True
  | .fail e => e = .busy ∨ e = .timeout

theorem issueStep_ok (seq : BitVec 4) (addr : Word) (size : Half) {pos : IssuePos} {s : State}
    (hv : s.cfg.valid = true) (hp : issuePosOk s.cfg pos) : IssueNextOk s.cfg (issueStep seq addr size pos s).1 := by
  cases pos <;> simp only [issueStep]
  case waitIdle i =>
    split
    · exact ⟨trivial, by simp⟩
    · next k hk => exact ⟨poll_again hk, by simp⟩
    · exact .inl rfl
  case waitDone i =>
    split
    · exact trivial
    · next k hk => exact ⟨poll_again hk, by simp⟩
    · exact .inr rfl
  case rxPtr | seqPtr => split <;> exact ⟨trivial, by simp⟩
  case addr => exact ⟨trivial, by simp⟩
  case command => exact ⟨pollOk_one hv, by simp⟩

/-- Where FILL goes on with `n` words written. -/
theorem fillLoop_ok {p : Params} (hv : p.valid = true) {seq : BitVec 4} {addr : Word} {data : List Word} {n lim : Nat}
    (hd : txMinWords ≤ data.length) (hl : lim = fillLimit p data) (hn : n ≤ lim) :
    taskOk p (.fill seq addr data (fillLoop n lim) n lim) := by
  by_cases h : n < lim
  · rw [fillLoop, if_pos h]
    exact ⟨hd, hl, pollOk_one hv, h⟩
  · rw [fillLoop, if_neg h]
    exact ⟨hd, hl, pollOk_one hv, by omega⟩

/-! ### The access steps -/

section
variable {s : State} {j : Service} (hv : s.cfg.valid = true) (hj : s.eng.job = some j) (ht : j.todo = [])
  (ho : taskOk s.cfg j.task)
include hv hj ht ho

omit ht in
theorem issueServe_jobOk {seq : BitVec 4} {addr : Word} {size : Half} {pos : IssuePos}
    (hk : j.task = .issue seq addr size pos) : JobOk s.cfg (issueServe seq addr size pos s) := by
  rw [hk] at ho
  have hn := issueStep_ok seq addr size hv ho
  have hj' := (issueStep_access seq addr size pos s).job.trans hj
  unfold issueServe
  dsimp only
  split
  · next q l hq =>
    rw [hq] at hn
    exact setTask_queue_jobOk hj' hn.1 hn.2
  · refine queue_jobOk hj' rfl fun r hr => ?_
    rw [hk]
    simpa [issueDone, replyOk] using Or.inl hr
  · next e he =>
    rw [he] at hn
    refine raise_jobOk hj' ?_
    rw [hk]
    simpa [replyOk, IssueNextOk] using hn

/-! ### DRAIN -/

theorem drainStep_jobOk {size : Word} {pos : DrainPos} {out : List Byte} {k : Nat}
    (hk : j.task = .drain size pos out k) : JobOk s.cfg (drainStep size pos out k s) := by
  rw [hk] at ho
  cases pos with
  | wait i =>
    obtain ⟨hi, hlen, hlt⟩ := ho
    have hj' := (poll_access (r := .status) rfl (fieldSet s.cfg.mask.rxwm) i s).job.trans hj
    simp only [drainStep]
    split
    · exact setTask_jobOk hj' ht ⟨hlen, hlt⟩
    · next q hq => exact setTask_jobOk hj' ht ⟨poll_again hq, hlen, hlt⟩
    · exact raise_jobOk hj' (by rw [hk]; exact .inr rfl)
  | read =>
    obtain ⟨hlen, hlt⟩ := ho
    have hj' := (Access.read (r := .rxdata 0) rfl s).job.trans hj
    refine setTask_jobOk hj' ht ⟨?_, hlt⟩
    simp only [drainTake, List.length_append, List.length_take, rxBytes_length]
    omega
  | pop a =>
    obtain ⟨hlen, hlt⟩ := ho
    have hj' := (act_access (F := fieldRxpop s.cfg) rfl a s).job.trans hj
    simp only [drainStep]
    split
    · exact setTask_jobOk hj' ht ⟨hlen, hlt⟩
    · unfold drainPopped
      split
      · exact setTask_queue_jobOk hj' ⟨pollOk_one hv, by omega, by omega⟩ (by simp)
      · refine queue_jobOk hj' rfl fun r hr => ?_
        obtain rfl : r = .ok (.bytes out) := by simpa using hr
        rw [hk]
        exact .inl ⟨out, rfl, by omega⟩

/-! ### FILL -/

theorem fillStep_jobOk {seq : BitVec 4} {addr : Word} {data : List Word} {pos : FillPos} {n lim : Nat}
    (hk : j.task = .fill seq addr data pos n lim) : JobOk s.cfg (fillStep seq addr data pos n lim s) := by
  have ho' := ho
  rw [hk] at ho'
  obtain ⟨hd, hl, hpos⟩ := ho'
  cases pos with
  | txne =>
    have hj' := (Access.read (r := .txstat) rfl s).job.trans hj
    have hpos' : ∀ c : Prop, [Decidable c] →
        taskOk s.cfg (.fill seq addr data (if c then .clear .start else .addr) n lim) := fun c _ => by
      split <;> exact ⟨hd, hl, hpos⟩
    exact setTask_jobOk hj' ht (hpos' _)
  | clear a =>
    have hj' := (act_access (F := fieldClrTxf s.cfg) rfl a s).job.trans hj
    simp only [fillStep]
    split <;> exact setTask_jobOk hj' ht ⟨hd, hl, hpos⟩
  | addr =>
    have hj' := (Access.write (r := .addr) rfl addr s).job.trans hj
    exact setTask_jobOk hj' ht (fillLoop_ok hv hd hl (by simp only at hpos; omega))
  | wait i =>
    obtain ⟨hi, hlt⟩ := hpos
    have hj' := (poll_access (r := .status) rfl (fun v => !fieldSet s.cfg.mask.txfull v) i s).job.trans hj
    simp only [fillStep]
    split
    · exact setTask_jobOk hj' ht ⟨hd, hl, hlt⟩
    · next q hq => exact setTask_jobOk hj' ht ⟨hd, hl, poll_again hq, hlt⟩
    · exact raise_jobOk hj' (by rw [hk]; exact .inr (.inr (.inl rfl)))
  | word =>
    have hj' := (Access.write (r := .txdata) rfl (data.getD n 0) s).job.trans hj
    exact setTask_jobOk hj' ht (fillLoop_ok hv hd hl hpos)
  | issue q =>
    obtain ⟨hq, hn⟩ := hpos
    have hnx := issueStep_ok seq addr (fillSize n) hv hq
    have hj' := (issueStep_access seq addr (fillSize n) q s).job.trans hj
    simp only [fillStep]
    split
    · next r l hr =>
      rw [hr] at hnx
      exact setTask_queue_jobOk hj' ⟨hd, hl, hnx.1, hn⟩ hnx.2
    · refine queue_jobOk hj' rfl fun r hr => ?_
      obtain rfl : r = .ok (.count n) := by simpa [issueDone] using hr
      rw [hk, hn, hl]
      exact .inl ⟨rfl, hd⟩
    · next e he =>
      rw [he] at hnx
      refine raise_jobOk hj' ?_
      rw [hk]
      obtain rfl | rfl := hnx
      · exact .inr (.inl rfl)
      · exact .inr (.inr (.inl rfl))

/-! ### WRITE_SEQ and INIT: no local, and the response at the end -/

omit hv ho in
theorem writeSeqStep_jobOk {index : BitVec 4} {words : Vector Word 4} {pos : WriteSeqPos}
    (hk : j.task = .writeSeq index words pos) : JobOk s.cfg (writeSeqStep index words pos s) := by
  have hw : ∀ r v, engineWrites r = true → (s.regWrite r v).eng.job = some j := fun r v hr =>
    (Access.write hr v s).job.trans hj
  cases pos with
  | lock =>
    refine queue_jobOk (hw _ _ rfl) rfl fun r hr => ?_
    obtain rfl : r = .ok .unit := by simpa using hr
    rw [hk]
    exact rfl
  | key1 | unlock | word | key2 => exact setTask_jobOk (hw _ _ rfl) ht trivial

omit hv ho in
theorem initRmw_jobOk {r : Role} (hr : engineReads r = true) (hw : engineWrites r = true) (f : Word → Word)
    (a : ActPos) (stay : ActPos → InitPos) (nxt : InitPos) : JobOk s.cfg (initRmw r f a stay nxt s) := by
  have hj' := (rmw_access hr hw f a s).job.trans hj
  unfold initRmw
  dsimp only
  split <;> exact setTask_jobOk hj' ht trivial

omit hv ho in
theorem initStep_jobOk {pos : InitPos} (hk : j.task = .init pos) : JobOk s.cfg (initStep pos s) := by
  have hdraw : s.draw.2.eng.job = some j := by rw [draw_eng]; exact hj
  cases pos <;> simp only [initStep]
  case map =>
    split
    · exact setTask_jobOk hdraw ht trivial
    · exact raise_jobOk hdraw (by rw [hk]; exact .inr (.inl rfl))
  case hold => exact setTask_jobOk hj ht trivial
  case clock =>
    split
    · exact setTask_jobOk hdraw ht trivial
    · exact raise_jobOk hdraw (by rw [hk]; exact .inr (.inr rfl))
  case timing =>
    refine queue_jobOk ((Access.write (r := .flshcfg) rfl _ s).job.trans hj) rfl fun r hr => ?_
    obtain rfl : r = .ok .unit := by simpa using hr
    rw [hk]
    exact .inl rfl
  case disable | resetSet | resetClear | enable | clearBuffers | watermark =>
    exact initRmw_jobOk hj ht rfl rfl _ _ _ _

/-! ### Every step -/

theorem taskStep_jobOk : JobOk s.cfg (taskStep j.task s) := by
  cases hk : j.task with
  | writeSeq index words pos => exact writeSeqStep_jobOk hj ht hk
  | issue seq addr size pos => exact issueServe_jobOk hv hj ho hk
  | drain size pos out k => exact drainStep_jobOk hv hj ht ho hk
  | fill seq addr data pos n lim => exact fillStep_jobOk hv hj ht ho hk
  | init pos => exact initStep_jobOk hj ht hk
end

/-- One step of the request in service. -/
theorem serve_jobOk {s : State} {j : Service} (hv : s.cfg.valid = true) (hj : s.eng.job = some j)
    (h : JobOk s.cfg s) : JobOk s.cfg (s.serve (taskStep j.task)) := by
  obtain ⟨hranges, hreply⟩ := h j hj
  cases ht : j.todo with
  | nil =>
    rw [serve_access s _ hj ht]
    exact taskStep_jobOk hv hj ht (hranges (by rw [ht]; rfl))
  | cons a rest =>
    cases a with
    | trace ev =>
      rw [serve_trace s _ hj ht]
      intro j' hj'
      rw [queue_job, traceEv_job, hj] at hj'
      cases hj'
      exact ⟨fun ha => hranges (by rw [ht]; exact ha),
        fun r hr => hreply r (by rw [ht]; exact List.mem_cons_of_mem _ hr)⟩
    | respond r =>
      rw [serve_respond s _ hj ht]
      intro j' hj'
      rw [finish_job] at hj'
      cases hj'

/-- The request that was just accepted: its counters are at their start, and a response it has at once is a DRAIN's of
no bytes or a FILL's `InvalidSize`. -/
theorem firstTask_serviceOk {p : Params} (hv : p.valid = true) {i : Instr} {k : Task} (hk : firstTask p i = some k)
    (who : Requester) (m : Mode) : ServiceOk p { sender := who, resume := m, task := k, todo := firstTodo i } := by
  cases i <;> cases hk
  case drain.refl size =>
    by_cases h0 : size.toNat = 0
    · refine ⟨fun ha => by simp [firstTodo, h0, answering] at ha, fun r hr => ?_⟩
      obtain rfl : r = .ok (.bytes []) := by simpa [firstTodo, h0] using hr
      exact .inl ⟨[], rfl, h0.symm⟩
    · exact ⟨fun _ => ⟨pollOk_one hv, rfl, by omega⟩, by simp [firstTodo, h0]⟩
  case fill.refl seq addr data =>
    by_cases h4 : data.length < txMinWords
    · refine ⟨fun ha => by simp [firstTodo, h4, answering] at ha, fun r hr => ?_⟩
      obtain rfl : r = .err .invalidSize := by simpa [firstTodo, h4] using hr
      exact .inr (.inr (.inr ⟨rfl, h4⟩))
    · exact ⟨fun _ => ⟨Nat.not_lt.mp h4, rfl, rfl⟩, by simp [firstTodo, h4]⟩
  case issue.refl => exact ⟨fun _ => pollOk_one hv, by simp [firstTodo]⟩
  case writeSeq.refl | init.refl => exact ⟨fun _ => trivial, by simp [firstTodo]⟩

/-- A request taken from the port. -/
theorem exec_request_jobOk {i : Instr} {s t : State} (hv : s.cfg.valid = true) (hj : s.eng.job = none)
    (hi : deviceInstr i = false) (hx : exec i s = .next t) : JobOk s.cfg t := by
  have hnone : ∀ u : State, u.eng.job = none → JobOk s.cfg u := fun u hu j hju => by
    rw [hu] at hju
    cases hju
  obtain rfl | ⟨hd, -⟩ | ⟨_, hs, -⟩ | ⟨-, ha⟩ := exec_cases hx
  · exact hnone _ hj
  · rw [hi] at hd
    cases hd
  · rw [hj] at hs
    cases hs
  · obtain ⟨k, hk, -, -, -, -, htj, -⟩ | ⟨-, -, htj, -⟩ := ha.goes
    · intro j hju
      rw [htj] at hju
      cases hju
      exact firstTask_serviceOk hv hk _ _
    · exact hnone _ (htj.trans hj)

/-- Settles O55: only the engine's own turn changes the request in service. -/
theorem stepKeepsLocalRanges : Obligations.StepKeepsLocalRanges := by
  unfold Obligations.StepKeepsLocalRanges
  intro s t hs h
  rw [localsInv_iff] at hs ⊢
  rw [(step_keeps h).cfg]
  have hu : JobOk s.cfg s.takeTurn.2 := jobOk_congr (by rw [takeTurn_eng]) hs
  obtain ⟨u, rfl, hv, hc⟩ := step_cases h
  have hvu : s.takeTurn.2.cfg.valid = true := by rw [takeTurn_cfg]; exact hv
  obtain ⟨-, ⟨j, hj, hx⟩ | ⟨-, -, rfl⟩ | ⟨m, i, hj, -, hi, hx⟩⟩ | ⟨-, hk⟩ | ⟨-, rfl | ⟨w, rest, r, v, -, rfl⟩⟩ := hc
  · rw [exec_serve hj] at hx
    cases hx
    have hserve := serve_jobOk hvu hj (by rw [takeTurn_cfg]; exact hu)
    rwa [takeTurn_cfg] at hserve
  · exact jobOk_congr (by rw [(pick_drawOnly _).eng]) hu
  · obtain ⟨hcfg, -, hg⟩ := pick_take_frame m s.takeTurn.2
    have hreq := exec_request_jobOk (by rw [hcfg]; exact hvu) (by rw [hg]; exact hj) (decodeRequest_not_device hi) hx
    rwa [hcfg, takeTurn_cfg] at hreq
  · exact jobOk_congr (by rw [hk.eng]) hu
  · exact hu
  · exact jobOk_congr (by rw [devWrite_eng]) hu

end Sys2Proof.Machine
end

section
/-! ## ISSUE and FILL, step by step (43_transaction_engine.md R150, R152, R154) -/

namespace Sys2Proof.Machine

/-! ### One poll -/

section
variable {r : Role} {ok : Word → Bool} {s : State} (i : Nat)

theorem poll_satisfied_eq (h : ok (s.regRead r).1 = true) : s.poll r ok i = (.satisfied, (s.regRead r).2) := by
  simp only [State.poll, h, if_true]

theorem poll_again_eq (h : ok (s.regRead r).1 = false) (hi : i < s.cfg.waitLimit) :
    s.poll r ok i = (.again (i + 1), (s.regRead r).2) := by
  simp [State.poll, h, hi]

theorem poll_expired_eq (h : ok (s.regRead r).1 = false) (hi : s.cfg.waitLimit ≤ i) :
    s.poll r ok i = (.expired, (s.regRead r).2) := by
  simp [State.poll, h, Nat.not_lt.mpr hi]
end

/-- A request whose response is no INIT's `Ok` gives it and is done: the device is as it was. -/
theorem exec_respond_plain {s : State} {j : Service} {r : Response} {rest : List Internal} (hj : s.eng.job = some j)
    (ht : j.todo = .respond r :: rest) (hb : j.boots r = false) :
    exec (taskInstr j.task) s =
      .next
        { s with
          eng := { s.eng with mode := j.resume, job := none }
          responses := s.responses ++ [(j.sender, r)] } := by
  rw [exec_respond hj ht, hb]
  rfl

/-! ### ISSUE's completion -/

/-- The poll that finds the transaction complete (R152). -/
theorem issueServe_done {seq : BitVec 4} {addr : Word} {size : Half} {i : Nat} {s : State}
    (h : busyClear s.cfg (s.regRead .status).1 = true) :
    issueServe seq addr size (.waitDone i) s = (s.regRead .status).2.queue (issueDone seq .unit) := by
  simp only [issueServe, issueStep, poll_satisfied_eq i h]

/-- Settles O31: the read, the trace event and the response, one step each. -/
theorem issueCompletes : Obligations.IssueCompletes := by
  unfold Obligations.IssueCompletes
  intro s j seq addr size i hv hj hk ht hc ha hf
  have hbusy := busy_reads_clear hv hc ha hf
  obtain ⟨-, -, hkey, hcfg, hport, hresp, hfor, hsch, heng⟩ := regRead_full .status s
  have h1 := exec_access hj ht
  rw [hk] at h1
  simp only [taskInstr, taskStep, issueServe_done hbusy] at h1
  have hj1 : ((s.regRead .status).2.queue (issueDone seq .unit)).eng.job =
      some { j with todo := issueDone seq .unit } := by
    rw [queue_job, heng, hj]
    rfl
  have h2 := exec_trace hj1 rfl
  simp only [hk, taskInstr] at h2
  have hj2 : ((((s.regRead .status).2.queue (issueDone seq .unit)).traceEv (.issueComplete seq)).queue
      [.respond (.ok .unit)]).eng.job = some { j with todo := [.respond (.ok .unit)] } := by
    rw [queue_job, traceEv_job, hj1]
    rfl
  have h3 := exec_respond_plain hj2 rfl (by simp [Service.boots, hk])
  simp only [hk, taskInstr] at h3
  refine ⟨_, _, _, (s.regRead .status).1, h1, h2, h3, ?_, ?_, by simp, ?_, hbusy, ?_, hkey, hcfg, hport, hfor,
    hsch⟩
  · rw [queue_hist, heng]
    rfl
  · rw [queue_trace, heng]
  · simp only [State.queue, State.traceEv, State.mapEng, heng]
    rfl
  · exact congrArg (· ++ [(j.sender, Response.ok Result.unit)]) hresp

/-! ### FILL's clear and its waits -/

/-- Drawing the whole device does not restore a contract, nor end one. -/
@[simp] theorem softReset_lawless (s : State) : s.softReset.dev.lawless = s.dev.lawless := by
  simp only [State.softReset, State.drawDevice, State.drawRx, State.drawTx, mapDev_dev, drawWords_dev, draw_dev]

@[simp] theorem dropRx_lawless (s : State) : s.dropRx.dev.lawless = s.dev.lawless := rfl

/-- A `CTRL` write with no transaction in flight is no race, whatever it resets. -/
theorem writeCtrl_lawless_idle {s : State} (hf : s.dev.inFlight = none) (v : Word) :
    (s.writeCtrl v).dev.lawless = s.dev.lawless := by
  have h0 : (if ctrlRaces s.cfg v then s.raceIfFlying else s) = s := by
    rw [raceIfFlying_idle hf, ite_self]
  simp only [State.writeCtrl, h0]
  split_ifs <;> simp

section
variable {s : State} {j : Service} {seq : BitVec 4} {addr : Word} {data : List Word} {n lim : Nat} {pos : FillPos}
  (hj : s.eng.job = some j) (ht : j.todo = [])
include hj ht

/-- An access step of FILL in service. -/
theorem exec_fill_access (hk : j.task = .fill seq addr data pos n lim) :
    exec (.fill seq addr data) s = .next (fillStep seq addr data pos n lim s) := by
  rw [exec_fill_serve hj hk, serve_access s _ hj ht]

omit ht in
/-- A read of FILL that leaves it at `k`: of the device only an armed key may change, and nothing is answered. -/
theorem regRead_setTask_frame (r : Role) (k : Task) :
    OnlyKey s.dev ((s.regRead r).2.setTask k).dev ∧ ((s.regRead r).2.setTask k).responses = s.responses ∧
      ((s.regRead r).2.setTask k).eng.job = some { j with task := k } := by
  obtain ⟨_, -, hkey, -, -, hresp, -⟩ := regRead_full r s
  refine ⟨hkey, hresp, ?_⟩
  rw [setTask_job, regRead_eng, hj]
  rfl
end

/-- `TXNE` reads set exactly with a word in the TX buffer (R51). -/
theorem txne_reads {s : State} (hv : s.cfg.valid = true) (hc : Contract s) :
    fieldSet s.cfg.mask.txne (s.regRead .txstat).1 = decide (s.dev.txBuf ≠ []) := by
  obtain ⟨w, hw, -⟩ := regRead_full .txstat s
  rw [hw, readAnswer_contract hc, txstatAnswer_flag hv, Device.txne]
  cases s.dev.txBuf <;> simp

/-- `TXFULL` reads set exactly at the TX buffer's capacity (R50). -/
theorem txfull_reads {s : State} (hv : s.cfg.valid = true) (hc : Contract s) (ha : StatusApart s.cfg) :
    fieldSet s.cfg.mask.txfull (s.regRead .status).1 = decide (s.cfg.txCapacity ≤ s.dev.txBuf.length) := by
  obtain ⟨w, hw, -⟩ := regRead_full .status s
  rw [hw, readAnswer_contract hc, (statusAnswer_flags hv ha s.dev w).2.2, Device.txfull]

/-- Settles O39: FILL's four positions before its words and between them. -/
theorem fillClearsAndWaits : Obligations.FillClearsAndWaits := by
  unfold Obligations.FillClearsAndWaits
  intro s j seq addr data n lim hv hj ht hc ha
  refine ⟨fun hk => ?_, fun hk => ?_, fun v hk => ?_, fun i hk => ?_⟩
  · have hx := exec_fill_access hj ht hk
    simp only [fillStep, txne_reads hv hc] at hx
    obtain ⟨hkey, hresp, hjob⟩ := regRead_setTask_frame hj .txstat
      (.fill seq addr data (if decide (s.dev.txBuf ≠ []) then .clear .start else .addr) n lim)
    refine ⟨_, hx, hkey, hresp, hjob.trans ?_⟩
    by_cases hb : s.dev.txBuf = [] <;> simp [hb]
  · have hx := exec_fill_access hj ht hk
    simp only [fillStep, State.act, fieldClrTxf, isRmw, if_true, State.rmw] at hx
    obtain ⟨hkey, hresp, hjob⟩ := regRead_setTask_frame hj .ctrl
      (.fill seq addr data (.clear (.write (s.regRead .ctrl).1)) n lim)
    exact ⟨_, (s.regRead .ctrl).1, hx, hkey, hresp, by rw [setTask_hist, regRead_eng]; rfl, hjob⟩
  · have hx := exec_fill_access hj ht hk
    simp only [fillStep, State.act, fieldClrTxf, isRmw, if_true, State.rmw, setBits] at hx
    refine ⟨_, hx, by simp, by rw [setTask_hist, regWrite_eng]; rfl, by rw [setTask_job, regWrite_eng, hj]; rfl,
      fun hf => ?_⟩
    obtain ⟨u, hs, hkey, -, he⟩ := devWrite_spec hc.1 .ctrl (v ||| s.cfg.mask.clrTxf)
    have hclr : fieldSet u.cfg.mask.clrTxf (v ||| s.cfg.mask.clrTxf) = true := by
      rw [hs.1]
      exact fieldSet_or_self v (masks_ne hv).2.2.2.2.2.2.2.1
    rw [setTask_dev, regWrite_dev, he]
    refine ⟨writeCtrl_clrTxf hclr, ?_⟩
    rw [State.writeEffect, writeCtrl_lawless_idle (hkey.apart.inFlight.trans hf), hkey.apart.lawless]
    exact hc.2
  · have hx := exec_fill_access hj ht hk
    have hfull := txfull_reads hv hc ha
    simp only [fillStep] at hx
    by_cases hroom : s.dev.txBuf.length < s.cfg.txCapacity
    · rw [poll_satisfied_eq i (by simpa [hfull] using hroom)] at hx
      obtain ⟨hkey, hresp, hjob⟩ := regRead_setTask_frame hj .status (.fill seq addr data .word n lim)
      exact ⟨_, hx, hkey, hresp, fun _ => hjob, fun h => absurd hroom (Nat.not_lt.mpr h),
        fun h => absurd hroom (Nat.not_lt.mpr h)⟩
    · have hno : (!fieldSet s.cfg.mask.txfull (s.regRead .status).1) = false := by
        simpa [hfull] using Nat.not_lt.mp hroom
      by_cases hi : i < s.cfg.waitLimit
      · rw [poll_again_eq i hno hi] at hx
        obtain ⟨hkey, hresp, hjob⟩ := regRead_setTask_frame hj .status (.fill seq addr data (.wait (i + 1)) n lim)
        exact ⟨_, hx, hkey, hresp, fun h => absurd h hroom, fun _ _ => hjob,
          fun _ h => absurd hi (Nat.not_lt.mpr h)⟩
      · rw [poll_expired_eq i hno (Nat.not_lt.mp hi)] at hx
        obtain ⟨_, -, hkey, -, -, hresp, -⟩ := regRead_full .status s
        refine ⟨_, hx, hkey, hresp, fun h => absurd h hroom, fun _ h => absurd h hi, fun _ _ => ?_⟩
        have hj1 : ((s.regRead .status).2.raise .timeout).eng.job =
            some { j with todo := [.respond (.err .timeout)] } := by
          rw [raise_eq, queue_job, regRead_eng, hj]
          rfl
        have h2 := exec_respond_plain hj1 rfl (boots_err _ _)
        simp only [hk, taskInstr] at h2
        exact ⟨_, h2, rfl, congrArg (· ++ [(j.sender, Response.err ErrorKind.timeout)]) hresp, rfl⟩

end Sys2Proof.Machine
end

section
/-! ## ISSUE from its first wait to its trigger (43_transaction_engine.md R152; 10_state.md R44, R47)

ISSUE and FILL's inner ISSUE share `issueStep`, so the run is made once, for a task that has an inner ISSUE
(`IssueTask`). `Moves` collects what the steps do to the engine, `Cleared` what they do to the device. -/

namespace Sys2Proof.Machine

/-! ### Steps of the inner ISSUE -/

/-- The task has an inner ISSUE of these operands: it is ISSUE, or FILL in its inner ISSUE. -/
def IssueTask (seq : BitVec 4) (addr : Word) (size : Half) (k : Task) : Prop :=
  (∃ q, k = .issue seq addr size q) ∨
    ∃ data q n lim, k = .fill seq addr data (.issue q) n lim ∧ size = fillSize n

theorem IssueTask.set {seq : BitVec 4} {addr : Word} {size : Half} {k : Task} (h : IssueTask seq addr size k)
    (q : IssuePos) : IssueTask seq addr size (setIssuePos q k) := by
  obtain ⟨_, rfl⟩ | ⟨data, _, n, lim, rfl, hs⟩ := h
  · exact .inl ⟨q, rfl⟩
  · exact .inr ⟨data, q, n, lim, rfl, hs⟩

@[simp] theorem setIssuePos_setIssuePos (q r : IssuePos) (k : Task) :
    setIssuePos r (setIssuePos q k) = setIssuePos r k := by
  cases k with
  | fill _ _ _ pos _ _ => cases pos <;> rfl
  | issue | writeSeq | drain | init => rfl

/-- `t` is `s` after steps of the request in service that made the accesses `h`, gave no response and traced nothing,
and left it at `k` with the actions `td`. -/
structure Moves (s t : State) (k : Task) (td : List Internal) (h : List Event) : Prop where
  cfg : t.cfg = s.cfg
  responses : t.responses = s.responses
  eng : t.eng =
    { s.eng with hist := s.eng.hist ++ h, job := s.eng.job.map (fun j => { j with task := k, todo := td }) }

namespace Moves

theorem trans {s t u : State} {k k' : Task} {td td' : List Internal} {h h' : List Event} (a : Moves s t k td h)
    (b : Moves t u k' td' h') : Moves s u k' td' (h ++ h') := by
  refine ⟨b.cfg.trans a.cfg, b.responses.trans a.responses, ?_⟩
  rw [b.eng, a.eng]
  simp [Function.comp_def]

theorem job {s t : State} {k : Task} {td : List Internal} {h : List Event} {j : Service} (m : Moves s t k td h)
    (hj : s.eng.job = some j) : t.eng.job = some { j with task := k, todo := td } := by
  rw [m.eng, hj]
  rfl

end Moves

section
variable {s : State} {j : Service} {seq : BitVec 4} {addr : Word} {size : Half} {q : IssuePos}
  (hj : s.eng.job = some j) (ht : j.todo = []) (hk : IssueTask seq addr size j.task) (hq : issuePos j.task = some q)
include hj ht hk hq

/-- A step of the inner ISSUE that goes on at `r`. -/
theorem exec_issueStep {r : IssuePos} {l : List Internal} {u : State} (h : issueStep seq addr size q s = (.at r l, u)) :
    exec (taskInstr j.task) s = .next ((u.setTask (setIssuePos r j.task)).queue l) := by
  rw [exec_access hj ht]
  obtain ⟨q', hi⟩ | ⟨data, q', n, lim, hi, rfl⟩ := hk <;> rw [hi] at hq ⊢ <;> cases hq
  · simp only [taskStep, issueServe, h, setIssuePos]
  · simp only [taskStep, fillStep, h, setIssuePos]

/-- Such a step, with a register write. -/
theorem issueStep_write {r : IssuePos} {l : List Internal} {x : Role} {v : Word}
    (h : issueStep seq addr size q s = (.at r l, s.regWrite x v)) :
    ∃ t, exec (taskInstr j.task) s = .next t ∧ t.dev = (s.devWrite x v).dev ∧
      Moves s t (setIssuePos r j.task) l [.wr (offOf s.cfg x) v] :=
  ⟨_, exec_issueStep hj ht hk hq h, rfl, by simp, by simp, by
    simp [State.queue, State.setTask, State.mapEng, Function.comp_def]⟩

/-- Such a step, with a register read. -/
theorem issueStep_read {r : IssuePos} {l : List Internal} {x : Role}
    (h : issueStep seq addr size q s = (.at r l, (s.regRead x).2)) :
    ∃ t, exec (taskInstr j.task) s = .next t ∧ OnlyKey s.dev t.dev ∧
      Moves s t (setIssuePos r j.task) l [.rd (offOf s.cfg x) (s.regRead x).1] :=
  ⟨_, exec_issueStep hj ht hk hq h, (devRead_spec x s).2.1, by simp, by simp, by
    simp [State.queue, State.setTask, State.mapEng, Function.comp_def]⟩
end

/-! ### What the steps do to the device -/

theorem and_eq_zero_of_and_or {x a b : Word} (h : x &&& (a ||| b) = 0#32) : x &&& b = 0#32 := by
  ext i hi
  have hb := congrArg (fun v => v[i]) h
  simp at hb ⊢
  cases hx : x[i] <;> simp_all

/-- `RXPTR_CLR` is apart from the bits that disable or reset (R31). -/
theorem CtrlApart.rxptrClr {p : Params} (h : CtrlApart p) : haltMask p &&& p.mask.rxptrClr = 0#32 :=
  and_eq_zero_of_and_or h

/-- A value that halts nothing resets nothing. -/
theorem swrst_of_halt {p : Params} {v : Word} (h : v &&& haltMask p = 0#32) : fieldSet (swrstMask p) v = false :=
  fieldSet_eq_false.mpr (and_eq_zero_of_and_or h)

/-- A write at a device whose clock is on: its effect, on the device with the key as it may have been left. -/
theorem devWrite_key {s : State} (hc : s.dev.clockOn = true) (r : Role) (v : Word) :
    ∃ (u : State) (b : Bool), u.cfg = s.cfg ∧ u.dev = { s.dev with keyArmed := b } ∧
      s.devWrite r v = u.writeEffect r v := by
  obtain ⟨u, hs, ⟨⟨b, hb⟩, -⟩, -, he⟩ := devWrite_spec hc r v
  exact ⟨u, b, hs.1, hb, he⟩

/-- `e` is `d` after `RXPTR_CLR` was set: no stale read data, and `x` in the TX buffer. The key, `CTRL` and `RXCTL`
may have changed. -/
def Cleared (d e : Device) (x : List Word) : Prop :=
  ∃ b c r, e = { d with keyArmed := b, ctrl := c, rxctl := r, txBuf := x, rxBuf := [], rxPtr := 0 }

/-- The controller answers by its contract, is enabled and runs no transaction. -/
structure Standing (p : Params) (d : Device) : Prop where
  clock : d.clockOn = true
  lawful : d.lawless = false
  idle : d.inFlight = none
  enabled : fieldSet (haltMask p) d.ctrl = false

theorem Standing.key {p : Params} {d : Device} (h : Standing p d) (b : Bool) : Standing p { d with keyArmed := b } :=
  ⟨h.clock, h.lawful, h.idle, h.enabled⟩

theorem Standing.of {s : State} (hc : Contract s) (he : s.dev.enabled s.cfg = true) (hf : s.dev.inFlight = none) :
    Standing s.cfg s.dev := by
  simp only [Device.enabled, hc.1, Bool.true_and, Bool.not_eq_true'] at he
  exact ⟨hc.1, hc.2, hf, he⟩

/-- Where `RXPTR_CLR` has a register of its own, its write clears and does nothing else. -/
theorem devWrite_rxptrClr_own {s : State} (hv : s.cfg.valid = true) (h : Standing s.cfg s.dev) :
    Standing s.cfg (s.devWrite .rxptrClr s.cfg.mask.rxptrClr).dev ∧
      Cleared s.dev (s.devWrite .rxptrClr s.cfg.mask.rxptrClr).dev s.dev.txBuf := by
  obtain ⟨u, b, hcfg, hd, he⟩ := devWrite_key h.clock .rxptrClr s.cfg.mask.rxptrClr
  have hself := fieldSet_self (masks_ne hv).2.2.2.2.2.1
  have hu : u.dev.inFlight = none := by rw [hd]; exact h.idle
  have hdev : (s.devWrite .rxptrClr s.cfg.mask.rxptrClr).dev =
      { s.dev with keyArmed := b, rxBuf := [], rxPtr := 0 } := by
    rw [he, State.writeEffect, hcfg, if_pos hself, State.rxptrClear, raceIfFlying_idle hu, State.dropRx, mapDev_dev, hd]
  rw [hdev]
  exact ⟨⟨h.clock, h.lawful, h.idle, h.enabled⟩, b, _, _, rfl⟩

/-- Where it is in `RXCTL`, the write of a value that sets it clears, and `RXCTL` takes the value. -/
theorem devWrite_rxptrClr_rxctl {s : State} (hr : rxptrRole s.cfg = .rxctl) (h : Standing s.cfg s.dev) {v : Word}
    (hv : fieldSet s.cfg.mask.rxptrClr v = true) :
    Standing s.cfg (s.devWrite .rxctl v).dev ∧ Cleared s.dev (s.devWrite .rxctl v).dev s.dev.txBuf := by
  obtain ⟨u, b, hcfg, hd, he⟩ := devWrite_key h.clock .rxctl v
  have hu : u.dev.inFlight = none := by rw [hd]; exact h.idle
  have hdev : (s.devWrite .rxctl v).dev = { s.dev with keyArmed := b, rxctl := v, rxBuf := [], rxPtr := 0 } := by
    rw [he, State.writeEffect, State.writeRxctl, hcfg, if_pos ⟨hr, hv⟩, State.rxptrClear,
      raceIfFlying_idle (by exact hu), State.dropRx, mapDev_dev, mapDev_dev, hd]
  rw [hdev]
  exact ⟨⟨h.clock, h.lawful, h.idle, h.enabled⟩, b, _, _, rfl⟩

/-- Where it is in `CTRL`, so does the write of a value that sets it and halts nothing; the TX buffer stays unless the
value sets `CLR_TXF` too. -/
theorem devWrite_rxptrClr_ctrl {s : State} (hr : rxptrRole s.cfg = .ctrl) (h : Standing s.cfg s.dev) {v : Word}
    (hv : fieldSet s.cfg.mask.rxptrClr v = true) (hhalt : v &&& haltMask s.cfg = 0#32) :
    Standing s.cfg (s.devWrite .ctrl v).dev ∧
      Cleared s.dev (s.devWrite .ctrl v).dev (if fieldSet s.cfg.mask.clrTxf v then [] else s.dev.txBuf) := by
  obtain ⟨u, b, hcfg, hd, he⟩ := devWrite_key h.clock .ctrl v
  have hu : u.dev.inFlight = none := by rw [hd]; exact h.idle
  have hdev : (s.devWrite .ctrl v).dev =
      { s.dev with
        keyArmed := b
        ctrl := v
        txBuf := if fieldSet s.cfg.mask.clrTxf v then [] else s.dev.txBuf
        rxBuf := []
        rxPtr := 0 } := by
    rw [he, State.writeEffect, writeCtrl_plain (.inl hu) (by rw [hcfg]; exact swrst_of_halt hhalt), hd]
    simp [hcfg, hr, hv]
  rw [hdev]
  exact ⟨⟨h.clock, h.lawful, h.idle, fieldSet_eq_false.mpr hhalt⟩, b, _, _, rfl⟩

/-- The write of `ADDR`. -/
theorem devWrite_addr {s : State} (h : Standing s.cfg s.dev) (v : Word) :
    Standing s.cfg (s.devWrite .addr v).dev ∧
      ∃ b, (s.devWrite .addr v).dev = { s.dev with keyArmed := b, addr := v } := by
  obtain ⟨u, b, -, hd, he⟩ := devWrite_key h.clock .addr v
  have hdev : (s.devWrite .addr v).dev = { s.dev with keyArmed := b, addr := v } := by
    rw [he, State.writeEffect, raceIfFlying_idle (by rw [hd]; exact h.idle), mapDev_dev, hd]
  exact ⟨by rw [hdev]; exact ⟨h.clock, h.lawful, h.idle, h.enabled⟩, b, hdev⟩

/-- `SEQPTR_CLR` (R47). -/
theorem devWrite_seqptrClr {s : State} (hv : s.cfg.valid = true) (h : Standing s.cfg s.dev) :
    Standing s.cfg (s.devWrite .sptrclr s.cfg.mask.seqptrClr).dev ∧
      ∃ b, (s.devWrite .sptrclr s.cfg.mask.seqptrClr).dev = { s.dev with keyArmed := b, seqPtr := 0 } := by
  obtain ⟨u, b, hcfg, hd, he⟩ := devWrite_key h.clock .sptrclr s.cfg.mask.seqptrClr
  have hself := fieldSet_self (masks_ne hv).2.2.2.2.2.2.1
  have hdev : (s.devWrite .sptrclr s.cfg.mask.seqptrClr).dev = { s.dev with keyArmed := b, seqPtr := 0 } := by
    rw [he, State.writeEffect, hcfg, if_pos hself, raceIfFlying_idle (by rw [hd]; exact h.idle), mapDev_dev, hd]
  exact ⟨by rw [hdev]; exact ⟨h.clock, h.lawful, h.idle, h.enabled⟩, b, hdev⟩

/-- The trigger (R44). -/
theorem devWrite_ipcmd {s : State} (h : Standing s.cfg s.dev) (seq : BitVec 4) (size : Half) :
    ∃ b, (s.devWrite .ipcmd (packIpcmd seq size)).dev =
      { s.dev with
        keyArmed := b
        ipcmd := packIpcmd seq size
        executed := []
        inFlight :=
          some { seq := seq, addr := s.dev.addr, size := size, start := s.dev.seqPtr, wild := false } } := by
  obtain ⟨u, b, hcfg, hd, he⟩ := devWrite_key h.clock .ipcmd (packIpcmd seq size)
  have hen : u.dev.enabled u.cfg = true := by
    rw [hd, hcfg]
    simp [Device.enabled, h.clock, h.enabled]
  have hw := (writeIpcmd_idle (s := u) (by rw [hd]; exact h.idle) (packIpcmd seq size)).1 hen
  rw [ipcmdSeq_pack, ipcmdSize_pack, hd] at hw
  exact ⟨b, by rw [he]; exact hw⟩

/-! ### The clear of the RX pointer -/

theorem execTimes_one {i : Instr} {s t : State} (h : exec i s = .next t) : execTimes i 1 s = .next t := by
  simp [execTimes, h]

theorem execTimes_two {i : Instr} {s t u : State} (h : exec i s = .next t) (k : exec i t = .next u) :
    execTimes i 2 s = .next u := by
  simp [execTimes, h, k]

/-- ISSUE's `Act(RXPTR_CLR)`, wherever the field lies: its accesses are R64's, and on a device that stands it clears,
if no `CTRL` read is answered with a bit that resets or disables. -/
theorem issue_clears {s : State} {j : Service} {seq : BitVec 4} {addr : Word} {size : Half}
    (hv : s.cfg.valid = true) (hj : s.eng.job = some j) (ht : j.todo = []) (hk : IssueTask seq addr size j.task)
    (hq : issuePos j.task = some (.rxPtr .start)) (ha : CtrlApart s.cfg) :
    ∃ t a, execTimes (taskInstr j.task) (actCost (fieldRxptrClr s.cfg)) s = .next t ∧
      ActTrace s.cfg (fieldRxptrClr s.cfg) a ∧ Moves s t (setIssuePos (.seqPtr .start) j.task) [] a ∧
      (Standing s.cfg s.dev → CtrlReadsClear s.cfg a →
        Standing s.cfg t.dev ∧ ∃ x, Cleared s.dev t.dev x ∧
          ((∀ v, .wr s.cfg.off.ctrl v ∈ a → fieldSet s.cfg.mask.clrTxf v = false) → x = s.dev.txBuf)) := by
  have hmask := (masks_ne hv).2.2.2.2.2.1
  by_cases hrmw : rxptrRole s.cfg = .rxptrClr
  · obtain ⟨t, hx, hd, hm⟩ := issueStep_write hj ht hk hq (r := .seqPtr .start) (l := []) (x := .rxptrClr)
      (v := s.cfg.mask.rxptrClr) (by simp [issueStep, State.act, fieldRxptrClr, hrmw, isRmw])
    refine ⟨t, _, ?_, ?_, hm, fun hst _ => ?_⟩
    · rw [show actCost (fieldRxptrClr s.cfg) = 1 by simp [actCost, fieldRxptrClr, hrmw]]
      exact execTimes_one hx
    · simp [ActTrace, fieldRxptrClr, hrmw]
    · rw [hd]
      obtain ⟨h1, h2⟩ := devWrite_rxptrClr_own hv hst
      exact ⟨h1, _, h2, fun _ => rfl⟩
  · have hrole : rxptrRole s.cfg = .ctrl ∨ rxptrRole s.cfg = .rxctl := by
      obtain h | h | h := rxptrRole_cases s.cfg
      · exact .inl h
      · exact .inr h
      · exact absurd h hrmw
    have hisRmw : isRmw (rxptrRole s.cfg) = true := by
      obtain h | h := hrole <;> rw [h] <;> rfl
    obtain ⟨t, hx, hkey, hm⟩ := issueStep_read hj ht hk hq (r := .rxPtr (.write (s.regRead (rxptrRole s.cfg)).1))
      (l := []) (x := rxptrRole s.cfg) (by simp [issueStep, State.act, State.rmw, fieldRxptrClr, hisRmw])
    generalize (s.regRead (rxptrRole s.cfg)).1 = w at hx hm
    have hjt := hm.job hj
    obtain ⟨u, hx', hd', hm'⟩ := issueStep_write hjt rfl (hk.set _)
      (issuePos_setIssuePos _ hq) (r := .seqPtr .start) (l := []) (x := rxptrRole s.cfg)
      (v := w ||| s.cfg.mask.rxptrClr)
      (by simp [issueStep, State.act, State.rmw, setBits, fieldRxptrClr, hisRmw, hm.cfg])
    rw [taskInstr_setIssuePos] at hx'
    rw [setIssuePos_setIssuePos, hm.cfg] at hm'
    refine ⟨u, _, ?_, ?_, hm.trans hm', fun hst hreads => ?_⟩
    · rw [show actCost (fieldRxptrClr s.cfg) = 2 by simp [actCost, fieldRxptrClr, hrole]]
      exact execTimes_two hx hx'
    · rw [ActTrace, if_pos (by simpa [fieldRxptrClr] using hrole)]
      exact ⟨w, rfl⟩
    · rw [hd']
      obtain ⟨⟨b, hb⟩, -⟩ := hkey
      have hstt : Standing t.cfg t.dev := by
        rw [hm.cfg, hb]
        exact hst.key b
      have hset : fieldSet t.cfg.mask.rxptrClr (w ||| s.cfg.mask.rxptrClr) = true := by
        rw [hm.cfg]
        exact fieldSet_or_self w hmask
      have hcleared : ∀ {e : Device} {x : List Word}, Cleared t.dev e x → Cleared s.dev e x := by
        rintro e x ⟨b', c, r, rfl⟩
        exact ⟨b', c, r, by rw [hb]⟩
      have htx : t.dev.txBuf = s.dev.txBuf := by rw [hb]
      obtain hr | hr := hrole
      · have hhalt : (w ||| s.cfg.mask.rxptrClr) &&& haltMask t.cfg = 0#32 := by
          rw [hm.cfg, and_or_apart ha.rxptrClr]
          exact hreads w (by simp [hr, offOf])
        rw [hr]
        obtain ⟨h1, h2⟩ := devWrite_rxptrClr_ctrl (by rw [hm.cfg]; exact hr) hstt hset hhalt
        rw [hm.cfg] at h1 h2
        refine ⟨h1, _, hcleared h2, fun hclr => ?_⟩
        rw [hclr (w ||| s.cfg.mask.rxptrClr) (by simp [offOf]), htx]
        rfl
      · rw [hr]
        obtain ⟨h1, h2⟩ := devWrite_rxptrClr_rxctl (by rw [hm.cfg]; exact hr) hstt hset
        rw [hm.cfg] at h1
        exact ⟨h1, _, hcleared h2, fun _ => htx⟩

/-! ### The run -/

section
variable {s : State} {j : Service} {seq : BitVec 4} {addr : Word} {size : Half} (hv : s.cfg.valid = true)
  (hj : s.eng.job = some j) (ht : j.todo = []) (hk : IssueTask seq addr size j.task)
include hv hj ht hk

/-- A first wait that one poll satisfies, and the write of `ADDR`. -/
theorem issue_leads (hq : issuePos j.task = some (.waitIdle 1)) (hst : Standing s.cfg s.dev)
    (hs : StatusApart s.cfg) :
    ∃ t v, execTimes (taskInstr j.task) 2 s = .next t ∧
      Moves s t (setIssuePos (.rxPtr .start) j.task) [] [.rd s.cfg.off.status v, .wr s.cfg.off.addr addr] ∧
      Standing s.cfg t.dev ∧ ∃ b, t.dev = { s.dev with keyArmed := b, addr := addr } := by
  have hbusy := busy_reads_clear hv ⟨hst.clock, hst.lawful⟩ hs hst.idle
  obtain ⟨t, hx, ⟨⟨b, hb⟩, -⟩, hm⟩ := issueStep_read hj ht hk hq (r := .addr) (l := []) (x := .status)
    (by simp only [issueStep, poll_satisfied_eq 1 hbusy])
  have hstt : Standing t.cfg t.dev := by
    rw [hm.cfg, hb]
    exact hst.key b
  obtain ⟨u, hx', hd, hm'⟩ := issueStep_write (hm.job hj) rfl (hk.set _) (issuePos_setIssuePos _ hq)
    (r := .rxPtr .start) (l := []) (x := .addr) (v := addr) rfl
  rw [taskInstr_setIssuePos] at hx'
  rw [setIssuePos_setIssuePos, hm.cfg] at hm'
  obtain ⟨hstu, b', hdev⟩ := devWrite_addr hstt addr
  rw [← hd] at hstu hdev
  rw [hm.cfg] at hstu
  refine ⟨u, (s.regRead .status).1, execTimes_two hx hx', hm.trans hm', hstu, b', ?_⟩
  rw [hdev, hb]

/-- The clear of the cursor, the trigger, and its trace event; a device that stands has started the transaction. -/
theorem issue_starts (hq : issuePos j.task = some (.seqPtr .start)) :
    ∃ t, execTimes (taskInstr j.task) 3 s = .next t ∧
      t.eng.job = some { j with task := setIssuePos (.waitDone 1) j.task } ∧
      t.eng.trace = s.eng.trace ++ [.issueStart seq addr size] ∧
      t.eng.hist = s.eng.hist ++
        [.wr s.cfg.off.sptrclr s.cfg.mask.seqptrClr, .wr s.cfg.off.ipcmd (packIpcmd seq size)] ∧
      t.responses = s.responses ∧
      (Standing s.cfg s.dev → ∃ b, t.dev =
        { s.dev with
          keyArmed := b
          seqPtr := 0
          ipcmd := packIpcmd seq size
          executed := []
          inFlight := some { seq := seq, addr := s.dev.addr, size := size, start := 0, wild := false } }) := by
  obtain ⟨t, hx, hd, hm⟩ := issueStep_write hj ht hk hq (r := .command) (l := []) (x := .sptrclr)
    (v := s.cfg.mask.seqptrClr) rfl
  obtain ⟨u, hx', hd', hm'⟩ := issueStep_write (hm.job hj) rfl (hk.set _) (issuePos_setIssuePos _ hq)
    (r := .waitDone 1) (l := [.trace (.issueStart seq addr size)]) (x := .ipcmd) (v := packIpcmd seq size) rfl
  rw [taskInstr_setIssuePos] at hx'
  rw [setIssuePos_setIssuePos, hm.cfg] at hm'
  have hall := hm.trans hm'
  have hju := hall.job hj
  have hx'' := exec_trace hju rfl
  simp only [taskInstr_setIssuePos] at hx''
  refine ⟨(u.traceEv (.issueStart seq addr size)).queue [], ?_, ?_, ?_, ?_, hall.responses, fun hst => ?_⟩
  · rw [execTimes_succ hx]
    exact execTimes_two hx' hx''
  · rw [queue_job, traceEv_job, hju, Option.map_some, ← ht]
  · rw [queue_trace, traceEv_trace, hall.eng]
  · rw [queue_hist, traceEv_hist, hall.eng]
    rfl
  · obtain ⟨hstt, b, hb⟩ := devWrite_seqptrClr hv hst
    rw [← hd] at hstt hb
    rw [← hm.cfg] at hstt
    obtain ⟨b', hb'⟩ := devWrite_ipcmd hstt seq size
    refine ⟨b', ?_⟩
    rw [queue_dev, traceEv_dev, hd', hb', hb]

/-- The inner ISSUE from a first wait that one poll satisfies to its trigger, traced: the accesses are R152's, and a
device that stands has started its transaction, if no `CTRL` read is answered with a bit that resets or disables. -/
theorem issue_triggers (hq : issuePos j.task = some (.waitIdle 1)) (hst : Standing s.cfg s.dev)
    (hs : StatusApart s.cfg) (ha : CtrlApart s.cfg) :
    ∃ t l, execTimes (taskInstr j.task) (5 + actCost (fieldRxptrClr s.cfg)) s = .next t ∧
      t.eng.job = some { j with task := setIssuePos (.waitDone 1) j.task } ∧
      t.eng.trace = s.eng.trace ++ [.issueStart seq addr size] ∧ t.eng.hist = s.eng.hist ++ l ∧
      TriggerTrace s.cfg seq addr size l ∧ t.responses = s.responses ∧
      (CtrlReadsClear s.cfg l →
        Started s.dev t.dev seq addr size ∧
          ((∀ v, .wr s.cfg.off.ctrl v ∈ l → fieldSet s.cfg.mask.clrTxf v = false) → t.dev.txBuf = s.dev.txBuf)) := by
  obtain ⟨t, v, hx, hm, hstt, b, hb⟩ := issue_leads hv hj ht hk hq hst hs
  have hposT := issuePos_setIssuePos (.rxPtr .start) hq
  obtain ⟨u, a, hx', hact, hm', hclears⟩ := issue_clears (by rw [hm.cfg]; exact hv) (hm.job hj) rfl (hk.set _) hposT
    (by rw [hm.cfg]; exact ha)
  simp only [taskInstr_setIssuePos, setIssuePos_setIssuePos, hm.cfg] at hx' hact hm' hclears
  have hall := hm.trans hm'
  obtain ⟨w, hx'', hjob, htrace, hhist, hresp, hstarts⟩ := issue_starts (by rw [hall.cfg]; exact hv) (hall.job hj) rfl
    (hk.set _) (issuePos_setIssuePos (.seqPtr .start) hq)
  simp only [taskInstr_setIssuePos, setIssuePos_setIssuePos, hall.cfg] at hx'' hjob hhist hstarts
  refine ⟨w, _, ?_, hjob.trans (by rw [← ht]), htrace.trans (by rw [hall.eng]),
    hhist.trans (by rw [hall.eng, List.append_assoc]), ⟨v, a, hact, rfl⟩, hresp.trans hall.responses, fun hreads => ?_⟩
  · rw [show 5 + actCost (fieldRxptrClr s.cfg) = 2 + (actCost (fieldRxptrClr s.cfg) + 3) by omega, execTimes_add hx,
      execTimes_add hx']
    exact hx''
  · obtain ⟨hstu, x, ⟨b', c, r, hu⟩, hx⟩ := hclears hstt fun y hy => hreads y (by simp [hy])
    obtain ⟨b'', hw⟩ := hstarts hstu
    rw [hw, hu, hb]
    refine ⟨⟨rfl, rfl, rfl, rfl, rfl, rfl, rfl, hst.lawful, rfl, rfl, rfl⟩, fun hclr => ?_⟩
    rw [hx fun y hy => hclr y (by simp [hy]), hb]
end

/-- Settles O30: ISSUE is accepted and then runs to its trigger; FILL's inner ISSUE runs the same. -/
theorem issueStartsItsTransaction : Obligations.IssueStartsItsTransaction := by
  unfold Obligations.IssueStartsItsTransaction
  refine ⟨fun s seq addr size hv hr hc he hf hs ha => ?_, fun s j seq addr data n lim hv hj hk ht hc he hf hs ha => ?_⟩
  · obtain ⟨t, l, hx, hjob, htrace, hhist, hl, hresp, hstart⟩ :=
      issue_triggers (s := s.begin (.issue seq addr size (.waitIdle 1)) []) hv rfl rfl (.inl ⟨_, rfl⟩) rfl
        (Standing.of hc he hf) hs ha
    refine ⟨t, l, ?_, hjob.trans ?_, htrace, hhist, hl, hresp, fun h => (hstart h).1⟩
    · rw [show 6 + actCost (fieldRxptrClr s.cfg) = (5 + actCost (fieldRxptrClr s.cfg)) + 1 by omega,
        execTimes_succ (exec_issue_ready hr seq addr size)]
      exact hx
    · rw [hr.2.1]
      rfl
  · obtain ⟨t, l, hx, hrest⟩ := issue_triggers hv hj ht (.inr ⟨data, _, n, lim, hk, rfl⟩) (by rw [hk]; rfl)
      (Standing.of hc he hf) hs ha
    rw [hk] at hx hrest
    exact ⟨t, l, hx, hrest⟩

end Sys2Proof.Machine
end

section
/-! ## The encoded forms (30_encoding.md R82, R86 to R92) -/

namespace Sys2Proof.Machine

/-! ### A LUT instruction (R82, R90) -/

/-- The fields of a half-word, packed under the value of its own opcode. -/
theorem packLut_of_opcode {n : BitVec 6} {h : Half} (hn : lutOpcode h = n) :
    packLut n (lutPad h) (lutOperand h) = h := by
  rw [← hn, packLut_fields]

/-- What holds of each branch of a conditional where it is taken holds of the conditional. -/
theorem ite_of_cases {α : Type} {P : α → Prop} {c : Prop} [Decidable c] {a b : α} (ha : c → P a) (hb : ¬c → P b) :
    P (if c then a else b) := by
  split
  · exact ha ‹_›
  · exact hb ‹_›

/-- Settles O5: each branch of the decoder gives an instruction that encodes under the opcode it tested, and the last
one is left with an opcode that is none of the assigned values. -/
theorem everyHalfWordDecodes : Obligations.EveryHalfWordDecodes := by
  unfold Obligations.EveryHalfWordDecodes
  intro p h
  unfold decodeLut
  repeat
    refine ite_of_cases (P := fun i => Instr.wf p i = true ∧ encode p i = .luti16 h)
      (fun hn => ⟨rfl, congrArg Encoded.luti16 (packLut_of_opcode hn)⟩) fun _ => ?_
  refine ⟨?_, congrArg Encoded.luti16 (packLut_of_opcode rfl)⟩
  simp [Instr.wf, Opcodes.isUnassigned, Opcodes.toList, *]

/-! ### The IP-command word (R86, R91) -/

/-- `SEQID` lies above `DATSZ`, so the two fields add up. -/
theorem packIpcmd_toNat (seq : BitVec 4) (size : Half) :
    (packIpcmd seq size).toNat = seq.toNat * 16777216 + size.toNat := by
  have hseq := seq.isLt
  have hsize := size.isLt
  have hadd := Nat.shiftLeft_add_eq_or_of_lt (i := 24) (b := size.toNat) (by omega) seq.toNat
  rw [Nat.shiftLeft_eq] at hadd
  simp only [packIpcmd, BitVec.toNat_or, BitVec.toNat_shiftLeft, BitVec.toNat_setWidth, Nat.shiftLeft_eq]
  rw [Nat.mod_eq_of_lt (a := seq.toNat) (by omega), Nat.mod_eq_of_lt (a := size.toNat) (by omega),
    Nat.mod_eq_of_lt (by omega), ← hadd]

/-- The two fields of a word pack to the word without its reserved bits. -/
theorem packIpcmd_fields (w : Word) : packIpcmd (ipcmdSeq w) (ipcmdSize w) = w &&& ~~~0xF0FF0000#32 := by
  ext k hk
  unfold packIpcmd ipcmdSeq ipcmdSize
  interval_cases k <;> simp

theorem eq_and_not_iff (w m : Word) : w = w &&& ~~~m ↔ w &&& m = 0#32 := by
  simp only [BitVec.eq_of_getElem_eq_iff, BitVec.getElem_and, BitVec.getElem_not, BitVec.getElem_zero]
  refine forall₂_congr fun k hk => ?_
  cases w[k] <;> cases m[k] <;> simp

theorem decodeIpcmd_ok_iff (w : Word) : (∃ i, decodeIpcmd w = .ok i) ↔ w &&& 0xF0FF0000#32 = 0#32 := by
  rw [← eq_and_not_iff, ← packIpcmd_fields]
  unfold decodeIpcmd
  split
  · next h => exact iff_of_true ⟨_, rfl⟩ h
  · next h => exact iff_of_false (fun ⟨_, hi⟩ => nomatch hi) h

/-- Settles O6. -/
theorem ipcmdWordLayout : Obligations.IpcmdWordLayout := ⟨packIpcmd_toNat, decodeIpcmd_ok_iff⟩

/-! ### The requests (R88, R89)

What a request's decoder accepts, its instruction encodes to: an argument inside its width is the number that the
word it is read into stands for. -/

section
variable {l : List Nat} {i : Instr}

/-- Arguments inside their width are read back from the words they are read into. -/
theorem map_toNat_ofNat {n : Nat} (h : allBelow n l = true) : l.map (fun a => (BitVec.ofNat n a).toNat) = l := by
  simp only [allBelow, List.all_eq_true, decide_eq_true_eq] at h
  calc l.map (fun a => (BitVec.ofNat n a).toNat)
      = l.map id := List.map_congr_left fun a ha => by simp [Nat.mod_eq_of_lt (h a ha)]
    _ = l := List.map_id l

variable (p : Params)

theorem encode_of_decodeEncode (h : decodeEncode l = .ok i) : encode p i = .req ⟨0, l⟩ := by
  unfold decodeEncode at h
  split at h
  · split at h <;> cases h
    next hb => exact congrArg (fun a => Encoded.req ⟨0, a⟩) (map_toNat_ofNat hb)
  · cases h

theorem encode_of_decodeDecode (h : decodeDecode l = .ok i) : encode p i = .req ⟨1, l⟩ := by
  unfold decodeDecode at h
  split at h
  · split at h <;> cases h
    next hb => exact congrArg (fun a => Encoded.req ⟨1, a⟩) (map_toNat_ofNat hb)
  · cases h

theorem encode_of_decodeWriteSeq (h : decodeWriteSeq l = .ok i) : encode p i = .req ⟨2, l⟩ := by
  unfold decodeWriteSeq at h
  split at h
  · split at h <;> cases h
    next hb =>
      obtain ⟨hindex, hwords⟩ := Bool.and_eq_true_iff.mp hb
      exact congrArg₂ (fun a b => Encoded.req ⟨2, a ++ b⟩) (map_toNat_ofNat hindex) (map_toNat_ofNat hwords)
  · cases h

/-- ISSUE's size may be left out (R88). -/
theorem encode_of_decodeIssue (h : decodeIssue l = .ok i) :
    encode p i = .req ⟨3, l⟩ ∨ ∃ seq addr, i = .issue seq addr 0 ∧ l = [seq.toNat, addr.toNat] := by
  unfold decodeIssue at h
  split at h
  · split at h <;> cases h
    next hb =>
      obtain ⟨hsa, hsize⟩ := Bool.and_eq_true_iff.mp hb
      obtain ⟨hseq, haddr⟩ := Bool.and_eq_true_iff.mp hsa
      have hargs := congrArg₂ (· ++ ·) (map_toNat_ofNat hseq) (map_toNat_ofNat haddr)
      exact .inl (congrArg₂ (fun a b => Encoded.req ⟨3, a ++ b⟩) hargs (map_toNat_ofNat hsize))
  · split at h <;> cases h
    next hb =>
      obtain ⟨hseq, haddr⟩ := Bool.and_eq_true_iff.mp hb
      exact .inr ⟨_, _, rfl, (congrArg₂ (· ++ ·) (map_toNat_ofNat hseq) (map_toNat_ofNat haddr)).symm⟩
  · cases h

theorem encode_of_decodeDrain (h : decodeDrain l = .ok i) : encode p i = .req ⟨4, l⟩ := by
  unfold decodeDrain at h
  split at h
  · split at h <;> cases h
    next hb => exact congrArg (fun a => Encoded.req ⟨4, a⟩) (map_toNat_ofNat hb)
  · cases h

theorem encode_of_decodeFill (h : decodeFill l = .ok i) : encode p i = .req ⟨5, l⟩ := by
  unfold decodeFill at h
  split at h
  · split at h <;> cases h
    next hb =>
      obtain ⟨hargs, -⟩ := Bool.and_eq_true_iff.mp hb
      obtain ⟨hseq, hwords⟩ := Bool.and_eq_true_iff.mp hargs
      have hcat := congrArg₂ (· ++ ·) (map_toNat_ofNat hseq) (map_toNat_ofNat hwords)
      simpa [encode, words32, Function.comp_def] using hcat
  · cases h

theorem encode_of_decodeAcquire (h : decodeAcquire l = .ok i) : encode p i = .req ⟨6, l⟩ := by
  unfold decodeAcquire at h
  split at h <;> cases h
  rfl

theorem encode_of_decodeRelease (h : decodeRelease l = .ok i) : encode p i = .req ⟨7, l⟩ := by
  unfold decodeRelease at h
  split at h <;> cases h
  rfl

theorem encode_of_decodeInit (h : decodeInit l = .ok i) : encode p i = .req ⟨8, l⟩ := by
  unfold decodeInit at h
  split at h <;> cases h
  rfl
end

/-- A message that decodes has one of the nine tags, and is what its instruction encodes to, ISSUE's size apart. -/
theorem decodeRequest_ok (p : Params) {m : Message} {i : Instr} (h : decodeRequest m = .ok i) :
    m.tag ≤ 8 ∧
      (encode p i = .req m ∨ ∃ seq addr, i = .issue seq addr 0 ∧ m = ⟨3, [seq.toNat, addr.toNat]⟩) := by
  obtain ⟨tag, args⟩ := m
  match tag with
  | 0 => exact ⟨by simp, .inl (encode_of_decodeEncode p h)⟩
  | 1 => exact ⟨by simp, .inl (encode_of_decodeDecode p h)⟩
  | 2 => exact ⟨by simp, .inl (encode_of_decodeWriteSeq p h)⟩
  | 3 =>
    refine ⟨by simp, (encode_of_decodeIssue p h).imp_right ?_⟩
    rintro ⟨seq, addr, hi, rfl⟩
    exact ⟨seq, addr, hi, rfl⟩
  | 4 => exact ⟨by simp, .inl (encode_of_decodeDrain p h)⟩
  | 5 => exact ⟨by simp, .inl (encode_of_decodeFill p h)⟩
  | 6 => exact ⟨by simp, .inl (encode_of_decodeAcquire p h)⟩
  | 7 => exact ⟨by simp, .inl (encode_of_decodeRelease p h)⟩
  | 8 => exact ⟨by simp, .inl (encode_of_decodeInit p h)⟩
  | _ + 9 => cases h

/-- A message that names no request, once the engine takes it (R89). -/
theorem fetchEngine_refused {s : State} {m : Posted} {e : Reject} (hj : s.eng.job = none)
    (hp : s.pick.1 = some m) (he : decodeRequest m.msg = .error e) :
    fetchEngine s = .done (.refused (.notARequest e)) := by
  simp only [fetchEngine, hj, hp, he]

/-- Settles O7. -/
theorem unnamedRequestIsRefused : Obligations.UnnamedRequestIsRefused := by
  unfold Obligations.UnnamedRequestIsRefused
  refine ⟨fun p m i => decodeRequest_ok p, fun s m e hv ht hj hp he => ?_⟩
  have hj' : s.takeTurn.2.eng.job = none := by rw [takeTurn_eng]; exact hj
  rw [step_engine hv ht, fetchEngine_refused hj' hp he]
  rfl

/-! ### The effective length of a sequence (R87, R92) -/

/-- STOP is opcode 0, whatever the configuration (R85). -/
theorem isStop_decodeLut (p : Params) (h : Half) : (decodeLut p h).isStop = true ↔ lutOpcode h = 0#6 := by
  unfold decodeLut
  refine ite_of_cases (P := fun i => Instr.isStop i = true ↔ lutOpcode h = 0#6) (fun h0 => iff_of_true rfl h0)
    fun h0 => iff_of_false ?_ h0
  repeat refine ite_of_both (P := fun i => ¬ Instr.isStop i = true) Bool.false_ne_true ?_
  exact Bool.false_ne_true

@[simp] theorem seqInstrs_length (p : Params) (ws : List Word) : (seqInstrs p ws).length = 2 * ws.length := by
  simp [seqInstrs, List.length_flatMap, Nat.mul_comm]

/-- Word `k` holds `I(2k)` in slot 0 and `I(2k+1)` in slot 1 (R87). -/
theorem seqInstrs_getElem? (p : Params) {ws : List Word} {k : Nat} {w : Word} (hw : ws[k]? = some w) :
    (seqInstrs p ws)[2 * k]? = some (decodeLut p (slot0 w)) ∧
      (seqInstrs p ws)[2 * k + 1]? = some (decodeLut p (slot1 w)) := by
  induction ws generalizing k with
  | nil => cases hw
  | cons v ws ih =>
    cases k with
    | zero =>
      cases hw
      exact ⟨rfl, rfl⟩
    | succ k => exact ih hw

/-- An instruction before the effective length is no STOP, and the one at it is. -/
theorem effectiveLength_opcode {p : Params} {ws : List Word} {n : Nat} {h : Half}
    (hn : (seqInstrs p ws)[n]? = some (decodeLut p h)) :
    (n < effectiveLength p ws → lutOpcode h ≠ 0#6) ∧ (n = effectiveLength p ws → lutOpcode h = 0#6) := by
  simp only [← isStop_decodeLut p h, ne_eq]
  refine ⟨fun hlt => ?_, fun heq => ?_⟩
  · obtain ⟨_, hi⟩ := List.getElem?_eq_some_iff.mp hn
    rw [← hi]
    exact Bool.eq_false_iff.mp (List.not_of_lt_findIdx hlt)
  · rw [heq] at hn
    exact List.findIdx_of_getElem?_eq_some hn

/-- Settles O9. -/
theorem effectiveLengthIsFirstStop : Obligations.EffectiveLengthIsFirstStop := by
  unfold Obligations.EffectiveLengthIsFirstStop
  intro p ws hl
  refine ⟨?_, fun k _ w hw => ?_⟩
  · calc effectiveLength p ws ≤ (seqInstrs p ws).length := List.findIdx_le_length
      _ = 8 := by rw [seqInstrs_length, hl]
  · obtain ⟨h0, h1⟩ := seqInstrs_getElem? p hw
    exact ⟨(effectiveLength_opcode h0).1, (effectiveLength_opcode h1).1, (effectiveLength_opcode h0).2,
      (effectiveLength_opcode h1).2⟩

end Sys2Proof.Machine
end

section
/-! ## The response of a request in service (30_encoding.md R88; 60_exceptions.md R192) -/

namespace Sys2Proof.Machine

theorem firstTask_of_device (p : Params) {i : Instr} (h : deviceInstr i = true) : firstTask p i = none := by
  cases i <;> cases h <;> rfl

/-- A response to a request that makes accesses is the internal action its service had next: acceptance and accesses
give none. -/
theorem exec_gives_response {i : Instr} {s t : State} {who : Requester} {r : Response}
    (hi : firstTask s.cfg i ≠ none) (hx : exec i s = .next t) (hr : t.responses = s.responses ++ [(who, r)]) :
    ∃ j, s.eng.job = some j ∧ taskInstr j.task = i ∧ j.sender = who ∧ .respond r ∈ j.todo := by
  have hne : t.responses ≠ s.responses := by simp [hr]
  obtain rfl | ⟨hd, -⟩ | ⟨j, hj, hk, hs⟩ | ⟨-, ha⟩ := exec_cases hx
  · exact absurd rfl hne
  · exact absurd (firstTask_of_device _ hd) hi
  · obtain ⟨-, hacc⟩ | ⟨ev, rest, -, rfl⟩ | ⟨q, rest, htodo, rfl⟩ := hs.goes j hj
    · exact absurd hacc.responses hne
    · exact absurd rfl hne
    · rw [finish_of_job q s hj] at hr
      obtain ⟨hwho, hq⟩ : j.sender = who ∧ q = r := by simpa using hr
      exact ⟨j, hj, hk, hwho, by simp [htodo, hq]⟩
  · obtain ⟨k, -, -, -, -, -, -, hsame⟩ | ⟨hnone, -⟩ := ha.goes
    · exact absurd hsame hne
    · exact absurd hnone hi

/-- Settles O35: the response that a DRAIN in service has left is one of its own. -/
theorem drainResponseLength : Obligations.DrainResponseLength := by
  unfold Obligations.DrainResponseLength
  intro s t size who l hl hx hr
  obtain ⟨j, hj, hk, -, hm⟩ := exec_gives_response (by simp [firstTask]) hx hr
  have hreply := (((localsInv_iff s).mp hl) j hj).reply _ hm
  cases ht : j.task <;> rw [ht] at hk hreply <;> cases hk
  simpa [replyOk] using hreply

end Sys2Proof.Machine
end

section
/-! ## What one step of a LUT instruction does, whole (40_lut_instructions.md R101, R108 to R110, R115 to R119) -/

namespace Sys2Proof.Machine

/-- A draw, whole: the state is as it was, apart from what the free values draw from. -/
theorem draw_eq (s : State) : s.draw.2 = { s with answers := s.draw.2.answers, drawn := s.draw.2.drawn } := by
  unfold State.draw; split <;> rfl

/-! ### STOP (R101) -/

/-- Drawing the whole device keeps the record of the transaction. -/
@[simp] theorem drawDevice_executed (s : State) : s.drawDevice.dev.executed = s.dev.executed := by
  simp only [State.drawDevice, State.drawRx, State.drawTx, mapDev_dev, drawWords_dev, draw_dev]

/-- Drawing the whole device neither ends the contract nor restores it. -/
@[simp] theorem drawDevice_lawless (s : State) : s.drawDevice.dev.lawless = s.dev.lawless := by
  simp only [State.drawDevice, State.drawRx, State.drawTx, mapDev_dev, drawWords_dev, draw_dev]

section
variable {s : State} {f : Flight} (pad : BitVec 2) (x : Byte)

theorem exec_stop_plain (hf : s.dev.inFlight = some f) :
    exec (.stop 0#2 0#8) s = .next (s.record (.stop 0#2 0#8)).complete := by
  simp only [exec, execStop, hf, and_self, if_true]

theorem exec_stop_drawn (hf : s.dev.inFlight = some f) (h : ¬(pad = 0#2 ∧ x = 0#8)) :
    exec (.stop pad x) s = .next (s.record (.stop pad x)).drawDevice.complete := by
  simp only [exec, execStop, hf, h, if_false]

end

/-- Settles O21: a STOP with no pad and no operand only completes; any other one draws the device first. -/
theorem stopEndsTransaction : Obligations.StopEndsTransaction := by
  unfold Obligations.StopEndsTransaction
  intro s f pad x hf
  by_cases h : pad = 0#2 ∧ x = 0#8
  · obtain ⟨rfl, rfl⟩ := h
    exact ⟨_, exec_stop_plain hf, .refl s, rfl, rfl, rfl, rfl, fun _ _ => rfl⟩
  · have hk := ((record_keeps (.stop pad x) s).trans (drawDevice_keeps _)).trans (complete_keeps _)
    exact ⟨_, exec_stop_drawn pad x hf h, .of hk.toDevOnly, rfl, drawDevice_executed _, hk.clock,
      drawDevice_lawless _, fun hp hx => absurd ⟨hp, hx⟩ h⟩

/-! ### The read and write phases (R108, R109, R115, R116)

Both end alike: once the buffer has or has not moved, the phase is done or goes on. -/

/-- The end of a phase's step, whole. -/
theorem phaseDone_ite_eq {u : State} {f : Flight} (hf : u.dev.inFlight = some f) (i : Instr) (b : Bool) :
    (if b then phaseDone i u else u) =
      { u with
        dev :=
          { u.dev with
            executed := if b then u.dev.executed ++ [i] else u.dev.executed
            seqPtr := if b then (if u.dev.seqPtr + 1 < 8 then u.dev.seqPtr + 1 else 8) else u.dev.seqPtr
            inFlight := if b = true ∧ ¬ u.dev.seqPtr + 1 < 8 then none else some f } } := by
  cases b
  · simp [← hf]
  · by_cases hc : u.dev.seqPtr + 1 < 8 <;> simp [phaseDone_eq hf, hc]

/-- A byte that arrives with room for it, or no byte at all (R35, R108). -/
theorem rxPush_ite_eq {s : State} (h : s.dev.rxBuf.length < s.cfg.rxCapacity ∨ s.draw.1.getLsbD 8 = false) :
    (if s.draw.1.getLsbD 8 then s.draw.2.rxPush (s.draw.1.extractLsb' 0 8) else s.draw.2) =
      { s with
        answers := s.draw.2.answers
        drawn := s.draw.2.drawn
        dev :=
          { s.dev with
            rxBuf := if s.draw.1.getLsbD 8 then s.dev.rxBuf ++ [s.draw.1.extractLsb' 0 8] else s.dev.rxBuf } } := by
  cases hb : s.draw.1.getLsbD 8
  · exact draw_eq s
  · have hroom : s.draw.2.dev.rxBuf.length < s.draw.2.cfg.rxCapacity := by
      simpa using h.resolve_right (by rw [hb]; exact Bool.true_eq_false.mp)
    simp only [State.rxPush, hroom, if_true]
    rw [draw_eq s]
    rfl

/-- A byte that finds the RX buffer full (R233). -/
theorem rxPush_full_dev {s : State} {f : Flight} (hf : s.dev.inFlight = some f)
    (h : s.cfg.rxCapacity ≤ s.dev.rxBuf.length) (b : Byte) :
    ∃ l, (s.rxPush b).dev = { s.dev with rxBuf := l, inFlight := some { f with wild := true } } := by
  obtain ⟨l, -, hl⟩ := drawRx_dev s
  have hfl : s.drawRx.dev.inFlight = some f := by rw [hl]; exact hf
  refine ⟨l, ?_⟩
  rw [State.rxPush, if_neg (Nat.not_lt.mpr h), setWild_dev hfl, hl]

/-- The oldest TX word leaves the TX buffer, or does not. -/
theorem txTake_ite_eq (s : State) :
    (if s.draw.1.getLsbD 8 then s.draw.2.txTake else s.draw.2) =
      { s with
        answers := s.draw.2.answers
        drawn := s.draw.2.drawn
        dev := { s.dev with txBuf := if s.draw.1.getLsbD 8 then s.dev.txBuf.drop 1 else s.dev.txBuf } } := by
  cases s.draw.1.getLsbD 8
  · exact draw_eq s
  · rw [draw_eq s, List.drop_one]
    rfl

/-- The step of a read phase that meets an overflow, on the device: the LUT and the TX buffer stay, and what is left of
the transaction has no constrained outcome (R233), whether or not the phase ends in this step. -/
theorem phaseRead_full_dev {s : State} {f : Flight} (hf : s.dev.inFlight = some f)
    (h : s.cfg.rxCapacity ≤ s.dev.rxBuf.length) (hb : s.draw.1.getLsbD 8 = true) (i : Instr) :
    (phaseRead i s).dev.mem = s.dev.mem ∧ (phaseRead i s).dev.txBuf = s.dev.txBuf ∧
      ∀ g, (phaseRead i s).dev.inFlight = some g → g.wild = true := by
  obtain ⟨l, hl⟩ := rxPush_full_dev (s := s.draw.2) (f := f) (by simpa using hf) (by simpa using h)
    (s.draw.1.extractLsb' 0 8)
  rw [draw_dev] at hl
  simp only [phaseRead, hb, if_true]
  rw [phaseDone_ite_eq (f := { f with wild := true }) (by rw [hl]), hl]
  refine ⟨rfl, rfl, fun g hg => ?_⟩
  obtain ⟨-, rfl⟩ := by simpa using hg
  rfl

/-- Settles O22: first the byte arrives or not, then the phase ends or goes on. -/
theorem readPhaseFillsRxBuffer : Obligations.ReadPhaseFillsRxBuffer := by
  unfold Obligations.ReadPhaseFillsRxBuffer
  intro s f pad x i hf hp hi
  have he : exec i s = .next (phaseRead i s) := by
    rcases List.mem_pair.mp hi with rfl | rfl <;> exact lutPhase_wired (g := phaseRead _) hf hp
  rw [he]
  refine ⟨fun hroom => ?_, fun hfull hb => ?_⟩
  · simp only [phaseRead]
    rw [rxPush_ite_eq hroom, phaseDone_ite_eq (f := f)]
    exact hf
  · exact ⟨_, rfl, .of (phaseRead_keeps i s).toDevOnly, phaseRead_full_dev hf hfull hb i⟩

/-- Settles O23: first the word leaves or not, then the phase ends or goes on. -/
theorem writePhaseConsumesTxBuffer : Obligations.WritePhaseConsumesTxBuffer := by
  unfold Obligations.WritePhaseConsumesTxBuffer
  intro s f pad x i hf hp hi
  have he : exec i s = .next (phaseWrite i s) := by
    rcases List.mem_pair.mp hi with rfl | rfl <;> exact lutPhase_wired (g := phaseWrite _) hf hp
  rw [he]
  simp only [phaseWrite]
  rw [txTake_ite_eq, phaseDone_ite_eq (f := f)]
  exact hf

/-! ### The instructions without a constrained outcome (R110, R118, R119) -/

/-- A recorded instruction that leaves the transaction without a constrained outcome, whole. -/
theorem record_setWild_eq {s : State} {f : Flight} (hf : s.dev.inFlight = some f) (i : Instr) :
    (s.record i).setWild =
      { s with
        dev := { s.dev with executed := s.dev.executed ++ [i], inFlight := some { f with wild := true } } } := by
  simp [State.setWild, State.record, State.mapDev, hf]

/-- Settles O24: JUMP_ON_CS has this effect as a phase, an unwired pad width has it whatever the phase, and an
unassigned opcode ends the contract besides. -/
theorem unconstrainedInstructions : Obligations.UnconstrainedInstructions := by
  unfold Obligations.UnconstrainedInstructions
  intro s f pad x hf
  refine ⟨fun i hi => ?_, fun n => ?_⟩
  · rw [← record_setWild_eq hf i]
    obtain ⟨hp, rfl⟩ | ⟨hp, hi⟩ := hi
    · exact lutPhase_wired (g := fun t => (t.record (.jumpOnCs pad x)).setWild) hf hp
    · obtain ⟨g, he⟩ : ∃ g, ∀ t, exec i t = lutPhase i pad g t := by
        simp only [List.mem_cons, List.not_mem_nil, or_false] at hi
        rcases hi with rfl | rfl | rfl | rfl | rfl | rfl | rfl | rfl | rfl | rfl | rfl | rfl | rfl | rfl | rfl | rfl <;>
          exact ⟨_, fun _ => rfl⟩
      rw [he, lutPhase_unwired hf hp]
  · simp only [exec, execUnassigned, hf]
    rw [record_setWild_eq hf]
    rfl

end Sys2Proof.Machine
end

section
/-! ## ENCODE and DECODE (41_encoder.md R130 to R133)

A word is its two halves appended and a half its three fields appended (`encodeWord_eq_append`, `packLut_eq_append`), so
the values of R130 and R131 and the two round trips of R132 are read off appended fields. -/

namespace Sys2Proof.Machine

/-! ### Fields side by side (30_encoding.md R81, R82) -/

/-- Appended fields do not overlap, so their values add up. -/
theorem toNat_append_eq_add {m n : Nat} (x : BitVec m) (y : BitVec n) :
    (x ++ y).toNat = x.toNat * 2 ^ n + y.toNat := by
  rw [BitVec.toNat_append, ← Nat.shiftLeft_add_eq_or_of_lt y.isLt, Nat.shiftLeft_eq]

theorem packLut_eq_append (op : BitVec 6) (pad : BitVec 2) (x : Byte) : packLut op pad x = op ++ pad ++ x := by
  rw [packLut, ← BitVec.setWidth_eq (op ++ pad ++ x), BitVec.setWidth_append_append_eq_shiftLeft_setWidth_or]

theorem encodeWord_eq_append (i0 i1 : Triple) : encodeWord i0 i1 = i1.enc16 ++ i0.enc16 := by
  rw [encodeWord, ← BitVec.setWidth_eq (i1.enc16 ++ i0.enc16), BitVec.setWidth_append_eq_shiftLeft_setWidth_or]

/-! ### The values of the fields -/

theorem enc16_toNat (i : Triple) :
    i.enc16.toNat = i.opcode.toNat % 64 * 1024 + i.pad.toNat % 4 * 256 + i.operand.toNat % 256 := by
  rw [Triple.enc16, packLut_eq_append, toNat_append_eq_add, toNat_append_eq_add]
  simp only [BitVec.toNat_setWidth]
  omega

theorem encodeWord_toNat (i0 i1 : Triple) :
    (encodeWord i0 i1).toNat = i1.enc16.toNat * 65536 + i0.enc16.toNat := by
  simp only [encodeWord_eq_append, toNat_append_eq_add, Nat.reducePow]

theorem dec16_toNat (h : Half) :
    (dec16 h).opcode.toNat = h.toNat / 1024 ∧ (dec16 h).pad.toNat = h.toNat / 256 % 4 ∧
      (dec16 h).operand.toNat = h.toNat % 256 := by
  have hlt := h.isLt
  simp only [dec16, lutOpcode, lutPad, lutOperand, BitVec.toNat_setWidth, BitVec.extractLsb'_toNat,
    Nat.shiftRight_eq_div_pow]
  omega

theorem slot0_toNat (w : Word) : (slot0 w).toNat = w.toNat % 65536 := by
  simp [slot0, BitVec.extractLsb'_toNat]

theorem slot1_toNat (w : Word) : (slot1 w).toNat = w.toNat / 65536 := by
  have hlt := w.isLt
  simp only [slot1, BitVec.extractLsb'_toNat, Nat.shiftRight_eq_div_pow]
  omega

/-! ### Packing and unpacking are inverse (R132) -/

/-- Cut to its low bits and widened again, a word is masked. -/
theorem setWidth_setWidth_eq_and (x : Word) (k : Nat) :
    (x.setWidth k).setWidth 32 = x &&& BitVec.ofNat 32 (2 ^ k - 1) := by
  apply BitVec.eq_of_getLsbD_eq
  intro j hj
  simp only [BitVec.getLsbD_setWidth, BitVec.getLsbD_and, BitVec.getLsbD_ofNat, Nat.testBit_two_pow_sub_one, hj,
    decide_true, Bool.true_and, Bool.and_comm]

theorem dec16_enc16 (i : Triple) : dec16 i.enc16 = i.masked := by
  simp [dec16, Triple.enc16, Triple.masked, setWidth_setWidth_eq_and]

theorem enc16_dec16 (h : Half) : (dec16 h).enc16 = h := by
  simp [Triple.enc16, dec16, BitVec.setWidth_setWidth_of_le, packLut_fields]

/-- A decoded triple is masked already. -/
theorem masked_dec16 (h : Half) : (dec16 h).masked = dec16 h := by rw [← dec16_enc16, enc16_dec16]

/-- Packing masks, so it takes a triple as it is (R133). -/
theorem enc16_masked (i : Triple) : i.masked.enc16 = i.enc16 := by rw [← dec16_enc16, enc16_dec16]

theorem slot0_encodeWord (i0 i1 : Triple) : slot0 (encodeWord i0 i1) = i0.enc16 := by
  rw [encodeWord_eq_append]
  exact BitVec.extractLsb'_append_eq_right

theorem slot1_encodeWord (i0 i1 : Triple) : slot1 (encodeWord i0 i1) = i1.enc16 := by
  rw [encodeWord_eq_append]
  exact BitVec.extractLsb'_append_eq_left

theorem decodeWord_encodeWord (i0 i1 : Triple) : decodeWord (encodeWord i0 i1) = (i0.masked, i1.masked) := by
  rw [decodeWord, slot0_encodeWord, slot1_encodeWord, dec16_enc16, dec16_enc16]

theorem encodeWord_decodeWord (w : Word) : encodeWord (decodeWord w).1 (decodeWord w).2 = w := by
  rw [encodeWord_eq_append, decodeWord, enc16_dec16, enc16_dec16]
  exact BitVec.extractLsb'_append_extractLsb'

/-- On masked triples ENCODE has DECODE as its inverse. -/
theorem encodeWord_bijective_on_masked :
    Function.Bijective
      (fun x : { p : Triple × Triple // p.1.masked = p.1 ∧ p.2.masked = p.2 } => encodeWord x.1.1 x.1.2) := by
  refine Function.bijective_iff_has_inverse.mpr
    ⟨fun w => ⟨decodeWord w, masked_dec16 _, masked_dec16 _⟩, fun ⟨p, h0, h1⟩ => ?_, encodeWord_decodeWord⟩
  exact Subtype.ext ((decodeWord_encodeWord p.1 p.2).trans (Prod.ext h0 h1))

/-! ### The two requests -/

/-- A request that INIT need not come before is accepted unless another one is served or owns the lock. -/
theorem admission_open {s : State} (hm : s.eng.mode ≠ .active) (ho : ownerAllows s.eng.owner s.eng.offer = true) :
    s.admission false = .accepted := by
  have ho' : ¬(s.eng.owner ≠ none ∧ s.eng.owner ≠ some s.eng.offer) := by
    simpa [ownerAllows, or_iff_not_imp_left] using ho
  rw [State.admission, if_neg hm, if_neg ho', if_neg (by simp)]

/-- Settles O1: ENCODE is accepted and answers the word, whose value is the sum of its fields in their places. -/
theorem encodeAnswersPackedWord : Obligations.EncodeAnswersPackedWord := by
  unfold Obligations.EncodeAnswersPackedWord
  intro i0 i1 s hm ho
  refine ⟨encodeWord i0 i1, ?_, ?_⟩
  · simp only [exec, execEncode, admission_open hm ho, State.replyNow, State.reply]
  · rw [encodeWord_toNat, enc16_toNat, enc16_toNat]

/-- Settles O2: DECODE is accepted and answers the fields of each half, which are quotients and remainders of the
word. -/
theorem decodeAnswersBothTriples : Obligations.DecodeAnswersBothTriples := by
  unfold Obligations.DecodeAnswersBothTriples
  intro w s hm ho
  refine ⟨dec16 (slot0 w), dec16 (slot1 w), ?_, ?_⟩
  · simp only [exec, execDecode, admission_open hm ho, State.replyNow, State.reply, decodeWord]
  · obtain ⟨ha, hb, hc⟩ := dec16_toNat (slot0 w)
    obtain ⟨hd, he, hf⟩ := dec16_toNat (slot1 w)
    rw [slot0_toNat] at ha hb hc
    rw [slot1_toNat] at hd he hf
    omega

/-- What ENCODE does depends on its triples through the word only. -/
theorem exec_encode_congr {i0 i1 j0 j1 : Triple} (s : State) (h : encodeWord i0 i1 = encodeWord j0 j1) :
    exec (.encode i0 i1) s = exec (.encode j0 j1) s := by
  simp only [exec, execEncode, h]

/-- Settles O3: on halves, packing and unpacking are inverse up to the masks, and packing sees the masked fields
only. -/
theorem encodeDecodeRoundTrip : Obligations.EncodeDecodeRoundTrip := by
  unfold Obligations.EncodeDecodeRoundTrip
  refine ⟨decodeWord_encodeWord, encodeWord_decodeWord, encodeWord_bijective_on_masked, ?_⟩
  intro i0 i1 j0 j1 s h0 h1
  refine exec_encode_congr s ?_
  rw [encodeWord, encodeWord, ← enc16_masked i0, ← enc16_masked i1, h0, h1, enc16_masked, enc16_masked]

end Sys2Proof.Machine
end

section
/-! ## WRITE_SEQ and the table (10_state.md R40 to R43; 42_lut_manager.md R140 to R144) -/

namespace Sys2Proof.Machine

/-! ### Words written one after the other into the LUT's storage -/

/-- Bytes written one after the other. -/
def Memory.writeCells (m : List Host.Cell) (l : List Host.Cell) : List Host.Cell :=
  l.foldl (fun x c => Memory.write x c.1 c.2) m

/-- The bytes of consecutive words from an offset on. -/
def wordCells : Nat → List Word → List Host.Cell
  | _, [] => []
  | a, w :: ws =>
    (a, w.extractLsb' 0 8) :: (a + 1, w.extractLsb' 8 8) :: (a + 2, w.extractLsb' 16 8) ::
      (a + 3, w.extractLsb' 24 8) :: wordCells (a + 4) ws

/-- Consecutive words written from an offset on. -/
def Memory.writeWords (m : List Host.Cell) (a : Nat) (ws : List Word) : List Host.Cell :=
  Memory.writeCells m (wordCells a ws)

theorem Memory.writeWords_cons (m : List Host.Cell) (a : Nat) (w : Word) (ws : List Word) :
    Memory.writeWords m a (w :: ws) = Memory.writeWords (Memory.writeWord m a w) (a + 4) ws := rfl

/-- Every byte outside the words is left alone. -/
theorem Memory.read_writeWords_other (m : List Host.Cell) {a c : Nat} {ws : List Word}
    (h : c < a ∨ a + 4 * ws.length ≤ c) : Memory.read (Memory.writeWords m a ws) c = Memory.read m c := by
  induction ws generalizing m a with
  | nil => rfl
  | cons w ws ih =>
    rw [List.length_cons] at h
    rw [writeWords_cons, ih _ (by omega), read_writeWord_other _ _ (by omega)]

/-- A word below the words written is left alone. -/
theorem Memory.readWord_writeWords_below (m : List Host.Cell) {a c : Nat} (ws : List Word) (h : c + 4 ≤ a) :
    Memory.readWord (Memory.writeWords m a ws) c = Memory.readWord m c := by
  simp (disch := omega) only [readWord, readHalf, read_writeWords_other]

/-- Each word reads back (10_state.md R43). -/
theorem Memory.readWord_writeWords (m : List Host.Cell) (a : Nat) {ws : List Word} {k : Nat} (hk : k < ws.length) :
    Memory.readWord (Memory.writeWords m a ws) (a + 4 * k) = some ws[k] := by
  induction ws generalizing m a k with
  | nil => simp at hk
  | cons w ws ih =>
    rw [writeWords_cons]
    cases k with
    | zero => exact (readWord_writeWords_below _ ws (Nat.le_refl _)).trans (readWord_writeWord m a w)
    | succ k =>
      rw [show a + 4 * (k + 1) = a + 4 + 4 * k by omega]
      exact ih _ _ (Nat.lt_of_succ_lt_succ hk)

theorem Memory.write_write_same (m : List Host.Cell) (a : Nat) (v : Byte) :
    Memory.write (Memory.write m a v) a v = Memory.write m a v := by
  induction m with
  | nil => simp [write]
  | cons c rest ih =>
    obtain ⟨b, w⟩ := c
    by_cases h1 : a < b
    · simp [write, h1]
    · by_cases h2 : a = b <;> simp [write, h1, h2, ih]

/-- A byte whose write changes nothing is still so after a write at another offset. -/
theorem Memory.write_write_other {m : List Host.Cell} {a c : Nat} {v : Byte} (w : Byte) (h : Memory.write m a v = m)
    (hc : c ≠ a) : Memory.write (Memory.write m c w) a v = Memory.write m c w := by
  induction m with
  | nil => simp [write] at h
  | cons e rest ih =>
    obtain ⟨b, x⟩ := e
    unfold write at h
    split_ifs at h with h1 h2
    · exact absurd (congrArg List.length h) (by simp)
    · obtain rfl := h2
      grind [write]
    · grind [write]

theorem Memory.write_writeCells_other {m l : List Host.Cell} {a : Nat} {v : Byte} (h : Memory.write m a v = m)
    (ha : a ∉ l.map Prod.fst) : Memory.write (Memory.writeCells m l) a v = Memory.writeCells m l := by
  induction l generalizing m with
  | nil => exact h
  | cons c l ih =>
    rw [List.map_cons, List.mem_cons, not_or] at ha
    exact ih (write_write_other c.2 h (Ne.symm ha.1)) ha.2

/-- Bytes at distinct offsets written a second time change nothing, in whatever order the storage is. -/
theorem Memory.writeCells_writeCells (m : List Host.Cell) {l : List Host.Cell} (h : (l.map Prod.fst).Nodup) :
    Memory.writeCells (Memory.writeCells m l) l = Memory.writeCells m l := by
  induction l generalizing m with
  | nil => rfl
  | cons c l ih =>
    rw [List.map_cons, List.nodup_cons] at h
    have hheld : write (writeCells (write m c.1 c.2) l) c.1 c.2 = writeCells (write m c.1 c.2) l :=
      write_writeCells_other (write_write_same m c.1 c.2) h.1
    calc writeCells (writeCells m (c :: l)) (c :: l)
        = writeCells (write (writeCells (write m c.1 c.2) l) c.1 c.2) l := rfl
      _ = writeCells m (c :: l) := by rw [hheld, ih _ h.2]; rfl

theorem wordCells_offsets (a : Nat) (ws : List Word) :
    (wordCells a ws).map Prod.fst = List.range' a (4 * ws.length) := by
  induction ws generalizing a with
  | nil => rfl
  | cons w ws ih =>
    simp only [wordCells, List.map_cons, ih, List.length_cons, Nat.mul_succ, List.range'_succ]

theorem Memory.writeWords_writeWords (m : List Host.Cell) (a : Nat) (ws : List Word) :
    Memory.writeWords (Memory.writeWords m a ws) a ws = Memory.writeWords m a ws :=
  writeCells_writeCells m (by rw [wordCells_offsets]; exact List.nodup_range')

/-! ### The bracket's writes at the device -/

/-- The device with this key and this lock. -/
def Device.withLock (key : Bool) (lock : LockState) (d : Device) : Device := { d with keyArmed := key, lutLock := lock }

/-- The device after a LUT word is written in the bracket: with a transaction in flight it is a race (R74). -/
def Device.withWord (a : Nat) (v : Word) (d : Device) : Device :=
  { d with mem := Memory.writeWord d.mem a v, lawless := d.lawless || d.inFlight.isSome }

@[simp] theorem withWord_clockOn (a : Nat) (v : Word) (d : Device) : (d.withWord a v).clockOn = d.clockOn := rfl

section
variable {s : State} (hc : s.dev.clockOn = true)
include hc

theorem devWrite_lutkey_key : s.devWrite .lutkey s.cfg.lutKey = s.mapDev (fun d => d.withLock true d.lutLock) := by
  simp [State.devWrite, keepsKey, hc, State.writeEffect, State.writeLutkey, Device.withLock]

theorem devWrite_lckcr_unlock (hk : s.dev.keyArmed = true) :
    s.devWrite .lckcr s.cfg.lckUnlock = s.mapDev (·.withLock false .unlocked) := by
  simp [State.devWrite, keepsKey, hc, State.writeEffect, State.writeLckcr, hk, Device.withLock]

theorem devWrite_lckcr_lock (hv : s.cfg.valid = true) (hk : s.dev.keyArmed = true) :
    s.devWrite .lckcr s.cfg.lckLock = s.mapDev (·.withLock false .locked) := by
  have hne : s.cfg.lckLock ≠ s.cfg.lckUnlock := by
    simp only [Params.valid, Bool.and_eq_true, decide_eq_true_eq] at hv
    tauto
  simp [State.devWrite, keepsKey, hc, State.writeEffect, State.writeLckcr, hk, hne, Device.withLock]

/-- With no key armed the access draws nothing (U6). -/
theorem devWrite_lut_unlocked (hk : s.dev.keyArmed = false) (hl : s.dev.lutLock = .unlocked) (j : Fin 64) (v : Word) :
    s.devWrite (.lut j) v = s.mapDev (·.withWord (lutOff s.cfg j.val) v) := by
  have hw : s.devWrite (.lut j) v = s.writeLut j v := by
    simp [State.devWrite, keepsKey, State.disturbKey, hk, hc, State.writeEffect]
  rw [hw, State.writeLut, if_pos hl, State.raceIfFlying]
  cases hf : s.dev.inFlight <;> simp [State.mapDev, State.setLawless, hf, Device.withWord]
end

/-! ### The run of WRITE_SEQ -/

/-- `s` with its WRITE_SEQ in service at `pos`, the internal actions `td` next; it has made the accesses `h`, and the
device is `d`. -/
def State.writingSeq (s : State) (index : BitVec 4) (words : Vector Word 4) (pos : WriteSeqPos) (td : List Internal)
    (h : List Event) (d : Device) : State :=
  { s with
    eng :=
      { s.eng with
        mode := .active
        job := some { sender := s.eng.offer, resume := .idle, task := .writeSeq index words pos, todo := td }
        hist := s.eng.hist ++ h }
    dev := d }

section
variable {s : State} {index : BitVec 4} {words : Vector Word 4} {pos : WriteSeqPos} {h : List Event} {d : Device}

/-- A write of which the effect on the device is `f`. -/
theorem regWrite_writingSeq {r : Role} {v : Word} {f : Device → Device}
    (hd : (s.writingSeq index words pos [] h d).devWrite r v = (s.writingSeq index words pos [] h d).mapDev f) :
    (s.writingSeq index words pos [] h d).regWrite r v =
      s.writingSeq index words pos [] (h ++ [.wr (offOf s.cfg r) v]) (f d) := by
  rw [regWrite_eq, hd]
  simp [State.mapDev, State.log, State.mapEng, State.writingSeq]

theorem exec_writingSeq :
    exec (.writeSeq index words) (s.writingSeq index words pos [] h d) =
      .next (writeSeqStep index words pos (s.writingSeq index words pos [] h d)) :=
  exec_access (s := s.writingSeq index words pos [] h d) rfl rfl

theorem exec_writeSeq_begin (hr : Ready s) :
    exec (.writeSeq index words) s =
      .next (s.writingSeq index words .key1 [] [] (s.dev.withLock s.dev.keyArmed s.dev.lutLock)) := by
  have hm : s.eng.mode = .idle := hr.2.1
  rw [exec_writeSeq_ready hr]
  simp [State.begin, State.mapEng, State.writingSeq, Device.withLock, hm]

section
variable {key : Bool} {lock : LockState} (hc : d.clockOn = true)
include hc

/-- The two writes of the key. -/
theorem exec_writeSeq_key {next : WriteSeqPos} (hp : pos = .key1 ∧ next = .unlock ∨ pos = .key2 ∧ next = .lock) :
    exec (.writeSeq index words) (s.writingSeq index words pos [] h (d.withLock key lock)) =
      .next (s.writingSeq index words next [] (h ++ [.wr s.cfg.off.lutkey s.cfg.lutKey]) (d.withLock true lock)) := by
  obtain ⟨rfl, rfl⟩ | ⟨rfl, rfl⟩ := hp
  all_goals
    rw [exec_writingSeq, writeSeqStep, regWrite_writingSeq (d := d.withLock key lock) (devWrite_lutkey_key hc)]
    rfl

theorem exec_writeSeq_unlock :
    exec (.writeSeq index words) (s.writingSeq index words .unlock [] h (d.withLock true lock)) =
      .next (s.writingSeq index words (.word 0) [] (h ++ [.wr s.cfg.off.lckcr s.cfg.lckUnlock])
        (d.withLock false .unlocked)) := by
  rw [exec_writingSeq, writeSeqStep, regWrite_writingSeq (d := d.withLock true lock) (devWrite_lckcr_unlock hc rfl)]
  rfl

theorem exec_writeSeq_word (k : Fin 4) {next : WriteSeqPos}
    (hn : (if h : k.val + 1 < 4 then .word ⟨k.val + 1, h⟩ else .key2) = next) :
    exec (.writeSeq index words) (s.writingSeq index words (.word k) [] h (d.withLock false .unlocked)) =
      .next (s.writingSeq index words next [] (h ++ [.wr (lutOff s.cfg (4 * index.toNat + k.val)) words[k]])
        ((d.withWord (lutOff s.cfg (4 * index.toNat + k.val)) words[k]).withLock false .unlocked)) := by
  subst hn
  rw [exec_writingSeq, writeSeqStep,
    regWrite_writingSeq (d := d.withLock false .unlocked) (devWrite_lut_unlocked hc rfl rfl _ _)]
  rfl

theorem exec_writeSeq_lock (hv : s.cfg.valid = true) :
    exec (.writeSeq index words) (s.writingSeq index words .lock [] h (d.withLock true lock)) =
      .next (s.writingSeq index words .lock [.trace (.tableWrite index), .respond (.ok .unit)]
        (h ++ [.wr s.cfg.off.lckcr s.cfg.lckLock]) (d.withLock false .locked)) := by
  rw [exec_writingSeq, writeSeqStep, regWrite_writingSeq (d := d.withLock true lock) (devWrite_lckcr_lock hc hv rfl)]
  rfl
end

/-- The trace event and the response. -/
theorem execTimes_writeSeq_answer (hr : Ready s) :
    execTimes (.writeSeq index words) 2
        (s.writingSeq index words pos [.trace (.tableWrite index), .respond (.ok .unit)] h d) =
      .next
        { s with
          eng := { s.eng with hist := s.eng.hist ++ h, trace := s.eng.trace ++ [.tableWrite index] }
          responses := s.responses ++ [(s.eng.offer, .ok .unit)]
          dev := d } := by
  obtain ⟨hj, hm, -⟩ := hr
  have htrace := exec_trace rfl rfl
    (s := s.writingSeq index words pos [.trace (.tableWrite index), .respond (.ok .unit)] h d)
  have hrespond := exec_respond_plain rfl rfl rfl
    (s := ((s.writingSeq index words pos [.trace (.tableWrite index), .respond (.ok .unit)] h d).traceEv
      (.tableWrite index)).queue [.respond (.ok .unit)])
  refine (execTimes_two htrace hrespond).trans ?_
  simp [State.writingSeq, State.traceEv, State.queue, State.mapEng, hj, hm]
end

/-- The device after WRITE_SEQ: with a transaction in flight its contract has ended (R144). -/
def Device.afterWriteSeq (p : Params) (index : BitVec 4) (words : Vector Word 4) (d : Device) : Device :=
  { d with
    mem := Memory.writeWords d.mem (lutOff p (4 * index.toNat)) words.toList
    lutLock := .locked
    keyArmed := false
    lawless := d.lawless || d.inFlight.isSome }

/-- The state after WRITE_SEQ. -/
def State.afterWriteSeq (index : BitVec 4) (words : Vector Word 4) (s : State) : State :=
  { s with
    eng :=
      { s.eng with
        hist := s.eng.hist ++ writeSeqTrace s.cfg index words
        trace := s.eng.trace ++ [.tableWrite index] }
    responses := s.responses ++ [(s.eng.offer, .ok .unit)]
    dev := s.dev.afterWriteSeq s.cfg index words }

theorem lutOff_add (p : Params) (j k : Nat) : lutOff p (j + k) = lutOff p j + 4 * k := by
  unfold lutOff
  omega

theorem toList_vector_four (words : Vector Word 4) : words.toList = [words[0], words[1], words[2], words[3]] := by
  refine List.ext_getElem (by simp) fun i h _ => ?_
  rw [Vector.length_toList] at h
  interval_cases i <;> simp

/-- The device after the bracket, write by write. -/
theorem afterWriteSeq_eq (p : Params) (index : BitVec 4) (words : Vector Word 4) (d : Device) :
    d.afterWriteSeq p index words =
      ((((d.withWord (lutOff p (4 * index.toNat)) words[0]).withWord (lutOff p (4 * index.toNat + 1)) words[1]).withWord
        (lutOff p (4 * index.toNat + 2)) words[2]).withWord (lutOff p (4 * index.toNat + 3)) words[3]).withLock false
        .locked := by
  simp [Device.afterWriteSeq, Device.withLock, Device.withWord, toList_vector_four, Memory.writeWords, wordCells,
    Memory.writeCells, Memory.writeWord, lutOff_add]

/-- WRITE_SEQ served without interruption (R140): accepted, eight accesses, the trace event, the response. -/
theorem execTimes_writeSeq {s : State} (hv : s.cfg.valid = true) (hr : Ready s) (hc : s.dev.clockOn = true)
    (index : BitVec 4) (words : Vector Word 4) :
    execTimes (.writeSeq index words) 11 s = .next (s.afterWriteSeq index words) := by
  rw [execTimes_succ (exec_writeSeq_begin hr), execTimes_succ (exec_writeSeq_key hc (.inl ⟨rfl, rfl⟩)),
    execTimes_succ (exec_writeSeq_unlock hc), execTimes_succ (exec_writeSeq_word hc 0 (next := .word 1) rfl),
    execTimes_succ (exec_writeSeq_word ?_ 1 (next := .word 2) rfl),
    execTimes_succ (exec_writeSeq_word ?_ 2 (next := .word 3) rfl),
    execTimes_succ (exec_writeSeq_word ?_ 3 (next := .key2) rfl),
    execTimes_succ (exec_writeSeq_key ?_ (.inr ⟨rfl, rfl⟩)), execTimes_succ (exec_writeSeq_lock ?_ hv),
    execTimes_writeSeq_answer hr, State.afterWriteSeq, afterWriteSeq_eq]
  · simp [writeSeqTrace, lutOff]
  all_goals simpa using hc

/-- Settles O26: the run's last state is explicit, and its words lie in the table one after the other. -/
theorem writeSeqInstallsSequence : Obligations.WriteSeqInstallsSequence := by
  unfold Obligations.WriteSeqInstallsSequence
  intro s index words hv hr hc
  refine ⟨_, execTimes_writeSeq hv hr hc index words,
    fun hf => ⟨⟨Memory.writeWords s.dev.mem (lutOff s.cfg (4 * index.toNat)) words.toList, ?_⟩, fun k => ?_,
      fun a ha => ?_⟩, fun hf => ?_⟩
  · simp [Device.afterWriteSeq, hf]
  · have hk : k.val < words.toList.length := by simp
    rw [Device.lutWord, lutOff_add]
    exact (Memory.readWord_writeWords _ _ hk).trans (by simp)
  · rw [lutOff_add] at ha
    exact Memory.read_writeWords_other _ (by simpa using ha)
  · simp [Device.afterWriteSeq, hf]

/-- Settles O27: bytes written a second time change nothing. -/
theorem writeSeqIsIdempotent : Obligations.WriteSeqIsIdempotent := by
  unfold Obligations.WriteSeqIsIdempotent
  intro s t u index words hv hr hc hf ht hu
  rw [execTimes_writeSeq hv hr hc] at ht
  cases ht
  rw [execTimes_writeSeq (s := s.afterWriteSeq index words) hv hr hc] at hu
  cases hu
  exact ⟨Memory.writeWords_writeWords _ _ _, rfl, _, rfl, rfl, rfl⟩

end Sys2Proof.Machine
end

section
/-! ## Only WRITE_SEQ writes the table (42_lut_manager.md R141) -/

namespace Sys2Proof.Machine

/-- The offset of a register that R141 keeps to WRITE_SEQ: the two lock registers, and the LUT's bytes. -/
def TableOffset (p : Params) (a : Nat) : Prop :=
  a = p.off.lutkey ∨ a = p.off.lckcr ∨ (p.off.lut ≤ a ∧ a < p.off.lut + 256)

/-- The roles of those registers. -/
def tableRole : Role → Bool
  | .lutkey | .lckcr | .lut _ => true
  | .ctrl | .ipcmd | .flshcfg | .bufdesc | .addr | .rxctl | .status | .flags | .txstat | .sptrclr => false
  | .rxdata _ | .txdata | .rxptrClr => false

theorem rxptrRole_not_table (p : Params) : tableRole (rxptrRole p) = false := by
  obtain h | h | h := rxptrRole_cases p <;> rw [h] <;> rfl

/-- An offset outside the LUT's bytes is off the table unless it is one of the lock's. -/
theorem not_tableOffset {p : Params} {a : Nat} (hlut : a < p.off.lut ∨ p.off.lut + 256 ≤ a)
    (hkey : a ≠ p.off.lutkey) (hlck : a ≠ p.off.lckcr) : ¬TableOffset p a := by
  rintro (h | h | h)
  · exact hkey h
  · exact hlck h
  · omega

/-- Of the single registers that the engine writes only the lock's two are on the table. -/
theorem not_tableOffset_of_single {p : Params} (hv : p.valid = true) {r : Role} (hs : offOf p r ∈ p.off.singles)
    (hw : engineWrites r = true) (hr : tableRole r = false) (hx : r ≠ .rxptrClr) : ¬TableOffset p (offOf p r) := by
  obtain ⟨-, -, hdistinct⟩ := windowOffsetsAlignedDistinct p hv
  have h0 : ∀ m, r = .rxdata m → m = 0 := by
    rintro m rfl
    cases hw
  refine not_tableOffset ((windowFacts hv).clear _ hs).1 (fun he => ?_) (fun he => ?_)
  · obtain rfl := hdistinct r .lutkey hx (by simp) h0 (by simp) he
    cases hr
  · obtain rfl := hdistinct r .lckcr hx (by simp) h0 (by simp) he
    cases hr

/-- Of all registers that the engine writes only the table's are on it, wherever `RXPTR_CLR` lies. -/
theorem not_tableOffset_offOf {p : Params} (hv : p.valid = true) {r : Role} (hw : engineWrites r = true)
    (hr : tableRole r = false) : ¬TableOffset p (offOf p r) := by
  cases r with
  | rxptrClr =>
    obtain h | h | ⟨-, -, hlut, -, hs⟩ := (windowFacts hv).rxptr
    · rw [show offOf p .rxptrClr = offOf p .ctrl from h]
      exact not_tableOffset_of_single hv (by simp [Offsets.singles, offOf]) rfl rfl (by simp)
    · rw [show offOf p .rxptrClr = offOf p .rxctl from h]
      exact not_tableOffset_of_single hv (by simp [Offsets.singles, offOf]) rfl rfl (by simp)
    · simp only [Offsets.singles, List.mem_cons, not_or] at hs
      exact not_tableOffset hlut (by tauto) (by tauto)
  | lutkey | lckcr | lut => cases hr
  | bufdesc | status | txstat | rxdata => cases hw
  | ctrl | ipcmd | flshcfg | addr | rxctl | flags | sptrclr | txdata =>
    exact not_tableOffset_of_single hv (by simp [Offsets.singles, offOf]) rfl rfl (by simp)

/-- From `s` to `t` no write at an offset of the table was made. -/
def SparesTable (s t : State) : Prop :=
  ∃ l, t.eng.hist = s.eng.hist ++ l ∧ ∀ off v, .wr off v ∈ l → ¬TableOffset s.cfg off

section
variable {s : State}

theorem sparesTable_of_hist {t : State} (h : t.eng.hist = s.eng.hist) : SparesTable s t :=
  ⟨[], by simp [h], by simp⟩

theorem regRead_sparesTable (r : Role) : SparesTable s (s.regRead r).2 :=
  ⟨[.rd (offOf s.cfg r) (s.regRead r).1], by rw [regRead_eng], by simp⟩

variable (hv : s.cfg.valid = true)
include hv

theorem regWrite_sparesTable {r : Role} (v : Word) (hw : engineWrites r = true) (hr : tableRole r = false) :
    SparesTable s (s.regWrite r v) := by
  refine ⟨[.wr (offOf s.cfg r) v], by rw [regWrite_eng], fun off w h => ?_⟩
  simp only [List.mem_singleton, Event.wr.injEq] at h
  rw [h.1]
  exact not_tableOffset_offOf hv hw hr

theorem rmw_sparesTable {r : Role} (f : Word → Word) (a : ActPos) (hw : engineWrites r = true)
    (hr : tableRole r = false) : SparesTable s (s.rmw r f a).2 := by
  cases a
  · exact regRead_sparesTable r
  · exact regWrite_sparesTable hv _ hw hr

theorem act_sparesTable {F : Field} (a : ActPos) (hw : engineWrites F.role = true) (hr : tableRole F.role = false) :
    SparesTable s (s.act F a).2 := by
  unfold State.act
  split
  · exact rmw_sparesTable hv _ a hw hr
  · exact regWrite_sparesTable hv _ hw hr

theorem issueStep_sparesTable (seq : BitVec 4) (addr : Word) (size : Half) (pos : IssuePos) :
    SparesTable s (issueStep seq addr size pos s).2 := by
  cases pos <;> simp only [issueStep]
  case waitIdle | waitDone => split <;> exact regRead_sparesTable .status
  case addr | command => exact regWrite_sparesTable hv _ rfl rfl
  case rxPtr a => split <;> exact act_sparesTable hv a (rxptrRole_writes _) (rxptrRole_not_table _)
  case seqPtr a => split <;> exact act_sparesTable hv a rfl rfl

theorem issueServe_sparesTable (seq : BitVec 4) (addr : Word) (size : Half) (pos : IssuePos) :
    SparesTable s (issueServe seq addr size pos s) := by
  unfold issueServe
  dsimp only
  split <;> exact issueStep_sparesTable hv seq addr size pos

theorem drainStep_sparesTable (size : Word) (pos : DrainPos) (out : List Byte) (k : Nat) :
    SparesTable s (drainStep size pos out k s) := by
  cases pos <;> simp only [drainStep]
  case wait => split <;> exact regRead_sparesTable .status
  case read => exact regRead_sparesTable (.rxdata 0)
  case pop a =>
    have h : SparesTable s (s.act (fieldRxpop s.cfg) a).2 := act_sparesTable hv a rfl rfl
    split
    · exact h
    · unfold drainPopped
      split <;> exact h

theorem fillStep_sparesTable (seq : BitVec 4) (addr : Word) (data : List Word) (pos : FillPos) (n lim : Nat) :
    SparesTable s (fillStep seq addr data pos n lim s) := by
  cases pos <;> simp only [fillStep]
  case txne => exact regRead_sparesTable .txstat
  case clear a => split <;> exact act_sparesTable hv a rfl rfl
  case addr | word => exact regWrite_sparesTable hv _ rfl rfl
  case wait => split <;> exact regRead_sparesTable .status
  case issue q => split <;> exact issueStep_sparesTable hv seq addr (fillSize n) q

theorem initRmw_sparesTable {r : Role} (f : Word → Word) (a : ActPos) (stay : ActPos → InitPos) (nxt : InitPos)
    (hw : engineWrites r = true) (hr : tableRole r = false) : SparesTable s (initRmw r f a stay nxt s) := by
  unfold initRmw
  dsimp only
  split <;> exact rmw_sparesTable hv f a hw hr

theorem initStep_sparesTable (pos : InitPos) : SparesTable s (initStep pos s) := by
  have hdraw : SparesTable s s.draw.2 := sparesTable_of_hist (by rw [draw_eng])
  cases pos <;> simp only [initStep]
  case map => split <;> exact hdraw
  case hold => exact sparesTable_of_hist rfl
  case clock => split <;> exact hdraw
  case timing => exact regWrite_sparesTable hv _ rfl rfl
  case disable | resetSet | resetClear | enable | clearBuffers | watermark =>
    exact initRmw_sparesTable hv _ _ _ _ rfl rfl

/-- An access step of any request but WRITE_SEQ. -/
theorem taskStep_sparesTable {k : Task} (hk : ∀ index words, taskInstr k ≠ .writeSeq index words) :
    SparesTable s (taskStep k s) := by
  cases k with
  | writeSeq index words pos => exact absurd rfl (hk index words)
  | issue seq addr size pos => exact issueServe_sparesTable hv _ _ _ _
  | drain size pos out k => exact drainStep_sparesTable hv _ _ _ _
  | fill seq addr data pos n lim => exact fillStep_sparesTable hv _ _ _ _ _ _
  | init pos => exact initStep_sparesTable hv _

/-- Any instruction but WRITE_SEQ. -/
theorem exec_sparesTable {t : State} {i : Instr} (hi : ∀ index words, i ≠ .writeSeq index words)
    (h : exec i s = .next t) : SparesTable s t := by
  obtain rfl | ⟨-, hk⟩ | ⟨j, hj, rfl, hs⟩ | ⟨-, ha⟩ := exec_cases h
  · exact sparesTable_of_hist rfl
  · exact sparesTable_of_hist (by rw [hk.eng])
  · obtain ⟨ht, -⟩ | ⟨ev, rest, -, rfl⟩ | ⟨r, rest, -, rfl⟩ := hs.goes j hj
    · rw [exec_access hj ht] at h
      cases h
      exact taskStep_sparesTable hv hi
    · exact sparesTable_of_hist rfl
    · exact sparesTable_of_hist (finish_hist r s)
  · exact sparesTable_of_hist ha.hist
end

/-- Settles O28: what any other instruction appends to the history spares the table. -/
theorem onlyWriteSeqTouchesTable : Obligations.OnlyWriteSeqTouchesTable := by
  unfold Obligations.OnlyWriteSeqTouchesTable
  intro s t i off v hv h hh hoff
  by_contra hne
  push Not at hne
  obtain ⟨l, hl, hspare⟩ := exec_sparesTable hv hne h
  obtain rfl : l = [.wr off v] := List.append_cancel_left (hl.symm.trans hh)
  exact hspare off v (List.mem_singleton_self _) hoff

end Sys2Proof.Machine
end

section
/-! ## No two transactions of the block overlap (43_transaction_engine.md R158)

`TriggerInv` speaks of the request in service through the position of its inner ISSUE only (`PosOk`). From the first
wait to the trigger every access of `issueStep` leaves a device without a transaction without one; the engine makes
no other access then, and the device's own turns do nothing without a transaction. -/

namespace Sys2Proof.Machine

/-- What `TriggerInv` says of an ISSUE at position `q`: past its first wait no transaction is in flight, and the value
it is about to write back to `CTRL` resets nothing. -/
def PosOk (p : Params) (d : Device) (q : IssuePos) : Prop :=
  (beforeTrigger q = true → d.inFlight = none) ∧
    ∀ v, q = .rxPtr (.write v) → rxptrRole p = .ctrl → v &&& swrstMask p = 0#32

/-- What `TriggerInv` says of a task. -/
def TriggerOk (p : Params) (d : Device) (k : Task) : Prop := ∀ q, issuePos k = some q → PosOk p d q

theorem pendingCtrl_eq_some {p : Params} {k : Task} {v : Word} :
    pendingCtrl p k = some v ↔ issuePos k = some (.rxPtr (.write v)) ∧ rxptrRole p = .ctrl := by
  unfold pendingCtrl
  split <;> simp_all [and_comm]

theorem triggerOk_iff (p : Params) (d : Device) (k : Task) :
    TriggerOk p d k ↔
      (triggering k = true → d.inFlight = none) ∧ ∀ v, pendingCtrl p k = some v → v &&& swrstMask p = 0#32 := by
  simp only [pendingCtrl_eq_some]
  unfold TriggerOk PosOk triggering
  cases issuePos k <;> simp

/-- What it says of the request in service, if there is one, the configuration and the device given. -/
def JobTriggerOk (p : Params) (d : Device) (s : State) : Prop := ∀ j, s.eng.job = some j → TriggerOk p d j.task

theorem triggerInv_iff (s : State) :
    TriggerInv s ↔ (s.dev.lawless = false → JobTriggerOk s.cfg s.dev s) := by
  unfold JobTriggerOk
  simp only [triggerOk_iff]
  exact Iff.rfl

/-! ### Writes that start no transaction -/

/-- Without a transaction, a write starts one only at `IPCMD`, or by a software reset (R44, R225). -/
theorem writeEffect_idle {s : State} {r : Role} {v : Word} (hf : s.dev.inFlight = none) (hi : r ≠ .ipcmd)
    (hc : r = .ctrl → fieldSet (swrstMask s.cfg) v = false) : (s.writeEffect r v).dev.inFlight = none := by
  cases r <;> simp only [State.writeEffect]
  case ctrl => rw [writeCtrl_plain (.inl hf) (hc rfl)]; exact hf
  case ipcmd => exact absurd rfl hi
  case addr => simpa using hf
  case rxctl => unfold State.writeRxctl State.rxptrClear; dsimp only; split <;> simpa using hf
  case flags =>
    split
    · unfold State.rxPop
      split
      · exact hf
      · obtain ⟨_, -, hd⟩ := drawRx_dev s
        rw [hd]; exact hf
    · exact hf
  case sptrclr => split <;> simpa using hf
  case lutkey => unfold State.writeLutkey; dsimp only; split <;> simpa using hf
  case lckcr => unfold State.writeLckcr; split_ifs <;> simpa using hf
  case lut j => unfold State.writeLut; dsimp only; split <;> simpa using hf
  case txdata => unfold State.writeTxdata; dsimp only; split <;> simpa [State.setLawless] using hf
  case rxptrClr => unfold State.rxptrClear; split <;> simpa using hf
  case flshcfg | bufdesc | status | txstat | rxdata => exact hf

theorem devWrite_idle {s : State} {r : Role} {v : Word} (hf : s.dev.inFlight = none) (hi : r ≠ .ipcmd)
    (hc : r = .ctrl → fieldSet (swrstMask s.cfg) v = false) : (s.devWrite r v).dev.inFlight = none := by
  have hkey : (if keepsKey r then s else s.disturbKey).dev.inFlight = none ∧
      (if keepsKey r then s else s.disturbKey).cfg = s.cfg := by
    split
    · exact ⟨hf, rfl⟩
    · obtain ⟨hs, hk⟩ := disturbKey_spec s
      exact ⟨hk.apart.inFlight.trans hf, hs.1⟩
  unfold State.devWrite State.writeUnclocked
  generalize (if keepsKey r then s else s.disturbKey) = u at hkey
  obtain ⟨hu, hcfg⟩ := hkey
  rw [← hcfg] at hc
  dsimp only
  split_ifs
  · exact writeEffect_idle hu hi hc
  · exact writeEffect_idle (by rwa [draw_dev]) hi (by rwa [draw_cfg])
  · rwa [draw_dev]

/-- A value that resets nothing still does not with the bit of `RXPTR_CLR` set. -/
theorem fieldSet_swrst_or {p : Params} (ha : CtrlApart p) {v : Word} (hv : v &&& swrstMask p = 0#32) :
    fieldSet (swrstMask p) (v ||| p.mask.rxptrClr) = false := by
  have h : swrstMask p &&& p.mask.rxptrClr = 0#32 := by
    have h' := ha.rxptrClr
    rw [haltMask, BitVec.and_comm] at h'
    rw [BitVec.and_comm]
    exact and_eq_zero_of_and_or h'
  rw [fieldSet_eq_false, and_or_apart h]
  exact hv

/-! ### One access of ISSUE -/

/-- Where ISSUE stands after an access made at `q`: once it has ended, nothing moves it. -/
def IssueNext.pos (q : IssuePos) : IssueNext → IssuePos
  | .at r _ => r
  | .done | .fail _ => q

section
variable {s : State} (hv : s.cfg.valid = true) (hc : s.dev.clockOn = true) (hl : s.dev.lawless = false)
  (ha : CtrlApart s.cfg)

include hv hc hl in
/-- A poll of `STATUS` that finds `BUSY` clear found no transaction in flight (R45), also where the flags share
bits. -/
theorem idle_of_poll_satisfied {i : Nat} (h : (s.poll .status (busyClear s.cfg) i).1 = .satisfied) :
    (s.poll .status (busyClear s.cfg) i).2.dev.inFlight = none := by
  have hclear : busyClear s.cfg (s.regRead .status).1 = true := by
    by_contra hn
    simp only [State.poll, hn, if_false] at h
    split at h <;> cases h
  show (s.regRead .status).2.dev.inFlight = none
  rw [regRead_dev, (devRead_spec .status s).2.1.apart.inFlight]
  by_contra hn
  have hset := busy_reads_set hv ⟨hc, hl⟩ (Option.isSome_iff_ne_none.mpr hn)
  rw [hclear] at hset
  cases hset

include ha in
/-- The clear of the RX pointer starts no transaction; a value it reads from `CTRL` is in the history. -/
theorem act_rxptrClr_posOk {a : ActPos} (ho : PosOk s.cfg s.dev (.rxPtr a))
    (hr : ∀ w, (s.act (fieldRxptrClr s.cfg) a).2.eng.hist = s.eng.hist ++ [.rd s.cfg.off.ctrl w] →
      w &&& swrstMask s.cfg = 0#32) :
    (s.act (fieldRxptrClr s.cfg) a).2.dev.inFlight = none ∧
      ∀ v, (s.act (fieldRxptrClr s.cfg) a).1 = some (.write v) → rxptrRole s.cfg = .ctrl →
        v &&& swrstMask s.cfg = 0#32 := by
  obtain ⟨hidle, hpend⟩ := ho
  have hf := hidle rfl
  have hne : rxptrRole s.cfg ≠ .ipcmd := by
    obtain h | h | h := rxptrRole_cases s.cfg <;> rw [h] <;> simp
  unfold State.act fieldRxptrClr at *
  by_cases hrmw : isRmw (rxptrRole s.cfg) = true
  · simp only [hrmw, if_true] at hr ⊢
    cases a with
    | start =>
      refine ⟨(devRead_spec _ s).2.1.apart.inFlight.trans hf, fun v hw hrole => hr v ?_⟩
      simp only [State.rmw, Option.some.injEq, ActPos.write.injEq] at hw ⊢
      rw [regRead_eng, hw, hrole]
      rfl
    | write w =>
      refine ⟨devWrite_idle hf hne fun hrole => ?_, fun v hw => by cases hw⟩
      exact fieldSet_swrst_or ha (hpend w rfl hrole)
  · simp only [hrmw, Bool.false_eq_true, if_false]
    refine ⟨devWrite_idle hf hne fun hrole => ?_, fun v hw => by cases hw⟩
    rw [hrole] at hrmw
    exact absurd rfl hrmw

include hv hc hl ha in
/-- An access of ISSUE keeps what `TriggerInv` says of its position. -/
theorem issueStep_posOk {seq : BitVec 4} {addr : Word} {size : Half} {q : IssuePos} (ho : PosOk s.cfg s.dev q)
    (hr : ∀ w, (issueStep seq addr size q s).2.eng.hist = s.eng.hist ++ [.rd s.cfg.off.ctrl w] →
      w &&& swrstMask s.cfg = 0#32) :
    PosOk s.cfg (issueStep seq addr size q s).2.dev ((issueStep seq addr size q s).1.pos q) := by
  cases q with
  | waitIdle i =>
    simp only [issueStep]
    split
    · next h => exact ⟨fun _ => idle_of_poll_satisfied hv hc hl h, by simp [IssueNext.pos]⟩
    all_goals exact ⟨by simp [IssueNext.pos, beforeTrigger], by simp [IssueNext.pos]⟩
  | addr => exact ⟨fun _ => devWrite_idle (ho.1 rfl) (by simp) (by simp), by simp [IssueNext.pos, issueStep]⟩
  | rxPtr a =>
    have hact : (issueStep seq addr size (.rxPtr a) s).2 = (s.act (fieldRxptrClr s.cfg) a).2 := by
      simp only [issueStep]
      split <;> rfl
    rw [hact] at hr ⊢
    obtain ⟨hf, hpend⟩ := act_rxptrClr_posOk ha ho hr
    simp only [issueStep]
    split
    · next b hb =>
      refine ⟨fun _ => hf, fun v hp => hpend v ?_⟩
      simp only [IssueNext.pos, IssuePos.rxPtr.injEq] at hp
      rw [hb, hp]
    · exact ⟨fun _ => hf, by simp [IssueNext.pos]⟩
  | seqPtr a =>
    exact ⟨fun _ => devWrite_idle (r := .sptrclr) (ho.1 rfl) (by simp) (by simp),
      by simp [IssueNext.pos, issueStep, State.act, fieldSeqptrClr, isRmw]⟩
  | command => exact ⟨by simp [IssueNext.pos, issueStep, beforeTrigger], by simp [IssueNext.pos, issueStep]⟩
  | waitDone i =>
    simp only [issueStep]
    split <;> exact ⟨by simp [IssueNext.pos, beforeTrigger], by simp [IssueNext.pos]⟩
end

/-! ### One engine step -/

/-- A task whose ISSUE, if it has one, has not passed its first wait claims nothing of the device. -/
theorem triggerOk_of_early {k : Task} (h : issuePos k = none ∨ issuePos k = some (.waitIdle 1)) (p : Params)
    (d : Device) : TriggerOk p d k := by
  intro q hq
  obtain h | h := h <;> rw [h] at hq <;> cases hq
  exact ⟨by simp [beforeTrigger], by simp⟩

/-- Where FILL goes after an access outside its inner ISSUE. -/
theorem fillLoop_early (seq : BitVec 4) (addr : Word) (data : List Word) (n lim : Nat) :
    issuePos (.fill seq addr data (fillLoop n lim) n lim) = none ∨
      issuePos (.fill seq addr data (fillLoop n lim) n lim) = some (.waitIdle 1) := by
  unfold fillLoop
  split
  · exact .inl rfl
  · exact .inr rfl

theorem setTask_jobTriggerOk {p : Params} {d : Device} {k : Task} (h : TriggerOk p d k) (s : State) :
    JobTriggerOk p d (s.setTask k) := by
  intro j hj
  obtain ⟨_, -, rfl⟩ := Option.map_eq_some_iff.mp hj
  exact h

theorem queue_jobTriggerOk {p : Params} {d : Device} {s : State} (h : JobTriggerOk p d s) (l : List Internal) :
    JobTriggerOk p d (s.queue l) := by
  intro j hj
  obtain ⟨i, hi, rfl⟩ := Option.map_eq_some_iff.mp hj
  exact h i hi

/-- An access of FILL outside its inner ISSUE. -/
theorem fillStep_early {seq : BitVec 4} {addr : Word} {data : List Word} {pos : FillPos} {n lim : Nat} {s : State}
    {j : Service} (hj : s.eng.job = some j) (hk : j.task = .fill seq addr data pos n lim)
    (hp : issuePos j.task = none) (p : Params) (d : Device) :
    JobTriggerOk p d (fillStep seq addr data pos n lim s) := by
  have hset : ∀ (k : Task) (u : State), issuePos k = none → JobTriggerOk p d (u.setTask k) := fun k u h =>
    setTask_jobTriggerOk (triggerOk_of_early (.inl h) p d) u
  have hloop : ∀ (m : Nat) (u : State), JobTriggerOk p d (u.setTask (.fill seq addr data (fillLoop m lim) m lim)) :=
    fun m u => setTask_jobTriggerOk (triggerOk_of_early (fillLoop_early _ _ _ m lim) p d) u
  rw [hk] at hp
  cases pos with
  | txne => refine hset _ _ ?_; split <;> rfl
  | clear a => simp only [fillStep]; split <;> exact hset _ _ rfl
  | addr => exact hloop n _
  | wait i =>
    simp only [fillStep]
    split
    · exact hset _ _ rfl
    · exact hset _ _ rfl
    · refine queue_jobTriggerOk (fun i hi => ?_) _
      rw [(poll_access (r := .status) rfl _ _ s).job, hj] at hi
      cases hi
      rw [hk]
      exact triggerOk_of_early (.inl rfl) p d
  | word => exact hloop (n + 1) _
  | issue q => cases hp

/-- An access of a task with an inner ISSUE is one of `issueStep`, and the task then stands where that leaves it. -/
theorem taskStep_issue {s : State} {j : Service} {q : IssuePos} (hj : s.eng.job = some j)
    (hq : issuePos j.task = some q) :
    ∃ seq addr size, (taskStep j.task s).dev = (issueStep seq addr size q s).2.dev ∧
      (taskStep j.task s).eng.hist = (issueStep seq addr size q s).2.eng.hist ∧
      ∀ i, (taskStep j.task s).eng.job = some i →
        issuePos i.task = some ((issueStep seq addr size q s).1.pos q) := by
  have hjob : ∀ seq addr size, (issueStep seq addr size q s).2.eng.job = some j := fun seq addr size =>
    (issueStep_access seq addr size q s).job.trans hj
  obtain ⟨seq, addr, size, hk⟩ | ⟨seq, addr, data, n, lim, hk⟩ := issuePos_cases hq
  · refine ⟨seq, addr, size, ?_⟩
    have hjob' := hjob seq addr size
    simp only [hk, taskStep, issueServe]
    split <;> next h => simp [h, hjob', IssueNext.pos, raise_eq, hk, issuePos]
  · refine ⟨seq, addr, fillSize n, ?_⟩
    have hjob' := hjob seq addr (fillSize n)
    simp only [hk, taskStep, fillStep]
    split <;> next h => simp [h, hjob', IssueNext.pos, raise_eq, hk, issuePos]

/-- An access of the request in service. -/
theorem taskStep_triggerOk {s : State} {j : Service} (hv : s.cfg.valid = true)
    (hc : issuePos j.task ≠ none → s.dev.clockOn = true) (hl : s.dev.lawless = false) (ha : CtrlApart s.cfg)
    (hj : s.eng.job = some j) (ho : TriggerOk s.cfg s.dev j.task)
    (hr : ∀ w, (taskStep j.task s).eng.hist = s.eng.hist ++ [.rd s.cfg.off.ctrl w] → w &&& swrstMask s.cfg = 0#32) :
    JobTriggerOk s.cfg (taskStep j.task s).dev (taskStep j.task s) := by
  cases hq : issuePos j.task with
  | some q =>
    obtain ⟨seq, addr, size, hd, hh, hjob⟩ := taskStep_issue hj hq
    intro i hi r hir
    rw [hjob i hi] at hir
    cases hir
    rw [hh] at hr
    rw [hd]
    exact issueStep_posOk hv (hc (by simp [hq])) hl ha (ho q hq) hr
  | none =>
    cases hk : j.task with
    | fill seq addr data pos n lim => exact fillStep_early hj hk hq _ _
    | issue => rw [hk] at hq; cases hq
    | writeSeq | drain | init =>
      intro i hi
      obtain ⟨_, f, -, -, hf, he⟩ := (taskStep_access j.task s).eng
      rw [← hk, he, hj] at hi
      cases hi
      have hti := (hf j).2.2 rfl
      rw [hk] at hti
      refine triggerOk_of_early (.inl ?_) _ _
      cases hm : (f j).task <;> rw [hm] at hti <;> cases hti
      rfl

/-- One step of the request in service. -/
theorem serve_triggerInv {s : State} {j : Service} (hv : s.cfg.valid = true) (hc : ClockInv s) (ha : CtrlApart s.cfg)
    (hj : s.eng.job = some j) (ho : TriggerInv s)
    (hr : ∀ w, (s.serve (taskStep j.task)).eng.hist = s.eng.hist ++ [.rd s.cfg.off.ctrl w] →
      w &&& swrstMask s.cfg = 0#32) : TriggerInv (s.serve (taskStep j.task)) := by
  rw [triggerInv_iff] at ho ⊢
  cases ht : j.todo with
  | nil =>
    rw [serve_access s _ hj ht] at hr ⊢
    have hacc := taskStep_access j.task s
    intro hl
    have hl0 : s.dev.lawless = false := Bool.eq_false_iff.mpr fun h => by simp [hacc.lawless h] at hl
    have hclock : issuePos j.task ≠ none → s.dev.clockOn = true := fun hq => hc <| by
      cases hk : j.task <;> simp [hk, issuePos] at hq <;> simp [pastClock, hj, hk]
    rw [hacc.cfg]
    exact taskStep_triggerOk hv hclock hl0 ha hj (ho hl0 j hj) hr
  | cons a rest =>
    cases a with
    | trace ev =>
      rw [serve_trace s _ hj ht]
      exact fun hl => queue_jobTriggerOk (ho hl) rest
    | respond r =>
      rw [serve_respond s _ hj ht]
      intro _ i hi
      rw [finish_job] at hi
      cases hi

/-- A request that was just accepted has not passed its first wait. -/
theorem firstTask_early {p : Params} {i : Instr} {k : Task} (h : firstTask p i = some k) :
    issuePos k = none ∨ issuePos k = some (.waitIdle 1) := by
  cases i <;> cases h
  case issue.refl => exact .inr rfl
  all_goals exact .inl rfl

/-- A request taken from the port. -/
theorem exec_request_triggerInv {i : Instr} {s t : State} (hj : s.eng.job = none) (hi : deviceInstr i = false)
    (hx : exec i s = .next t) : TriggerInv t := by
  have hnone : ∀ u : State, u.eng.job = none → TriggerInv u := fun u hu _ j hju => by
    rw [hu] at hju
    cases hju
  obtain rfl | ⟨hd, -⟩ | ⟨_, hs, -⟩ | ⟨-, ha⟩ := exec_cases hx
  · exact hnone _ hj
  · rw [hi] at hd
    cases hd
  · rw [hj] at hs
    cases hs
  · obtain ⟨k, hk, -, -, -, -, htj, -⟩ | ⟨-, -, htj, -⟩ := ha.goes
    · rw [triggerInv_iff]
      intro _ j hju
      rw [htj] at hju
      cases hju
      exact triggerOk_of_early (firstTask_early hk) _ _
    · exact hnone _ (htj.trans hj)

/-- `TriggerInv` depends on the configuration, the device and the request in service only. -/
theorem triggerInv_congr {s t : State} (hc : t.cfg = s.cfg) (hd : t.dev = s.dev) (he : t.eng.job = s.eng.job)
    (h : TriggerInv s) : TriggerInv t := by
  unfold TriggerInv at *
  rw [hc, hd, he]
  exact h

/-- A device turn: without a transaction it does nothing, and what ISSUE has read stays as it is. -/
theorem deviceTurn_triggerInv {s t : State} (ht : s.takeTurn.1 = .device) (h : step s = .next t)
    (ho : TriggerInv s) : TriggerInv t := by
  obtain ⟨hcfg, heng, -, -, -, -, -, hidle⟩ := deviceTurnFrame s t ht h
  rw [triggerInv_iff] at ho ⊢
  intro hl j hj q hq
  have hl0 : s.dev.lawless = false := Bool.eq_false_iff.mpr fun h0 => by simp [(step_keeps h).lawless h0] at hl
  rw [heng] at hj
  rw [hcfg]
  obtain ⟨hf, hpend⟩ := ho hl0 j hj q hq
  refine ⟨fun hb => ?_, hpend⟩
  rw [hidle (hf hb), takeTurn_dev]
  exact hf hb

/-- Every step, with no write of an outside agent to come. -/
theorem step_triggerInv {s t : State} (hc : ClockInv s) (ha : CtrlApart s.cfg) (hf : s.foreign = []) (ho : TriggerInv s)
    (h : step s = .next t)
    (hr : ∀ w, t.eng.hist = s.eng.hist ++ [.rd s.cfg.off.ctrl w] → w &&& swrstMask s.cfg = 0#32) :
    TriggerInv t := by
  have hu : TriggerInv s.takeTurn.2 := triggerInv_congr (by simp) (by simp) (by simp) ho
  obtain ⟨u, rfl, hv, hcases⟩ := step_cases h
  obtain ⟨-, ⟨j, hj, hx⟩ | ⟨-, -, rfl⟩ | ⟨m, i, hj, -, hi, hx⟩⟩ | ⟨ht, -⟩ | ⟨-, rfl | ⟨w, rest, r, v, hw, -⟩⟩ := hcases
  · rw [exec_serve hj] at hx
    cases hx
    have hcu : ClockInv s.takeTurn.2 := by
      unfold ClockInv pastClock at *
      simpa using hc
    exact serve_triggerInv (by simpa using hv) hcu (by simpa using ha) hj hu (by simpa using hr)
  · have hp := pick_drawOnly s.takeTurn.2
    exact triggerInv_congr hp.cfg hp.dev (by rw [hp.eng]) hu
  · obtain ⟨-, -, hg⟩ := pick_take_frame m s.takeTurn.2
    exact exec_request_triggerInv (by rw [hg]; exact hj) (decodeRequest_not_device hi) hx
  · exact deviceTurn_triggerInv ht h ho
  · exact hu
  · rw [takeTurn_foreign, hf] at hw
    cases hw

/-- Settles O58: the invariant is one of the position of the inner ISSUE, and at its trigger it is what makes the
`IPCMD` write start the transaction. -/
theorem transactionsNeverOverlap : Obligations.TransactionsNeverOverlap := by
  unfold Obligations.TransactionsNeverOverlap
  refine ⟨fun s t _ _ hc ha hf ho h hr => step_triggerInv hc ha hf ho h hr,
    fun s t j seq addr size ho hc he hj hk ht hx => ?_⟩
  have hik : IssueTask seq addr size j.task ∧ issuePos j.task = some .command := by
    obtain hk | ⟨data, n, lim, hk, hs⟩ := hk
    · exact ⟨.inl ⟨_, hk⟩, by rw [hk]; rfl⟩
    · exact ⟨.inr ⟨data, _, n, lim, hk, hs⟩, by rw [hk]; rfl⟩
  obtain ⟨hik, hq⟩ := hik
  have hidle : s.dev.inFlight = none := ((triggerInv_iff s).mp ho hc.2 j hj _ hq).1 rfl
  obtain ⟨u, hu, hd, -⟩ := issueStep_write hj ht hik hq (r := .waitDone 1) (l := [.trace (.issueStart seq addr size)])
    (x := .ipcmd) (v := packIpcmd seq size) rfl
  rw [hu] at hx
  cases hx
  obtain ⟨b, hb⟩ := devWrite_ipcmd (Standing.of hc he hidle) seq size
  rw [hd, hb]
  exact ⟨hc.2, rfl⟩

end Sys2Proof.Machine
end

section
/-! ## Holds, the lock, and the order of the port (43_transaction_engine.md R170 to R172; 10_state.md R25) -/

namespace Sys2Proof.Machine

/-! ### Admission -/

/-- What holds a request back (R172). -/
theorem admission_held {s : State} (h : s.eng.mode = .active ∨ ownerAllows s.eng.owner s.eng.offer = false) (b : Bool) :
    s.admission b = .held := by
  unfold State.admission
  by_cases hm : s.eng.mode = .active
  · rw [if_pos hm]
  · have ho : s.eng.owner ≠ none ∧ s.eng.owner ≠ some s.eng.offer := by
      simpa [ownerAllows] using h.resolve_left hm
    rw [if_neg hm, if_pos ho]

/-- In Idle a request that the lock lets through is accepted (R152 'Accepted when'). -/
theorem admission_idle {s : State} (hm : s.eng.mode = .idle) (ho : ownerAllows s.eng.owner s.eng.offer = true)
    (b : Bool) : s.admission b = .accepted := by
  have ho' : ¬(s.eng.owner ≠ none ∧ s.eng.owner ≠ some s.eng.offer) := by
    simpa [ownerAllows, or_iff_not_imp_left] using ho
  rw [State.admission, if_neg (by simp [hm]), if_neg ho', if_neg (by simp [hm])]

/-- In Uninit one that needs INIT is refused (70_reset_and_hazards.md R222). -/
theorem admission_uninit {s : State} (hm : s.eng.mode = .uninit) (ho : ownerAllows s.eng.owner s.eng.offer = true) :
    s.admission true = .refused .uninitialised := by
  have ho' : ¬(s.eng.owner ≠ none ∧ s.eng.owner ≠ some s.eng.offer) := by
    simpa [ownerAllows, or_iff_not_imp_left] using ho
  rw [State.admission, if_neg (by simp [hm]), if_neg ho', if_pos ⟨rfl, hm⟩]

/-! ### Holds -/

/-- A request that is held, and not in service, changes nothing. -/
theorem exec_held {i : Instr} {s : State} (hi : deviceInstr i = false) (hh : ∀ b, s.admission b = .held)
    (hj : ∀ j, s.eng.job = some j → taskInstr j.task ≠ i) : exec i s = .next s := by
  cases i
  case encode | decode | acquire | release =>
    simp only [exec, execEncode, execDecode, execAcquire, execRelease, hh]
  case writeSeq | issue | drain | fill | init =>
    simp only [exec, execWriteSeq, execIssue, execDrain, execFill, execInit]
    cases hs : s.eng.job with
    | none => simp only [hh]
    | some j =>
      have hne := hj j hs
      cases hk : j.task <;> rw [hk] at hne <;> simp_all [taskInstr]
  all_goals cases hi

/-- Settles O44: every request asks the port's admission first, unless it is in service. -/
theorem requestsAreHeld : Obligations.RequestsAreHeld := by
  unfold Obligations.RequestsAreHeld
  intro s i hinv hi
  have hdev : deviceInstr i = false := by
    rcases hi with ⟨_, _, rfl⟩ | ⟨_, rfl⟩ | ⟨_, _, rfl⟩ | ⟨_, _, _, rfl⟩ | ⟨_, rfl⟩ | ⟨_, _, _, rfl⟩ | ⟨_, rfl⟩ |
      ⟨_, rfl⟩ | rfl <;> rfl
  refine ⟨fun j hj => ?_, fun hj ho => exec_held hdev (admission_held (.inr ho)) (by simp [hj])⟩
  have hm : s.eng.mode = .active := by
    unfold ModeInv at hinv
    rw [hj] at hinv
    exact hinv.1
  refine ⟨hm, fun hne => exec_held hdev (admission_held (.inl hm)) fun k hk => ?_⟩
  rw [hj] at hk
  cases hk
  exact hne

/-! ### ACQUIRE and RELEASE (R170, R171) -/

section
variable {s : State} (who : Requester)

theorem exec_lock_held (hh : ∀ b, s.admission b = .held) :
    exec (.acquire who) s = .next s ∧ exec (.release who) s = .next s := by
  simp only [exec, execAcquire, execRelease, hh, and_self]

theorem exec_lock_refused {r : Refusal} (hh : s.admission true = .refused r) :
    exec (.acquire who) s = .refused r ∧ exec (.release who) s = .refused r := by
  simp only [exec, execAcquire, execRelease, hh, and_self]

variable (hh : s.admission true = .accepted)
include hh

theorem exec_acquire_free (ho : s.eng.owner = none) :
    exec (.acquire who) s =
      if who = s.eng.offer then
        .next
          { s with
            eng := { s.eng with owner := some who }
            responses := s.responses ++ [(s.eng.offer, .ok .unit)] }
      else .refused .notTheSender := by
  simp only [exec, execAcquire, hh, ho, ne_eq, not_true_eq_false, if_false, ite_not]
  rfl

theorem exec_acquire_owned (ho : s.eng.owner ≠ none) : exec (.acquire who) s = .refused .nestedAcquire := by
  simp only [exec, execAcquire, hh, ho, ne_eq, not_false_eq_true, if_true]

theorem exec_release_accepted :
    exec (.release who) s =
      if s.eng.owner = some who then
        .next
          { s with
            eng := { s.eng with owner := none }
            responses := s.responses ++ [(s.eng.offer, .ok .unit)] }
      else .refused .notTheOwner := by
  simp only [exec, execRelease, hh]
  rfl
end

/-- Settles O40: by what the port's admission says. -/
theorem lockIsTakenAndFreed : Obligations.LockIsTakenAndFreed := by
  unfold Obligations.LockIsTakenAndFreed
  refine fun s => ⟨fun hm ho => ?_, fun hm ho => ?_, fun r ho hr who => ?_, fun hm ho who => ?_, fun hm who => ?_⟩
  · have hh := admission_idle hm (by simp [ownerAllows, ho]) true
    refine ⟨?_, fun who hw => ?_, fun who => ?_⟩
    · rw [exec_acquire_free _ hh ho, if_pos rfl]
    · rw [exec_acquire_free _ hh ho, if_neg hw]
    · rw [exec_release_accepted _ hh, if_neg (by simp [ho])]
  · have hh := admission_idle hm (by simp [ownerAllows, ho]) true
    refine ⟨?_, fun who hw => ?_, fun who => exec_acquire_owned _ hh (by simp [ho])⟩
    · rw [exec_release_accepted _ hh, if_pos ho]
    · rw [exec_release_accepted _ hh, if_neg (by simpa [ho] using hw.symm)]
  · exact exec_lock_held who (admission_held (.inr (by simpa [ownerAllows, ho] using hr)))
  · exact exec_lock_refused who (admission_uninit hm (by simp [ownerAllows, ho]))
  · exact exec_lock_held who (admission_held (.inl hm))

/-! ### The order of the port (R172) -/

/-- A request that may be taken is the first its requester has on the port. -/
theorem firstOfEach_split {l : List Posted} {seen : List Requester} {m : Posted} (h : m ∈ firstOfEach l seen) :
    m.sender ∉ seen ∧ ∃ before after, l = before ++ m :: after ∧ ∀ x ∈ before, x.sender ≠ m.sender := by
  induction l generalizing seen with
  | nil => cases h
  | cons a l ih =>
    unfold firstOfEach at h
    split at h
    · next hseen =>
      obtain ⟨hm, before, after, rfl, hb⟩ := ih h
      have ha : a.sender ∈ seen := by simpa using hseen
      refine ⟨hm, a :: before, after, rfl, List.forall_mem_cons.mpr ⟨fun he => hm (he ▸ ha), hb⟩⟩
    · next hseen =>
      obtain rfl | h := List.mem_cons.mp h
      · exact ⟨by simpa using hseen, [], l, rfl, by simp⟩
      · obtain ⟨hm, before, after, rfl, hb⟩ := ih h
        rw [List.mem_cons, not_or] at hm
        exact ⟨hm.2, a :: before, after, rfl, List.forall_mem_cons.mpr ⟨fun he => hm.1 he.symm, hb⟩⟩

/-- Every requester with a request on the port has one that may be taken. -/
theorem firstOfEach_covers {l : List Posted} {seen : List Requester} {m : Posted} (h : m ∈ l) (hs : m.sender ∉ seen) :
    ∃ x ∈ firstOfEach l seen, x.sender = m.sender := by
  induction l generalizing seen with
  | nil => cases h
  | cons a l ih =>
    unfold firstOfEach
    by_cases ha : a.sender ∈ seen
    · rw [if_pos (by simpa using ha)]
      obtain rfl | h := List.mem_cons.mp h
      · exact absurd ha hs
      · exact ih h hs
    · rw [if_neg (by simpa using ha)]
      by_cases he : a.sender = m.sender
      · exact ⟨a, by simp, he⟩
      · obtain rfl | h := List.mem_cons.mp h
        · exact absurd rfl he
        · obtain ⟨x, hx, hxs⟩ := ih h (seen := a.sender :: seen) (by simp [hs, Ne.symm he])
          exact ⟨x, List.mem_cons_of_mem _ hx, hxs⟩

theorem mem_eligible {s : State} {m : Posted} :
    m ∈ s.eligible ↔
      s.eng.mode ≠ .active ∧ m ∈ firstOfEach s.port [] ∧ ownerAllows s.eng.owner m.sender = true := by
  unfold State.eligible
  by_cases hm : s.eng.mode = .active <;> simp [hm, List.mem_filter]

/-- What the engine takes is eligible. -/
theorem pick_mem {s : State} {m : Posted} (h : s.pick.1 = some m) : m ∈ s.eligible := by
  unfold State.pick at h
  cases he : s.eligible with
  | nil => rw [he] at h; cases h
  | cons a l =>
    rw [he] at h
    cases l with
    | nil => cases h; simp
    | cons b l =>
      simp only [Option.some.injEq] at h
      rw [← h, List.getD_eq_getElem _ _ (Nat.mod_lt _ (by simp))]
      exact List.getElem_mem _

theorem pick_ne_none {s : State} {m : Posted} (h : m ∈ s.eligible) : s.pick.1 ≠ none := by
  unfold State.pick
  split
  · next he => rw [he] at h; cases h
  all_goals simp

/-- Settles O45: what the engine takes is eligible, and an eligible request is its requester's first. -/
theorem requestsAreTakenInOrder : Obligations.RequestsAreTakenInOrder := by
  unfold Obligations.RequestsAreTakenInOrder
  refine fun s => ⟨fun hm => ?_, fun m hp => ?_, fun m hmem hm ho => ?_⟩
  · by_contra hp
    obtain ⟨m, hp⟩ := Option.ne_none_iff_exists'.mp hp
    exact (mem_eligible.mp (pick_mem hp)).1 hm
  · obtain ⟨-, hfirst, ho⟩ := mem_eligible.mp (pick_mem hp)
    obtain ⟨-, before, after, hport, hb⟩ := firstOfEach_split hfirst
    have hnot : m ∉ before := fun h => hb m h rfl
    refine ⟨ho, before, after, hport, hb, ?_, rfl⟩
    show s.pick.2.port.erase m = _
    rw [(pick_drawOnly s).port, hport, List.erase_append_right _ hnot, List.erase_cons_head]
  · obtain ⟨x, hx, hxs⟩ := firstOfEach_covers hmem (seen := []) (by simp)
    exact pick_ne_none (mem_eligible.mpr ⟨hm, hx, by rw [hxs]; exact ho⟩)

end Sys2Proof.Machine
end

section
/-! ## Bounded waits (43_transaction_engine.md R150, R151) and the run of ISSUE (R152)

A wait's polls that fail come first (`issue_polls`); then one poll is satisfied, or poll `WAIT_LIMIT` expires. Both
waits of ISSUE, and of FILL's inner ISSUE, are one function of the position (`waitPos`). -/

namespace Sys2Proof.Machine

/-! ### Runs of one request -/

/-- Some number of steps of `i`, with no other agent's in between, takes `s` to `t`. -/
def Runs (i : Instr) (s t : State) : Prop := ∃ n, execTimes i n s = .next t

namespace Runs

theorem refl (i : Instr) (s : State) : Runs i s s := ⟨0, rfl⟩

theorem of_times {i : Instr} {n : Nat} {s t : State} (h : execTimes i n s = .next t) : Runs i s t := ⟨n, h⟩

theorem trans {i : Instr} {s t u : State} (h : Runs i s t) (k : Runs i t u) : Runs i s u := by
  obtain ⟨m, hm⟩ := h
  obtain ⟨n, hn⟩ := k
  exact ⟨m + n, (execTimes_add hm).trans hn⟩

theorem step {i : Instr} {s t u : State} (h : Runs i s t) (k : exec i t = .next u) : Runs i s u :=
  h.trans ⟨1, execTimes_one k⟩

theorem head {i : Instr} {s t u : State} (h : exec i s = .next t) (k : Runs i t u) : Runs i s u :=
  trans ⟨1, execTimes_one h⟩ k

end Runs

/-- What a run of a request that makes accesses leaves unchanged, whatever it does. -/
structure RunFrame (s t : State) : Prop where
  cfg : t.cfg = s.cfg
  owner : t.eng.owner = s.eng.owner
  port : t.port = s.port
  foreign : t.foreign = s.foreign
  schedule : t.schedule = s.schedule

theorem exec_runFrame {i : Instr} {s t : State} (hi : ∀ p, firstTask p i ≠ none) (h : exec i s = .next t) :
    RunFrame s t := by
  obtain rfl | ⟨hd, -⟩ | ⟨_, -, -, hs⟩ | ⟨-, ha⟩ := exec_cases h
  · exact ⟨rfl, rfl, rfl, rfl, rfl⟩
  · exact absurd (firstTask_of_device s.cfg hd) (hi _)
  · exact ⟨hs.cfg, hs.owner, hs.port, hs.foreign, hs.schedule⟩
  · obtain ⟨_, -, -, -, ho, -⟩ | ⟨hnone, -⟩ := ha.goes
    · exact ⟨ha.cfg, ho, ha.port, ha.foreign, ha.schedule⟩
    · exact absurd hnone (hi _)

theorem execTimes_runFrame {i : Instr} (hi : ∀ p, firstTask p i ≠ none) {n : Nat} {s t : State}
    (h : execTimes i n s = .next t) : RunFrame s t := by
  induction n generalizing s with
  | zero => cases h; exact ⟨rfl, rfl, rfl, rfl, rfl⟩
  | succ n ih =>
    rw [execTimes] at h
    split at h
    · next u hu =>
      have hf := exec_runFrame hi hu
      have hg := ih h
      exact ⟨hg.cfg.trans hf.cfg, hg.owner.trans hf.owner, hg.port.trans hf.port, hg.foreign.trans hf.foreign,
        hg.schedule.trans hf.schedule⟩
    · next o ho => exact absurd h (ho t)

/-! ### One poll of ISSUE's waits -/

/-- Poll `i` of ISSUE's second wait, or of its first. -/
def waitPos (done : Bool) (i : Nat) : IssuePos := if done then .waitDone i else .waitIdle i

/-- The error of the second wait, or of the first (R152). -/
def waitError (done : Bool) : ErrorKind := if done then .timeout else .busy

/-- A task with an inner ISSUE has its operands. -/
theorem issueTask_of_pos {k : Task} {q : IssuePos} (h : issuePos k = some q) :
    ∃ seq addr size, IssueTask seq addr size k := by
  obtain ⟨seq, addr, size, rfl⟩ | ⟨seq, addr, data, n, lim, rfl⟩ := issuePos_cases h
  · exact ⟨seq, addr, size, .inl ⟨q, rfl⟩⟩
  · exact ⟨seq, addr, fillSize n, .inr ⟨data, q, n, lim, rfl, rfl⟩⟩

theorem setIssuePos_self {k : Task} {q : IssuePos} (h : issuePos k = some q) : setIssuePos q k = k := by
  obtain ⟨_, _, _, rfl⟩ | ⟨_, _, _, _, _, rfl⟩ := issuePos_cases h <;> rfl

/-- Nothing moved. -/
theorem Moves.refl {s : State} {j : Service} (hj : s.eng.job = some j) (ht : j.todo = []) :
    Moves s s j.task [] [] := by
  refine ⟨rfl, rfl, ?_⟩
  rw [hj, List.append_nil, Option.map_some, ← ht, ← hj]

section
variable {s : State} {j : Service} {seq : BitVec 4} {addr : Word} {size : Half} {i : Nat} {done : Bool}

theorem issueStep_again (hb : busyClear s.cfg (s.regRead .status).1 = false) (hi : i < s.cfg.waitLimit) :
    issueStep seq addr size (waitPos done i) s = (.at (waitPos done (i + 1)) [], (s.regRead .status).2) := by
  cases done <;> simp [waitPos, issueStep, poll_again_eq i hb hi]

theorem issueStep_expired (hb : busyClear s.cfg (s.regRead .status).1 = false) (hi : s.cfg.waitLimit ≤ i) :
    issueStep seq addr size (waitPos done i) s = (.fail (waitError done), (s.regRead .status).2) := by
  cases done <;> simp [waitPos, waitError, issueStep, poll_expired_eq i hb hi]

/-- A step of the inner ISSUE that fails leaves nothing but the error response (60_exceptions.md R193). -/
theorem exec_issueStep_fail {q : IssuePos} {e : ErrorKind} {u : State} (hj : s.eng.job = some j) (ht : j.todo = [])
    (hk : IssueTask seq addr size j.task) (hq : issuePos j.task = some q)
    (h : issueStep seq addr size q s = (.fail e, u)) : exec (taskInstr j.task) s = .next (u.raise e) := by
  rw [exec_access hj ht]
  obtain ⟨q', hi⟩ | ⟨data, q', n, lim, hi, rfl⟩ := hk <;> rw [hi] at hq ⊢ <;> cases hq
  · simp only [taskStep, issueServe, h]
  · simp only [taskStep, fillStep, h]

variable (hj : s.eng.job = some j) (ht : j.todo = []) (hk : IssueTask seq addr size j.task)
  (hq : issuePos j.task = some (waitPos done i))
include hj ht hk hq

/-- A wait of ISSUE that expires: the last poll, and the error response, after which the request has ended. -/
theorem issue_expires (hb : busyClear s.cfg (s.regRead .status).1 = false) (hi : s.cfg.waitLimit ≤ i) :
    ∃ t u, exec (taskInstr j.task) s = .next t ∧ exec (taskInstr j.task) t = .next u ∧
      t.dev = (s.regRead .status).2.dev ∧ t.responses = s.responses ∧
      t.eng =
        { s.eng with
          hist := s.eng.hist ++ [.rd s.cfg.off.status (s.regRead .status).1]
          job := some { j with todo := [.respond (.err (waitError done))] } } ∧
      u =
        { t with
          eng := { t.eng with mode := j.resume, job := none }
          responses := s.responses ++ [(j.sender, .err (waitError done))] } := by
  have hx := exec_issueStep_fail hj ht hk hq (issueStep_expired hb hi)
  have heng : ((s.regRead .status).2.raise (waitError done)).eng =
      { s.eng with
        hist := s.eng.hist ++ [.rd s.cfg.off.status (s.regRead .status).1]
        job := some { j with todo := [.respond (.err (waitError done))] } } := by
    simp [State.raise, State.queue, State.mapEng, hj, offOf]
  have hx' := exec_respond_plain (j := { j with todo := [.respond (.err (waitError done))] }) (by rw [heng]) rfl
    (boots_err _ _)
  have hresp : ((s.regRead .status).2.raise (waitError done)).responses = s.responses := by simp [raise_eq]
  rw [hresp] at hx'
  exact ⟨_, _, hx, hx', rfl, hresp, heng, rfl⟩

/-- The polls that fail before one is satisfied, or before the last (R151). -/
theorem issue_polls (hi : i ≤ s.cfg.waitLimit) :
    ∃ (t : State) (vs : List Word), Runs (taskInstr j.task) s t ∧
      Moves s t (setIssuePos (waitPos done (i + vs.length)) j.task) [] (vs.map (.rd s.cfg.off.status)) ∧
      (∀ x ∈ vs, busyClear s.cfg x = false) ∧ i + vs.length ≤ s.cfg.waitLimit ∧
      (busyClear s.cfg (t.regRead .status).1 = false → i + vs.length = s.cfg.waitLimit) := by
  obtain ⟨m, hm⟩ := Nat.le.dest hi
  induction m generalizing s j i with
  | zero =>
    have hstay : Moves s s (setIssuePos (waitPos done i) j.task) [] [] := by
      rw [setIssuePos_self hq]
      exact .refl hj ht
    exact ⟨s, [], .refl _ _, hstay, by simp, hi, fun _ => hm⟩
  | succ m ih =>
    have hstay : Moves s s (setIssuePos (waitPos done i) j.task) [] [] := by
      rw [setIssuePos_self hq]
      exact .refl hj ht
    cases hb : busyClear s.cfg (s.regRead .status).1 with
    | true => exact ⟨s, [], .refl _ _, hstay, by simp, hi, fun h => by rw [hb] at h; cases h⟩
    | false =>
      obtain ⟨t, hx, -, hmv⟩ := issueStep_read hj ht hk hq (issueStep_again hb (by omega))
      obtain ⟨u, vs, hrun, hmv', hfail, hle, hlast⟩ := ih (hmv.job hj) rfl (hk.set _) (issuePos_setIssuePos _ hq)
        (by rw [hmv.cfg]; omega) (by rw [hmv.cfg]; omega)
      simp only [taskInstr_setIssuePos, setIssuePos_setIssuePos, hmv.cfg] at hrun hmv' hfail hle hlast
      have hlen : i + ((s.regRead .status).1 :: vs).length = i + 1 + vs.length := by simp; omega
      refine ⟨u, (s.regRead .status).1 :: vs, .head hx hrun, ?_, List.forall_mem_cons.mpr ⟨hb, hfail⟩, ?_, ?_⟩
      · rw [hlen]
        exact hmv.trans hmv'
      · rwa [hlen]
      · rwa [hlen]
end

/-- Settles O32: with a transaction in flight every poll finds `BUSY` set. -/
theorem issueWaitsAreBounded : Obligations.IssueWaitsAreBounded := by
  unfold Obligations.IssueWaitsAreBounded
  intro s j i done hv hj hq ht hc hf
  obtain ⟨seq, addr, size, hk⟩ := issueTask_of_pos hq
  have hb := busy_reads_set hv hc hf
  by_cases hi : i < s.cfg.waitLimit
  · obtain ⟨t, hx, hkey, hm⟩ := issueStep_read hj ht hk (q := waitPos done i) hq (issueStep_again hb hi)
    refine ⟨t, _, hx, hkey, by rw [hm.eng], by rw [hm.eng]; rfl, by rw [hm.eng], hm.responses, by rw [hm.eng],
      fun _ => (hm.job hj).trans (by rw [← ht]; rfl), fun h => absurd hi (Nat.not_lt.mpr h)⟩
  · obtain ⟨t, u, hx, hx', hd, hresp, heng, rfl⟩ := issue_expires hj ht hk (done := done) hq hb (Nat.not_lt.mp hi)
    refine ⟨t, _, hx, ?_, by rw [heng], by rw [heng], by rw [heng], hresp, by rw [heng], fun h => absurd h hi,
      fun _ => ⟨_, hx', rfl, rfl, rfl, rfl, rfl⟩⟩
    rw [hd]
    exact (devRead_spec .status s).2.1

/-! ### The run of ISSUE against any device (R152) -/

section
variable {s : State} {j : Service} {seq : BitVec 4} {addr : Word} {size : Half}
  (hj : s.eng.job = some j) (ht : j.todo = []) (hk : IssueTask seq addr size j.task)
include hj ht hk

/-- A wait of ISSUE up to its last poll, which is the satisfied one or the one that expires (R151). -/
theorem issue_wait {done : Bool} (hv : s.cfg.valid = true) (hq : issuePos j.task = some (waitPos done 1)) :
    ∃ (t : State) (i : Nat) (l : List Event), Runs (taskInstr j.task) s t ∧
      Moves s t (setIssuePos (waitPos done i) j.task) [] l ∧
      (busyClear s.cfg (t.regRead .status).1 = true ∧
          WaitMet s.cfg .status (busyClear s.cfg) (l ++ [.rd s.cfg.off.status (t.regRead .status).1]) ∨
        busyClear s.cfg (t.regRead .status).1 = false ∧ s.cfg.waitLimit ≤ i ∧
          WaitExpired s.cfg .status (busyClear s.cfg) (l ++ [.rd s.cfg.off.status (t.regRead .status).1])) := by
  obtain ⟨t, vs, hrun, hm, hfail, hle, hlast⟩ := issue_polls hj ht hk hq (pollOk_one hv).2
  refine ⟨t, 1 + vs.length, _, hrun, hm, ?_⟩
  cases hb : busyClear s.cfg (t.regRead .status).1 with
  | true => exact .inl ⟨rfl, vs, _, by simp [offOf], by omega, hfail, hb⟩
  | false =>
    have hlen := hlast hb
    refine .inr ⟨rfl, hlen.ge, vs ++ [(t.regRead .status).1], by simp [offOf], by simp; omega, fun x hx => ?_⟩
    obtain hx | hx := List.mem_append.mp hx
    · exact hfail x hx
    · rw [List.mem_singleton.mp hx]
      exact hb

/-- ISSUE's `Act(RXPTR_CLR)`, wherever the field lies (20_memory.md R64). -/
theorem issue_act_rxptrClr (hq : issuePos j.task = some (.rxPtr .start)) :
    ∃ (t : State) (a : List Event), Runs (taskInstr j.task) s t ∧ ActTrace s.cfg (fieldRxptrClr s.cfg) a ∧
      Moves s t (setIssuePos (.seqPtr .start) j.task) [] a := by
  by_cases hrmw : isRmw (rxptrRole s.cfg) = true
  · obtain ⟨t, hx, -, hm⟩ := issueStep_read hj ht hk hq (r := .rxPtr (.write (s.regRead (rxptrRole s.cfg)).1))
      (l := []) (x := rxptrRole s.cfg) (by simp [issueStep, State.act, State.rmw, fieldRxptrClr, hrmw])
    generalize (s.regRead (rxptrRole s.cfg)).1 = w at hx hm
    obtain ⟨u, hx', -, hm'⟩ := issueStep_write (hm.job hj) rfl (hk.set _) (issuePos_setIssuePos _ hq)
      (r := .seqPtr .start) (l := []) (x := rxptrRole s.cfg) (v := w ||| s.cfg.mask.rxptrClr)
      (by simp [issueStep, State.act, State.rmw, setBits, fieldRxptrClr, hrmw, hm.cfg])
    rw [taskInstr_setIssuePos] at hx'
    rw [setIssuePos_setIssuePos, hm.cfg] at hm'
    refine ⟨u, _, .head hx (.of_times (execTimes_one hx')), ?_, hm.trans hm'⟩
    obtain h | h | h := rxptrRole_cases s.cfg
    · exact (if_pos (.inl h)).mpr ⟨w, rfl⟩
    · exact (if_pos (.inr h)).mpr ⟨w, rfl⟩
    · rw [h] at hrmw
      cases hrmw
  · obtain ⟨t, hx, -, hm⟩ := issueStep_write hj ht hk hq (r := .seqPtr .start) (l := []) (x := rxptrRole s.cfg)
      (v := s.cfg.mask.rxptrClr) (by simp [issueStep, State.act, fieldRxptrClr, hrmw])
    refine ⟨t, _, .of_times (execTimes_one hx), (if_neg ?_).mpr rfl, hm⟩
    rintro (h | h)
    · exact hrmw (by rw [show rxptrRole s.cfg = .ctrl from h]; rfl)
    · exact hrmw (by rw [show rxptrRole s.cfg = .rxctl from h]; rfl)

/-- ISSUE from its first wait on: it expires, or it ends at a satisfied poll and the request stands, traced, before
its second wait. -/
theorem issue_to_trigger (hv : s.cfg.valid = true) (hq : issuePos j.task = some (.waitIdle 1)) :
    (∃ t l, Runs (taskInstr j.task) s t ∧ t.eng.job = none ∧ t.eng.mode = j.resume ∧
        WaitExpired s.cfg .status (busyClear s.cfg) l ∧ t.eng.hist = s.eng.hist ++ l ∧ t.eng.trace = s.eng.trace ∧
        t.responses = s.responses ++ [(j.sender, .err .busy)]) ∨
      ∃ t l1 l2 l3, Runs (taskInstr j.task) s t ∧
        t.eng.job = some { j with task := setIssuePos (.waitDone 1) j.task } ∧
        WaitMet s.cfg .status (busyClear s.cfg) l1 ∧ ActTrace s.cfg (fieldRxptrClr s.cfg) l2 ∧
        ActTrace s.cfg (fieldSeqptrClr s.cfg) l3 ∧
        t.eng.hist = s.eng.hist ++ l1 ++ [.wr s.cfg.off.addr addr] ++ l2 ++ l3 ++
          [.wr s.cfg.off.ipcmd (packIpcmd seq size)] ∧
        t.eng.trace = s.eng.trace ++ [.issueStart seq addr size] ∧ t.responses = s.responses := by
  obtain ⟨t, i, l, hrun, hm, ⟨hb, hmet⟩ | ⟨hb, hi, hexp⟩⟩ := issue_wait hj ht hk (done := false) hv hq
  · have hpos := fun r => issuePos_setIssuePos (k := j.task) r hq
    rw [← hm.cfg] at hb
    obtain ⟨u, hx, -, hmu⟩ := issueStep_read (hm.job hj) rfl (hk.set _) (hpos (.waitIdle i)) (r := .addr) (l := [])
      (x := .status) (by simp only [issueStep, poll_satisfied_eq i hb])
    obtain ⟨v, hx', -, hmv⟩ := issueStep_write (hmu.job (hm.job hj)) rfl ((hk.set _).set _)
      (by rw [setIssuePos_setIssuePos]; exact hpos _) (r := .rxPtr .start) (l := []) (x := .addr) (v := addr) rfl
    have hall := (hm.trans hmu).trans hmv
    simp only [taskInstr_setIssuePos, setIssuePos_setIssuePos] at hx hx' hall
    obtain ⟨w, a, hrun', hact, hmw⟩ := issue_act_rxptrClr (hall.job hj) rfl (hk.set _) (hpos _)
    have hall' := hall.trans hmw
    simp only [taskInstr_setIssuePos, setIssuePos_setIssuePos, hall.cfg] at hrun' hact hall'
    obtain ⟨z, hx'', hjob, htrace, hhist, hresp, -⟩ := issue_starts (by rw [hall'.cfg]; exact hv) (hall'.job hj) rfl
      (hk.set _) (hpos _)
    simp only [taskInstr_setIssuePos, setIssuePos_setIssuePos, hall'.cfg] at hx'' hjob hhist
    refine .inr ⟨z, _, a, [.wr s.cfg.off.sptrclr s.cfg.mask.seqptrClr],
      (((hrun.step hx).step hx').trans hrun').trans (.of_times hx''), hjob.trans (by rw [← ht]), hmet, hact, ?_, ?_,
      htrace.trans (by rw [hall'.eng]), hresp.trans hall'.responses⟩
    · exact (if_neg (by simp [fieldSeqptrClr])).mpr rfl
    · rw [hhist, hall'.eng, hmu.cfg, hm.cfg]
      simp [offOf]
  · obtain ⟨u, z, hx, hx', -, hresp, heng, rfl⟩ := issue_expires (hm.job hj) rfl (hk.set _)
      (issuePos_setIssuePos _ hq) (by rw [hm.cfg]; exact hb) (by rw [hm.cfg]; exact hi)
    rw [taskInstr_setIssuePos] at hx hx'
    refine .inl ⟨_, _, (hrun.step hx).step hx', rfl, rfl, hexp, ?_, ?_, ?_⟩
    · simp [heng, hm.eng, hm.cfg]
    · simp [heng, hm.eng]
    · simp [hm.responses, waitError]

end

/-- ISSUE's second wait, and how it ends: `Ok` with its trace event, or `Timeout` (R152). -/
theorem issue_after_trigger {s : State} {j : Service} {seq : BitVec 4} {addr : Word} {size : Half}
    (hv : s.cfg.valid = true) (hj : s.eng.job = some j) (ht : j.todo = [])
    (hk : j.task = .issue seq addr size (.waitDone 1)) :
    ∃ t l, Runs (.issue seq addr size) s t ∧ t.eng.job = none ∧ t.eng.mode = j.resume ∧
      t.eng.hist = s.eng.hist ++ l ∧
      (WaitMet s.cfg .status (busyClear s.cfg) l ∧ t.eng.trace = s.eng.trace ++ [.issueComplete seq] ∧
          t.responses = s.responses ++ [(j.sender, .ok .unit)] ∨
        WaitExpired s.cfg .status (busyClear s.cfg) l ∧ t.eng.trace = s.eng.trace ∧
          t.responses = s.responses ++ [(j.sender, .err .timeout)]) := by
  have hik : IssueTask seq addr size j.task := .inl ⟨_, hk⟩
  have hq : issuePos j.task = some (waitPos true 1) := by rw [hk]; rfl
  obtain ⟨t, i, l, hrun, hm, hend⟩ := issue_wait hj ht hik hv hq
  have hjt := hm.job hj
  simp only [hk, taskInstr, setIssuePos, waitPos, if_true] at hrun hjt
  obtain ⟨hb, hmet⟩ | ⟨hb, hi, hexp⟩ := hend
  · have hx := exec_access hjt rfl
    rw [← hm.cfg] at hb
    simp only [taskInstr, taskStep, issueServe_done hb] at hx
    have hju : ((t.regRead .status).2.queue (issueDone seq .unit)).eng.job =
        some { j with task := .issue seq addr size (.waitDone i), todo := issueDone seq .unit } := by
      rw [queue_job, regRead_eng, hjt]
      rfl
    have hx' := exec_trace hju rfl
    have hx'' := exec_respond_plain (j := { j with
      task := .issue seq addr size (.waitDone i), todo := [.respond (.ok .unit)] }) (s := (((t.regRead .status).2.queue
      (issueDone seq .unit)).traceEv (.issueComplete seq)).queue [.respond (.ok .unit)])
      (by rw [queue_job, traceEv_job, hju]; rfl) rfl rfl
    refine ⟨_, _, ((hrun.step hx).step hx').step hx'', rfl, rfl, ?_, .inl ⟨hmet, ?_, ?_⟩⟩
    · simp [regRead_eng, hm.eng, hm.cfg, offOf]
    · simp [hm.eng]
    · simp [hm.responses]
  · obtain ⟨u, z, hx, hx', -, hresp, heng, rfl⟩ := issue_expires hjt rfl (.inl ⟨_, rfl⟩) (done := true) rfl
      (by rw [hm.cfg]; exact hb) (by rw [hm.cfg]; exact hi)
    refine ⟨_, _, (hrun.step hx).step hx', rfl, rfl, ?_, .inr ⟨hexp, ?_, ?_⟩⟩
    · simp [heng, hm.eng, hm.cfg]
    · simp [heng, hm.eng]
    · simp [hm.responses, waitError]

/-- Settles O29: acceptance, the first wait to the trigger, and the second wait. -/
theorem issueServesItsRule : Obligations.IssueServesItsRule := by
  unfold Obligations.IssueServesItsRule
  intro s seq addr size hv hr
  have hbegin := exec_issue_ready hr seq addr size
  obtain ⟨t, l, hrun, hjob, hmode, hexp, hhist, htrace, hresp⟩ |
      ⟨t, l1, l2, l3, hrun, hjob, hmet, hact, hact', hhist, htrace, hresp⟩ :=
    issue_to_trigger (s := s.begin (.issue seq addr size (.waitIdle 1)) []) rfl rfl (.inl ⟨_, rfl⟩) hv rfl
  · obtain ⟨n, hn⟩ := Runs.head hbegin hrun
    obtain ⟨hcfg, howner, hport, hforeign, hschedule⟩ := execTimes_runFrame (by simp [firstTask]) hn
    exact ⟨n, t, hn, hjob, hmode.trans hr.2.1, howner, hcfg, hport, hforeign, hschedule,
      .inl ⟨l, hexp, hhist, htrace, hresp⟩⟩
  · have hcfg : t.cfg = s.cfg := by
      obtain ⟨n, hn⟩ := hrun
      exact (execTimes_runFrame (by simp [firstTask, taskInstr]) hn).cfg
    obtain ⟨u, l4, hrun', hjob', hmode, hhist', hend⟩ := issue_after_trigger (by rw [hcfg]; exact hv) hjob rfl rfl
    rw [hcfg] at hend
    obtain ⟨n, hn⟩ := Runs.head hbegin (hrun.trans hrun')
    obtain ⟨hcfg, howner, hport, hforeign, hschedule⟩ := execTimes_runFrame (by simp [firstTask]) hn
    refine ⟨n, u, hn, hjob', hmode.trans hr.2.1, howner, hcfg, hport, hforeign, hschedule,
      .inr ⟨l1, l2, l3, l4, hmet, hact, hact', ?_, ?_⟩⟩
    · rw [hhist', hhist]
      rfl
    · rw [htrace, hresp] at hend
      simpa using hend

end Sys2Proof.Machine
end

section
/-! ## DRAIN and FILL served without interruption (43_transaction_engine.md R153 to R155)

One word of DRAIN is a poll, a read, a pop and a trace event (`drain_word`); one word of FILL is a poll and a write
(`fill_word`). The whole request is an induction on the words that are left. -/

namespace Sys2Proof.Machine

/-! ### Accesses that leave the request at a task -/

section
variable {s : State} {j : Service} (hj : s.eng.job = some j) (ht : j.todo = [])
include hj ht

/-- A read after which the request stands at `k`. -/
theorem regRead_moves (r : Role) (k : Task) :
    Moves s ((s.regRead r).2.setTask k) k [] [.rd (offOf s.cfg r) (s.regRead r).1] :=
  ⟨by simp, by simp, by simp [State.setTask, State.mapEng, hj, ht]⟩

/-- A write after which the request stands at `k`. -/
theorem regWrite_moves (r : Role) (v : Word) (k : Task) :
    Moves s ((s.regWrite r v).setTask k) k [] [.wr (offOf s.cfg r) v] :=
  ⟨by simp, by simp, by simp [State.setTask, State.mapEng, hj, ht]⟩

/-- An access step of DRAIN in service. -/
theorem exec_drain_access {size : Word} {pos : DrainPos} {out : List Byte} {k : Nat}
    (hk : j.task = .drain size pos out k) : exec (.drain size) s = .next (drainStep size pos out k s) := by
  rw [exec_drain_serve hj hk, serve_access s _ hj ht]
end

/-- A device answers by its contract if, but for the key, it is one with a clock and a contract. -/
theorem Contract.of_key {t : State} {d : Device} (hk : OnlyKey d t.dev) (hc : d.clockOn = true)
    (hl : d.lawless = false) : Contract t := by
  obtain ⟨⟨b, hb⟩, -⟩ := hk
  unfold Contract
  rw [hb]
  exact ⟨hc, hl⟩

/-- A device of which only the key may have changed answers by its contract as before. -/
theorem Contract.key {s t : State} (h : Contract s) (hk : OnlyKey s.dev t.dev) : Contract t :=
  .of_key hk h.1 h.2

/-! ### DRAIN's wait -/

/-- `RXWM` reads set exactly with a watermark in the RX buffer, the flags' bits being apart (R48). -/
theorem rxwm_reads {s : State} (hv : s.cfg.valid = true) (hc : Contract s) (ha : StatusApart s.cfg) :
    fieldSet s.cfg.mask.rxwm (s.regRead .status).1 = decide (4 ≤ s.dev.rxBuf.length) := by
  obtain ⟨w, hw, -⟩ := regRead_full .status s
  rw [hw, readAnswer_contract hc, (statusAnswer_flags hv ha s.dev w).2.1]
  rfl

/-- With one in it, it reads set wherever the flags' bits lie. -/
theorem rxwm_reads_set {s : State} (hv : s.cfg.valid = true) (hc : Contract s) (h4 : 4 ≤ s.dev.rxBuf.length) :
    fieldSet s.cfg.mask.rxwm (s.regRead .status).1 = true := by
  obtain ⟨w, hw, -⟩ := regRead_full .status s
  rw [hw, readAnswer_contract hc]
  exact (statusAnswer_set hv s.dev w).2.1 (decide_eq_true h4)

/-- Settles O34: without a watermark every poll fails. -/
theorem drainTimesOut : Obligations.DrainTimesOut := by
  unfold Obligations.DrainTimesOut
  intro s j size i k out hv hj hk ht hc ha h4
  have hno : fieldSet s.cfg.mask.rxwm (s.regRead .status).1 = false := by
    rw [rxwm_reads hv hc ha]
    exact decide_eq_false (Nat.not_le.mpr h4)
  have hx := exec_drain_access hj ht hk
  simp only [drainStep] at hx
  by_cases hi : i < s.cfg.waitLimit
  · rw [poll_again_eq i hno hi] at hx
    obtain ⟨hkey, hresp, hjob⟩ := regRead_setTask_frame hj .status (.drain size (.wait (i + 1)) out k)
    exact ⟨_, hx, hkey, by simp, hresp, fun _ => hjob, fun h => absurd hi (Nat.not_lt.mpr h)⟩
  · rw [poll_expired_eq i hno (Nat.not_lt.mp hi)] at hx
    have hjob :
        ((s.regRead .status).2.raise .timeout).eng.job = some { j with todo := [.respond (.err .timeout)] } := by
      rw [raise_eq, queue_job, regRead_eng, hj]
      rfl
    have hx' := exec_respond_plain hjob rfl (boots_err _ _)
    simp only [hk, taskInstr] at hx'
    refine ⟨_, hx, (devRead_spec .status s).2.1, by simp [raise_eq], by simp [raise_eq], fun h => absurd h hi,
      fun _ => ⟨_, hx', rfl, rfl, by simp [raise_eq], rfl, rfl⟩⟩

/-! ### DRAIN's words -/

/-- The device after `m` pops of a watermark (R49). -/
def Device.popped (m : Nat) (d : Device) : Device :=
  { d with rxBuf := d.rxBuf.drop (4 * m), rxPtr := d.rxPtr + 4 * m }

/-- After one pop and `m` more. -/
theorem Device.popped_popped_one (m : Nat) (d : Device) : (d.popped 1).popped m = d.popped (m + 1) := by
  simp [Device.popped, List.drop_drop, Nat.mul_add, Nat.add_comm (4 * m), Nat.add_assoc]

/-- What came after the first pop came after the whole. -/
theorem OnlyKey.popped_succ {m : Nat} {d e f : Device} (h : OnlyKey (d.popped 1) e) (k : OnlyKey (e.popped m) f) :
    OnlyKey (d.popped (m + 1)) f := by
  rw [← Device.popped_popped_one]
  exact (h.map (Device.popped m) (fun _ _ => rfl) rfl).trans k

/-- The accesses of `m` words of a DRAIN: each a poll of `STATUS`, a read of the window and a pop. -/
def DrainTrace (p : Params) (m : Nat) (l : List Event) : Prop :=
  l.length = 3 * m ∧
    ∀ n, n < m →
      (∃ v, l[3 * n]? = some (.rd p.off.status v)) ∧ (∃ v, l[3 * n + 1]? = some (.rd p.off.rxdata v)) ∧
      l[3 * n + 2]? = some (.wr p.off.flags p.mask.rxpop)

theorem DrainTrace.cons {p : Params} {m : Nat} {l : List Event} (h : DrainTrace p m l) (v w : Word) :
    DrainTrace p (m + 1) ([.rd p.off.status v, .rd p.off.rxdata w, .wr p.off.flags p.mask.rxpop] ++ l) := by
  obtain ⟨hlen, hat⟩ := h
  refine ⟨by simp [hlen]; omega, fun n hn => ?_⟩
  cases n with
  | zero => exact ⟨⟨v, rfl⟩, ⟨w, rfl⟩, rfl⟩
  | succ n => exact hat n (by omega)

section
variable {s : State} {j : Service} {size : Word} {i k : Nat} {out : List Byte} (hv : s.cfg.valid = true)
  (hj : s.eng.job = some j) (ht : j.todo = [])
include hv hj ht

omit hv in
/-- The pop, and the trace event after it: what is left is the next word's wait, or the response. -/
theorem drain_pop (hk : j.task = .drain size (.pop .start) out k) :
    ∃ t task, execTimes (.drain size) 2 s = .next t ∧ t.dev = (s.devWrite .flags s.cfg.mask.rxpop).dev ∧
      t.responses = s.responses ∧ taskInstr task = .drain size ∧
      (out.length < size.toNat → task = .drain size (.wait 1) out (k + 1)) ∧
      t.eng =
        { s.eng with
          hist := s.eng.hist ++ [.wr s.cfg.off.flags s.cfg.mask.rxpop]
          trace := s.eng.trace ++ [.watermark (k + 1)]
          job :=
            some
              { j with
                task := task
                todo := if out.length < size.toNat then [] else [.respond (.ok (.bytes out))] } } := by
  have hx := exec_drain_access hj ht hk
  simp only [drainStep, State.act, fieldRxpop, isRmw, Bool.false_eq_true, if_false, drainPopped] at hx
  by_cases hlt : out.length < size.toNat
  · rw [if_pos hlt] at hx
    have hx' := exec_trace
      (j := { j with task := .drain size (.wait 1) out (k + 1), todo := [.trace (.watermark (k + 1))] })
      (s := ((s.regWrite .flags s.cfg.mask.rxpop).setTask (.drain size (.wait 1) out (k + 1))).queue
        [.trace (.watermark (k + 1))]) (by simp [hj]) rfl
    refine ⟨_, .drain size (.wait 1) out (k + 1), execTimes_two hx hx', rfl, by simp, rfl, fun _ => rfl, ?_⟩
    simp [State.queue, State.traceEv, State.setTask, State.mapEng, hj, hlt, offOf]
  · rw [if_neg hlt] at hx
    have hx' := exec_trace (j := { j with todo := [.trace (.watermark (k + 1)), .respond (.ok (.bytes out))] })
      (s := (s.regWrite .flags s.cfg.mask.rxpop).queue [.trace (.watermark (k + 1)), .respond (.ok (.bytes out))])
      (by simp [hj]) rfl
    simp only [hk, taskInstr] at hx'
    refine ⟨_, j.task, execTimes_two hx hx', rfl, by simp, by rw [hk]; rfl, fun h => absurd h hlt, ?_⟩
    simp [State.queue, State.traceEv, State.mapEng, hj, hlt, offOf]

/-- One word: a poll, which finds the watermark, the read of the window, the pop and the trace event. -/
theorem drain_word (hk : j.task = .drain size (.wait i) out k) (hc : Contract s) (h4 : 4 ≤ s.dev.rxBuf.length) :
    ∃ t v w task, execTimes (.drain size) 4 s = .next t ∧ OnlyKey (s.dev.popped 1) t.dev ∧
      t.responses = s.responses ∧ taskInstr task = .drain size ∧
      ∀ out', out' = out ++ s.dev.rxBuf.take (min 4 (size.toNat - out.length)) →
        (out'.length < size.toNat → task = .drain size (.wait 1) out' (k + 1)) ∧
        t.eng =
          { s.eng with
            hist := s.eng.hist ++
              [.rd s.cfg.off.status v, .rd s.cfg.off.rxdata w, .wr s.cfg.off.flags s.cfg.mask.rxpop]
            trace := s.eng.trace ++ [.watermark (k + 1)]
            job :=
              some
                { j with
                  task := task
                  todo := if out'.length < size.toNat then [] else [.respond (.ok (.bytes out'))] } } := by
  have hx1 := exec_drain_access hj ht hk
  simp only [drainStep, poll_satisfied_eq i (rxwm_reads_set hv hc h4)] at hx1
  have hm1 := regRead_moves hj ht .status (.drain size .read out k)
  have hkey1 : OnlyKey s.dev ((s.regRead .status).2.setTask (.drain size .read out k)).dev :=
    (devRead_spec .status s).2.1
  generalize (s.regRead .status).2.setTask (.drain size .read out k) = t1 at hx1 hm1 hkey1
  have hx2 := exec_drain_access (hm1.job hj) rfl rfl
  simp only [drainStep] at hx2
  have hm2 := regRead_moves (hm1.job hj) rfl (.rxdata 0)
    (.drain size (.pop .start) (drainTake t1.cfg.rxByteOrder size out (t1.regRead (.rxdata 0)).1) k)
  obtain ⟨hbytes, -, hkey2⟩ := (rxWindowAndPop t1 (by rw [hkey1.apart.rxBuf]; exact h4)).1 (hc.key hkey1)
  have hkey2' : OnlyKey t1.dev ((t1.regRead (.rxdata 0)).2.setTask
      (.drain size (.pop .start) (drainTake t1.cfg.rxByteOrder size out (t1.regRead (.rxdata 0)).1) k)).dev := hkey2
  have hout : drainTake t1.cfg.rxByteOrder size out (t1.regRead (.rxdata 0)).1 =
      out ++ s.dev.rxBuf.take (min 4 (size.toNat - out.length)) := by
    show out ++ (rxBytes _ (t1.devRead (.rxdata 0)).1).take _ = _
    rw [hbytes, hkey1.apart.rxBuf, List.take_take]
    simp
  rw [hout] at hx2 hm2 hkey2'
  generalize (t1.regRead (.rxdata 0)).2.setTask _ = t2 at hx2 hm2 hkey2'
  have hm := hm1.trans hm2
  obtain ⟨t, task, hx3, hdev, hresp, htask, hwait, heng⟩ := drain_pop (hm.job hj) rfl rfl
  have hkey := hkey1.trans hkey2'
  have hpop := (rxWindowAndPop t2 (by rw [hkey.apart.rxBuf]; exact h4)).2 s.cfg.mask.rxpop (hc.key hkey).1
    (by rw [hm.cfg]; exact fieldSet_self (masks_ne hv).2.2.2.2.1)
  refine ⟨t, (s.regRead .status).1, (t1.regRead (.rxdata 0)).1, task,
    (execTimes_add (execTimes_two hx1 hx2)).trans hx3, ?_, hresp.trans hm.responses, htask, ?_⟩
  · rw [hdev, hm.cfg]
    exact (hkey.map (Device.popped 1) (fun _ _ => rfl) rfl).trans hpop.2
  · rintro _ rfl
    refine ⟨hwait, heng.trans ?_⟩
    rw [hm.eng, hm.cfg, hm1.cfg]
    simp [offOf]
end

/-- The words that are left, `m` of them for `r` bytes, and the response. -/
theorem drain_rest {size : Word} {m : Nat} {s : State} {j : Service} {i k r : Nat} {out : List Byte}
    (hv : s.cfg.valid = true) (hj : s.eng.job = some j) (ht : j.todo = [])
    (hk : j.task = .drain size (.wait i) out k) (hc : Contract s) (hr : size.toNat = out.length + r) (h0 : 0 < r)
    (hm : 4 * m < r + 4) (hrm : r ≤ 4 * m) (hbuf : 4 * m ≤ s.dev.rxBuf.length) :
    ∃ t l, execTimes (.drain size) (4 * m + 1) s = .next t ∧ DrainTrace s.cfg m l ∧
      OnlyKey (s.dev.popped m) t.dev ∧
      t.responses = s.responses ++ [(j.sender, .ok (.bytes (out ++ s.dev.rxBuf.take r)))] ∧
      t.eng =
        { s.eng with
          mode := j.resume
          job := none
          hist := s.eng.hist ++ l
          trace := s.eng.trace ++ (List.range m).map (fun n => .watermark (k + n + 1)) } := by
  induction m generalizing s j i k r out with
  | zero => omega
  | succ m ih =>
    obtain ⟨t, v, w, task, hx, hkey, hresp, htask, hout⟩ := drain_word hv hj ht hk hc (by omega)
    rw [show size.toNat - out.length = r by omega] at hout
    obtain ⟨hwait, heng⟩ := hout _ rfl
    have hlen : (s.dev.rxBuf.take (min 4 r)).length = min 4 r := by
      rw [List.length_take]
      omega
    simp only [List.length_append, hlen] at hwait heng
    have hcfg : t.cfg = s.cfg := (execTimes_runFrame (by simp [firstTask]) hx).cfg
    by_cases hlast : r ≤ 4
    · obtain rfl : m = 0 := by omega
      rw [if_neg (by omega), Nat.min_eq_right hlast] at heng
      have hx' := exec_respond_plain (by rw [heng]) rfl (by cases task <;> cases htask; rfl)
      simp only [htask] at hx'
      refine ⟨_, _, (execTimes_add hx).trans (execTimes_one hx'), DrainTrace.cons (l := []) ⟨rfl, by simp⟩ v w,
        hkey, by rw [← hresp], ?_⟩
      simp [heng]
    · have hlt : out.length + min 4 r < size.toNat := by omega
      rw [if_pos hlt] at heng
      obtain rfl := hwait hlt
      have hbuf' : 4 * m ≤ (s.dev.popped 1).rxBuf.length := by
        simp only [Device.popped, List.length_drop]
        omega
      obtain ⟨u, l, hx', hl, hkey', hresp', heng'⟩ := ih (r := r - 4) (by rw [hcfg]; exact hv) (by rw [heng]) rfl rfl
        (.of_key hkey hc.1 hc.2) (by simp only [List.length_append, hlen]; omega) (by omega) (by omega) (by omega)
        (by rw [hkey.apart.rxBuf]; exact hbuf')
      rw [hcfg] at hl
      refine ⟨u, _, ?_, hl.cons v w, hkey.popped_succ hkey', ?_, ?_⟩
      · rw [show 4 * (m + 1) + 1 = 4 + (4 * m + 1) by omega]
        exact (execTimes_add hx).trans hx'
      · rw [hresp', hresp, hkey.apart.rxBuf, Nat.min_eq_left (by omega), List.append_assoc, Device.popped,
          ← List.take_add, show 4 + (r - 4) = r by omega]
      · rw [heng', heng]
        simp [List.range_succ_eq_map, Function.comp_def, Nat.add_assoc, Nat.add_comm 1]

/-- Settles O33: no word, or the words one after the other. -/
theorem drainDeliversOldestBytes : Obligations.DrainDeliversOldestBytes := by
  unfold Obligations.DrainDeliversOldestBytes
  intro s size k hv hr hc hk hbuf
  have hready := exec_drain_ready hr size
  obtain ⟨hj, hm, -⟩ := hr
  suffices h : ∃ t l, execTimes (.drain size) (2 + 4 * k) s = .next t ∧ DrainTrace s.cfg k l ∧
      OnlyKey (s.dev.popped k) t.dev ∧
      t.responses = s.responses ++ [(s.eng.offer, .ok (.bytes (s.dev.rxBuf.take size.toNat)))] ∧
      t.eng =
        { s.eng with
          hist := s.eng.hist ++ l
          trace := s.eng.trace ++ (List.range k).map (fun n => .watermark (n + 1)) } by
    obtain ⟨t, l, hx, ⟨hlen, hl⟩, hkey, hresp, heng⟩ := h
    have hf := execTimes_runFrame (by simp [firstTask]) hx
    exact ⟨t, l, hx, hresp, heng, hlen, hl, hkey, hf.cfg, hf.port, hf.foreign, hf.schedule⟩
  by_cases h0 : size.toNat = 0
  · obtain rfl : k = 0 := by omega
    rw [if_pos h0] at hready
    have hx := exec_respond_plain (s := s.begin (.drain size (.wait 1) [] 0) [.respond (.ok (.bytes []))]) rfl rfl rfl
    refine ⟨_, [], execTimes_two hready hx, ⟨rfl, by simp⟩, ?_, ?_, ?_⟩
    · exact .refl _
    · simp [h0]
    · simp [State.begin, State.mapEng, hj, hm]
  · rw [if_neg h0] at hready
    obtain ⟨t, l, hx, hl, hkey, hresp, heng⟩ := drain_rest (s := s.begin (.drain size (.wait 1) [] 0) []) (m := k)
      (r := size.toNat) hv rfl rfl rfl hc (by simp) (by omega) (by omega) (by omega) hbuf
    refine ⟨t, l, ?_, hl, hkey, hresp, ?_⟩
    · rw [show 2 + 4 * k = 4 * k + 1 + 1 by omega, execTimes_succ hready]
      exact hx
    · rw [heng]
      simp [State.begin, State.mapEng, hj, hm]

/-! ### FILL -/

/-- Settles O36: the response is all that is left from acceptance on. -/
theorem fillRejectsShortData : Obligations.FillRejectsShortData := by
  unfold Obligations.FillRejectsShortData
  intro s seq addr data hr hlen
  have hx := exec_fill_ready hr seq addr data
  rw [if_pos (by simpa [txMinWords] using hlen), State.begin] at hx
  refine ⟨_, hx, fun u hu => ?_⟩
  have hend := exec_respond_plain hu rfl (boots_err _ _)
  rwa [hr.2.1] at hend

/-- The write of `ADDR` with no transaction in flight, whether or not the controller is enabled. -/
theorem devWrite_addr_idle {s : State} (hc : s.dev.clockOn = true) (hf : s.dev.inFlight = none) (v : Word) :
    OnlyKey { s.dev with addr := v } (s.devWrite .addr v).dev := by
  obtain ⟨u, -, hk, -, he⟩ := devWrite_spec hc .addr v
  rw [he, State.writeEffect, raceIfFlying_idle (hk.apart.inFlight.trans hf)]
  exact hk.map (fun d => { d with addr := v }) (fun _ _ => rfl) rfl

section
variable {s : State} {j : Service} {seq : BitVec 4} {addr : Word} {data : List Word} {n lim : Nat}
  (hv : s.cfg.valid = true) (hj : s.eng.job = some j) (ht : j.todo = []) (hc : Contract s)
  (hf : s.dev.inFlight = none)
include hv hj ht hc hf

/-- FILL's steps before its words, with the TX buffer empty: the test of `TXNE` and the write of `ADDR`. -/
theorem fill_lead (hk : j.task = .fill seq addr data .txne n lim) (hb : s.dev.txBuf = []) :
    ∃ t l, execTimes (.fill seq addr data) 2 s = .next t ∧
      Moves s t (.fill seq addr data (fillLoop n lim) n lim) [] l ∧ l.length = 2 ∧
      OnlyKey { s.dev with addr := addr } t.dev := by
  have hx := exec_fill_access hj ht hk
  simp only [fillStep, txne_reads hv hc, hb, ne_eq, not_true_eq_false, decide_false, Bool.false_eq_true, if_false] at hx
  have hm := regRead_moves hj ht .txstat (.fill seq addr data .addr n lim)
  have hkey : OnlyKey s.dev ((s.regRead .txstat).2.setTask (.fill seq addr data .addr n lim)).dev :=
    (devRead_spec .txstat s).2.1
  generalize (s.regRead .txstat).2.setTask (.fill seq addr data .addr n lim) = t at hx hm hkey
  have hx' := exec_fill_access (hm.job hj) rfl rfl
  have hm' := regWrite_moves (hm.job hj) rfl .addr addr (.fill seq addr data (fillLoop n lim) n lim)
  refine ⟨_, _, execTimes_two hx hx', hm.trans hm', rfl, ?_⟩
  exact (hkey.map (fun d => { d with addr := addr }) (fun _ _ => rfl) rfl).trans
    (devWrite_addr_idle (hc.key hkey).1 (hkey.apart.inFlight.trans hf) addr)

/-- One word of FILL, into a buffer with room: a poll, which finds `TXFULL` clear, and the write. -/
theorem fill_word (ha : StatusApart s.cfg) {i : Nat} (hk : j.task = .fill seq addr data (.wait i) n lim)
    (hroom : s.dev.txBuf.length < s.cfg.txCapacity) :
    ∃ t l, execTimes (.fill seq addr data) 2 s = .next t ∧
      Moves s t (.fill seq addr data (fillLoop (n + 1) lim) (n + 1) lim) [] l ∧ l.length = 2 ∧
      OnlyKey { s.dev with txBuf := s.dev.txBuf ++ [data.getD n 0] } t.dev := by
  have hclear : (!fieldSet s.cfg.mask.txfull (s.regRead .status).1) = true := by
    simpa [txfull_reads hv hc ha] using hroom
  have hx := exec_fill_access hj ht hk
  simp only [fillStep, poll_satisfied_eq (ok := fun v => !fieldSet s.cfg.mask.txfull v) i hclear] at hx
  have hm := regRead_moves hj ht .status (.fill seq addr data .word n lim)
  have hkey : OnlyKey s.dev ((s.regRead .status).2.setTask (.fill seq addr data .word n lim)).dev :=
    (devRead_spec .status s).2.1
  generalize (s.regRead .status).2.setTask (.fill seq addr data .word n lim) = t at hx hm hkey
  have hx' := exec_fill_access (hm.job hj) rfl rfl
  have hm' := regWrite_moves (hm.job hj) rfl .txdata (data.getD n 0)
    (.fill seq addr data (fillLoop (n + 1) lim) (n + 1) lim)
  have hwrite := ((bufferWritesAndClears t (data.getD n 0) (hc.key hkey).1).1 (hkey.apart.inFlight.trans hf)
    (by rw [hkey.apart.txBuf, hm.cfg]; exact hroom)).2
  refine ⟨_, _, execTimes_two hx hx', hm.trans hm', rfl, ?_⟩
  exact (hkey.map (fun d => { d with txBuf := d.txBuf ++ [data.getD n 0] }) (fun _ _ => rfl) rfl).trans hwrite
end

/-- The words that are left, `m` of them. -/
theorem fill_words {seq : BitVec 4} {addr : Word} {data : List Word} {lim m : Nat} {s : State} {j : Service} {n : Nat}
    (hv : s.cfg.valid = true) (hj : s.eng.job = some j) (ht : j.todo = []) (hc : Contract s)
    (hf : s.dev.inFlight = none) (ha : StatusApart s.cfg) (hk : j.task = .fill seq addr data (fillLoop n lim) n lim)
    (hn : n + m = lim) (hdata : lim ≤ data.length) (hcap : lim ≤ s.cfg.txCapacity) (hb : s.dev.txBuf = data.take n) :
    ∃ t l, execTimes (.fill seq addr data) (2 * m) s = .next t ∧
      Moves s t (.fill seq addr data (.issue (.waitIdle 1)) lim lim) [] l ∧ l.length = 2 * m ∧
      OnlyKey { s.dev with txBuf := data.take lim } t.dev := by
  induction m generalizing s j n with
  | zero =>
    obtain rfl : n = lim := by omega
    rw [fillLoop, if_neg (Nat.lt_irrefl n)] at hk
    refine ⟨s, [], rfl, hk ▸ .refl hj ht, rfl, ?_⟩
    rw [← hb]
    exact .refl _
  | succ m ih =>
    rw [fillLoop, if_pos (by omega)] at hk
    have hlen : (data.take n).length = n := by
      rw [List.length_take]
      omega
    obtain ⟨t, l, hx, hm, hl, hkey⟩ := fill_word hv hj ht hc hf ha hk (by rw [hb, hlen]; omega)
    have hword : data.take n ++ [data.getD n 0] = data.take (n + 1) := by
      rw [List.getD_eq_getElem _ _ (by omega), List.take_succ_eq_append_getElem]
    rw [hb, hword] at hkey
    obtain ⟨u, l', hx', hm', hl', hkey'⟩ := ih (n := n + 1) (by rw [hm.cfg]; exact hv) (hm.job hj) rfl
      (.of_key hkey hc.1 hc.2) (hkey.apart.inFlight.trans hf) (by rw [hm.cfg]; exact ha) rfl (by omega)
      (by rw [hm.cfg]; exact hcap) hkey.apart.txBuf
    refine ⟨u, l ++ l', ?_, hm.trans hm', by rw [List.length_append, hl, hl']; omega, ?_⟩
    · rw [show 2 * (m + 1) = 2 + 2 * m by omega]
      exact (execTimes_add hx).trans hx'
    · exact (hkey.map (fun d => { d with txBuf := data.take lim }) (fun _ _ => rfl) rfl).trans hkey'

/-- Settles O37: acceptance, the two accesses before the words, and the words. -/
theorem fillLoadsTxBuffer : Obligations.FillLoadsTxBuffer := by
  unfold Obligations.FillLoadsTxBuffer
  intro s seq addr data lim hv hr hc ha hf hb h4 hlim
  have hready := exec_fill_ready hr seq addr data
  rw [if_neg (by simpa [txMinWords] using h4), show fillLimit s.cfg data = lim from hlim.symm] at hready
  have hj0 : (s.begin (.fill seq addr data .txne 0 lim) []).eng.job = some
      { sender := s.eng.offer, resume := .idle, task := .fill seq addr data .txne 0 lim, todo := [] } := by
    rw [begin_job, hr.2.1]
  obtain ⟨t, l, hx, hm, hl, hkey⟩ := fill_lead (s := s.begin _ _) hv hj0 rfl hc hf rfl hb
  obtain ⟨u, l', hx', hm', hl', hkey'⟩ := fill_words (m := lim) (by rw [hm.cfg]; exact hv) (hm.job hj0) rfl
    (.of_key hkey hc.1 hc.2) (hkey.apart.inFlight.trans hf) (by rw [hm.cfg]; exact ha) rfl (by omega) (by omega)
    (by rw [hm.cfg]; show lim ≤ s.cfg.txCapacity; omega) (hkey.apart.txBuf.trans hb)
  have hall := hm.trans hm'
  refine ⟨u, ?_, hall.job hj0, ?_, hall.responses, ?_, ?_, ?_⟩
  · rw [show 3 + 2 * lim = 2 + 2 * lim + 1 by omega, execTimes_succ hready]
    exact (execTimes_add hx).trans hx'
  · exact (hkey.map (fun d => { d with txBuf := data.take lim }) (fun _ _ => rfl) rfl).trans hkey'
  · rw [hall.eng]
    rfl
  · rw [hall.eng]
    rfl
  · rw [hall.eng]
    simp [hl, hl']
    omega

end Sys2Proof.Machine
end

section
/-! ## Every request ends within its bounds (43_transaction_engine.md R156)

Each rule's step lowers its own bound (`issueStep_lowers`, `drainStep_advances` …); with the request's internal actions
counted, that is the bound on engine steps. -/

namespace Sys2Proof.Machine

/-! ### What one poll and one step of an action leave -/

theorem pollsLeft_pos {p : Params} {i : Nat} (h : pollOk p i) : 0 < pollsLeft p i := by
  obtain ⟨-, hi⟩ := h
  unfold pollsLeft
  omega

theorem pollsLeft_one (p : Params) : pollsLeft p 1 = p.waitLimit := Nat.add_sub_cancel _ _

theorem poll_lowers {r : Role} {ok : Word → Bool} {i k : Nat} {s : State} (hi : pollOk s.cfg i)
    (h : (s.poll r ok i).1 = .again k) : pollsLeft s.cfg k < pollsLeft s.cfg i := by
  obtain ⟨-, hle⟩ := hi
  simp only [State.poll] at h
  split_ifs at h
  cases h
  unfold pollsLeft
  omega

theorem rmwLeft_pos (a : ActPos) : 0 < rmwLeft a := by
  cases a with
  | start => exact Nat.two_pos
  | write => exact Nat.one_pos

theorem rmw_lowers {r : Role} {f : Word → Word} {a b : ActPos} {s : State} (h : (s.rmw r f a).1 = some b) :
    rmwLeft b < rmwLeft a := by
  cases a <;> cases h
  exact Nat.one_lt_two

/-- A field costs two accesses exactly in a register that is read before it is written (20_memory.md R64). -/
theorem actCost_eq (F : Field) : actCost F = if isRmw F.role then 2 else 1 := by
  unfold actCost
  cases F.role <;> rfl

theorem actLeft_start (F : Field) : actLeft F .start = actCost F := rfl

theorem actLeft_pos (F : Field) (a : ActPos) : 0 < actLeft F a := by
  cases a with
  | start =>
    rw [actLeft_start, actCost_eq]
    split <;> decide
  | write => exact Nat.one_pos

theorem act_lowers {F : Field} {a b : ActPos} {s : State} (h : (s.act F a).1 = some b) :
    actLeft F b < actLeft F a := by
  unfold State.act at h
  split at h
  · next hr =>
    cases a <;> cases h
    rw [actLeft, actLeft, actCost_eq, if_pos hr]
    exact Nat.one_lt_two
  · cases h

/-! ### ISSUE's rule -/

/-- The bound of ISSUE's rule goes down from `pos`, where the rule goes on. -/
def IssueLowers (p : Params) (pos : IssuePos) : IssueNext → Prop
  | .at q l => issueLeft p q < issueLeft p pos ∧ l.length ≤ 1
  | .done | .fail _ => True

theorem issueLeft_pos {p : Params} {pos : IssuePos} (h : issuePosOk p pos) : 0 < issueLeft p pos := by
  cases pos with
  | waitDone i => exact pollsLeft_pos h
  | waitIdle | addr | rxPtr | seqPtr | command => simp only [issueLeft]; omega

theorem issueStep_lowers (seq : BitVec 4) (addr : Word) (size : Half) {pos : IssuePos} {s : State}
    (hp : issuePosOk s.cfg pos) : IssueLowers s.cfg pos (issueStep seq addr size pos s).1 := by
  cases pos with
  | waitIdle i =>
    have hpos := pollsLeft_pos hp
    simp only [issueStep]
    split
    · exact ⟨by simp only [issueLeft]; omega, by decide⟩
    · next k hk =>
      have hlt := poll_lowers hp hk
      exact ⟨by simp only [issueLeft]; omega, by decide⟩
    · trivial
  | addr => exact ⟨by simp only [issueLeft, actLeft_start]; omega, by decide⟩
  | rxPtr a =>
    have hpos := actLeft_pos (fieldRxptrClr s.cfg) a
    simp only [issueStep]
    split
    · next b hb =>
      have hlt := act_lowers hb
      exact ⟨by simp only [issueLeft]; omega, by decide⟩
    · exact ⟨by simp only [issueLeft, actLeft_start]; omega, by decide⟩
  | seqPtr a =>
    have hpos := actLeft_pos (fieldSeqptrClr s.cfg) a
    simp only [issueStep]
    split
    · next b hb =>
      have hlt := act_lowers hb
      exact ⟨by simp only [issueLeft]; omega, by decide⟩
    · exact ⟨by simp only [issueLeft]; omega, by decide⟩
  | command => exact ⟨by simp only [issueLeft, pollsLeft_one]; omega, Nat.le_refl 1⟩
  | waitDone i =>
    simp only [issueStep]
    split
    · trivial
    · next k hk => exact ⟨poll_lowers hp hk, by decide⟩
    · trivial

/-! ### One access step of a request -/

/-- `t` is `s` after an access of `j`, which INIT's platform calls and hold are not. -/
structure Accessed (s : State) (j : Service) (t : State) : Prop where
  job : t.eng.job = some j
  hist : (∀ pos, j.task ≠ .init pos) → t.eng.hist.length = s.eng.hist.length + 1

/-- `t` is `s` after an access of `j` that lowers its access bound: it goes on, or is left with its response (R156). -/
structure Advances (s : State) (j : Service) (t : State) : Prop where
  bound : ∃ k l, t.eng.job = some { j with task := k, todo := l } ∧ l.length ≤ 2 ∧
    accessesLeft s.cfg { j with task := k, todo := l } < taskLeft s.cfg j.task
  hist : (∀ pos, j.task ≠ .init pos) → t.eng.hist.length = s.eng.hist.length + 1

theorem accessesLeft_le (p : Params) (j : Service) : accessesLeft p j ≤ taskLeft p j.task := by
  unfold accessesLeft
  split
  · exact Nat.zero_le _
  · exact Nat.le_refl _

section
variable {s t : State} {j : Service}

theorem Accessed.read (hj : s.eng.job = some j) (r : Role) : Accessed s j (s.regRead r).2 :=
  ⟨by simp [hj], fun _ => by simp⟩

theorem Accessed.write (hj : s.eng.job = some j) (r : Role) (v : Word) : Accessed s j (s.regWrite r v) :=
  ⟨by simp [hj], fun _ => by simp⟩

theorem Accessed.rmw (hj : s.eng.job = some j) (r : Role) (f : Word → Word) (a : ActPos) :
    Accessed s j (s.rmw r f a).2 := by
  cases a with
  | start => exact .read hj r
  | write v => exact .write hj r (f v)

theorem Accessed.act (hj : s.eng.job = some j) (F : Field) (a : ActPos) : Accessed s j (s.act F a).2 := by
  unfold State.act
  split
  · exact .rmw hj _ _ a
  · exact .write hj _ _

theorem Accessed.issueStep (hj : s.eng.job = some j) (seq : BitVec 4) (addr : Word) (size : Half) (pos : IssuePos) :
    Accessed s j (issueStep seq addr size pos s).2 := by
  cases pos <;> simp only [Machine.issueStep]
  case waitIdle | waitDone => split <;> exact .read hj .status
  case addr | command => exact .write hj _ _
  case rxPtr a | seqPtr a => split <;> exact .act hj _ a

/-- INIT's steps that are no access. -/
theorem Accessed.ofInit {pos : InitPos} (ht : t.eng.job = some j) (hk : j.task = .init pos) : Accessed s j t :=
  ⟨ht, fun h => absurd hk (h pos)⟩

variable (h : Accessed s j t)
include h

/-- The request goes on at `k`, and the internal actions `l` come first. -/
theorem Advances.queued {k : Task} {l : List Internal} (hk : taskLeft s.cfg k < taskLeft s.cfg j.task)
    (hl : l.length ≤ 2) : Advances s j ((t.setTask k).queue l) :=
  ⟨⟨k, l, by simp [h.job], hl, Nat.lt_of_le_of_lt (accessesLeft_le _ _) hk⟩, h.hist⟩

/-- The request goes on at `k`. -/
theorem Advances.goOn (ht : j.todo = []) {k : Task} (hk : taskLeft s.cfg k < taskLeft s.cfg j.task) :
    Advances s j (t.setTask k) :=
  ⟨⟨k, [], by simp [h.job, ← ht], by decide, Nat.lt_of_le_of_lt (accessesLeft_le _ _) hk⟩, h.hist⟩

/-- The response is all that is left. -/
theorem Advances.last {l : List Internal} (ha : answering l = true) (hl : l.length ≤ 2)
    (h0 : 0 < taskLeft s.cfg j.task) : Advances s j (t.queue l) :=
  ⟨⟨j.task, l, by simp [h.job], hl, by rwa [accessesLeft, if_pos ha]⟩, h.hist⟩
end

/-! ### The rules -/

/-- A watermark that is not the last leaves one less after it. -/
theorem eventsAfter_succ {size : Word} {k : Nat} (h : 4 * (k + 1) < size.toNat) :
    eventsAfter size k = eventsAfter size (k + 1) + 1 := by
  unfold eventsAfter
  omega

section
variable {s : State} {j : Service} (hj : s.eng.job = some j) (ht : j.todo = [])
include hj ht

theorem writeSeqStep_advances {index : BitVec 4} {words : Vector Word 4} {pos : WriteSeqPos}
    (hk : j.task = .writeSeq index words pos) : Advances s j (writeSeqStep index words pos s) := by
  cases pos with
  | key1 | unlock | key2 => exact .goOn (.write hj _ _) ht (by rw [hk]; simp [taskLeft, writeSeqLeft])
  | word k =>
    refine .goOn (.write hj _ _) ht ?_
    rw [hk]
    simp only [taskLeft]
    split <;> simp only [writeSeqLeft] <;> omega
  | lock => exact .last (.write hj _ _) rfl (Nat.le_refl 2) (by rw [hk]; exact Nat.one_pos)

omit ht in
theorem issueServe_advances {seq : BitVec 4} {addr : Word} {size : Half} {pos : IssuePos}
    (hk : j.task = .issue seq addr size pos) (ho : issuePosOk s.cfg pos) :
    Advances s j (issueServe seq addr size pos s) := by
  have ha := Accessed.issueStep hj seq addr size pos
  have hlt := issueStep_lowers seq addr size ho
  have h0 : 0 < taskLeft s.cfg j.task := by rw [hk]; exact issueLeft_pos ho
  unfold issueServe
  dsimp only
  split
  · next q l hq =>
    rw [hq] at hlt
    exact .queued ha (by rw [hk]; exact hlt.1) (Nat.le_succ_of_le hlt.2)
  · exact .last ha rfl (Nat.le_refl 2) h0
  · exact .last ha rfl one_le_two h0

theorem drainStep_advances {size : Word} {pos : DrainPos} {out : List Byte} {k : Nat}
    (hk : j.task = .drain size pos out k) (ho : taskOk s.cfg j.task) : Advances s j (drainStep size pos out k s) := by
  rw [hk] at ho
  cases pos with
  | wait i =>
    obtain ⟨hi, -⟩ := ho
    have hpos := pollsLeft_pos hi
    have ha := Accessed.read hj .status
    simp only [drainStep]
    split
    · exact .goOn ha ht (by rw [hk]; simp only [taskLeft, drainLeft]; omega)
    · next q hq =>
      have hlt := poll_lowers hi hq
      exact .goOn ha ht (by rw [hk]; simp only [taskLeft, drainLeft]; omega)
    · exact .last ha rfl (by decide) (by rw [hk]; simp only [taskLeft, drainLeft]; omega)
  | read => exact .goOn (.read hj _) ht (by rw [hk]; simp only [taskLeft, drainLeft, actLeft_start]; omega)
  | pop a =>
    obtain ⟨hlen, -⟩ := ho
    have ha := Accessed.act hj (fieldRxpop s.cfg) a
    have hpos := actLeft_pos (fieldRxpop s.cfg) a
    simp only [drainStep]
    split
    · next b hb =>
      have hlt := act_lowers hb
      exact .goOn ha ht (by rw [hk]; simp only [taskLeft, drainLeft]; omega)
    · unfold drainPopped
      split
      · have hev := eventsAfter_succ (size := size) (k := k) (by omega)
        refine .queued ha ?_ one_le_two
        rw [hk]
        simp only [taskLeft, drainLeft, hev, pollsLeft_one, Nat.add_one_mul]
        omega
      · exact .last ha rfl (Nat.le_refl 2) (by rw [hk]; simp only [taskLeft, drainLeft]; omega)
end

/-- FILL's bound where its loop goes on: the words left, and the inner ISSUE. -/
theorem fillLeft_fillLoop (p : Params) {n lim : Nat} (h : n ≤ lim) :
    fillLeft p n lim (fillLoop n lim) = (lim - n) * (p.waitLimit + 1) + issueLeft p (.waitIdle 1) := by
  unfold fillLoop
  split
  · next hlt =>
    rw [show lim - n = lim - (n + 1) + 1 by omega, Nat.add_one_mul]
    simp only [fillLeft, pollsLeft_one]
    omega
  · rw [show lim - n = 0 by omega, Nat.zero_mul, Nat.zero_add, fillLeft]

section
variable {s : State} {j : Service} (hj : s.eng.job = some j) (ht : j.todo = [])
include hj ht

theorem fillStep_advances {seq : BitVec 4} {addr : Word} {data : List Word} {pos : FillPos} {n lim : Nat}
    (hk : j.task = .fill seq addr data pos n lim) (ho : taskOk s.cfg j.task) :
    Advances s j (fillStep seq addr data pos n lim s) := by
  rw [hk] at ho
  obtain ⟨-, -, hpos⟩ := ho
  cases pos with
  | txne =>
    refine .goOn (.read hj .txstat) ht ?_
    rw [hk]
    simp only [taskLeft]
    split <;> simp only [fillLeft, actLeft_start] <;> omega
  | clear a =>
    have ha := Accessed.act hj (fieldClrTxf s.cfg) a
    have hpos := actLeft_pos (fieldClrTxf s.cfg) a
    simp only [fillStep]
    split
    · next b hb =>
      have hlt := act_lowers hb
      exact .goOn ha ht (by rw [hk]; simp only [taskLeft, fillLeft]; omega)
    · exact .goOn ha ht (by rw [hk]; simp only [taskLeft, fillLeft]; omega)
  | addr =>
    obtain rfl := hpos
    refine .goOn (.write hj _ _) ht ?_
    rw [hk]
    rw [taskLeft, taskLeft, fillLeft_fillLoop _ (Nat.zero_le lim), fillLeft, Nat.sub_zero]
    omega
  | wait i =>
    obtain ⟨hi, -⟩ := hpos
    have hpos := pollsLeft_pos hi
    have ha := Accessed.read hj .status
    simp only [fillStep]
    split
    · exact .goOn ha ht (by rw [hk]; simp only [taskLeft, fillLeft]; omega)
    · next q hq =>
      have hlt := poll_lowers hi hq
      exact .goOn ha ht (by rw [hk]; simp only [taskLeft, fillLeft]; omega)
    · exact .last ha rfl (by decide) (by rw [hk]; simp only [taskLeft, fillLeft]; omega)
  | word =>
    refine .goOn (.write hj _ _) ht ?_
    rw [hk]
    rw [taskLeft, taskLeft, fillLeft_fillLoop _ (n := n + 1) hpos, fillLeft]
    omega
  | issue q =>
    obtain ⟨hq, -⟩ := hpos
    have ha := Accessed.issueStep hj seq addr (fillSize n) q
    have hlt := issueStep_lowers seq addr (fillSize n) hq
    have h0 : 0 < taskLeft s.cfg j.task := by rw [hk]; exact issueLeft_pos hq
    simp only [fillStep]
    split
    · next r l hr =>
      rw [hr] at hlt
      exact .queued ha (by rw [hk]; exact hlt.1) (Nat.le_succ_of_le hlt.2)
    · exact .last ha rfl (Nat.le_refl 2) h0
    · exact .last ha rfl one_le_two h0

/-- A read-modify-write of INIT, with `c` accesses after it. -/
theorem initRmw_advances {pos : InitPos} (hk : j.task = .init pos) {r : Role} {f : Word → Word} {a : ActPos}
    {stay : ActPos → InitPos} {nxt : InitPos} {c : Nat} (hstay : ∀ b, initLeft (stay b) = c + rmwLeft b)
    (hpos : initLeft pos = c + rmwLeft a) (hnxt : initLeft nxt ≤ c) : Advances s j (initRmw r f a stay nxt s) := by
  have ha := Accessed.rmw hj r f a
  unfold initRmw
  dsimp only
  split
  · next b hb =>
    have hlt := rmw_lowers hb
    exact .goOn ha ht (by rw [hk]; simp only [taskLeft, hstay, hpos]; omega)
  · have h0 := rmwLeft_pos a
    exact .goOn ha ht (by rw [hk]; simp only [taskLeft, hpos]; omega)

theorem initStep_advances {pos : InitPos} (hk : j.task = .init pos) : Advances s j (initStep pos s) := by
  have hinit : ∀ t : State, t.eng.job = some j → Accessed s j t := fun t htj => .ofInit htj hk
  have hdraw : s.draw.2.eng.job = some j := by rw [draw_eng]; exact hj
  cases pos <;> simp only [initStep]
  case map =>
    split
    · exact .goOn (hinit _ hdraw) ht (by rw [hk]; simp [taskLeft, initLeft, rmwLeft])
    · exact .last (hinit _ hdraw) rfl one_le_two (by rw [hk]; simp [taskLeft, initLeft])
  case hold => exact .goOn (hinit s hj) ht (by rw [hk]; simp [taskLeft, initLeft, rmwLeft])
  case clock =>
    split
    · exact .goOn (hinit (s.draw.2.mapDev _) hdraw) ht (by rw [hk]; simp [taskLeft, initLeft, rmwLeft])
    · exact .last (hinit _ hdraw) rfl one_le_two (by rw [hk]; simp [taskLeft, initLeft])
  case timing => exact .last (.write hj _ _) rfl one_le_two (by rw [hk]; simp [taskLeft, initLeft])
  case disable | resetSet | resetClear | enable | clearBuffers | watermark =>
    exact initRmw_advances hj ht hk (fun _ => rfl) rfl (by decide)

theorem taskStep_advances (ho : taskOk s.cfg j.task) : Advances s j (taskStep j.task s) := by
  cases hk : j.task with
  | writeSeq index words pos => exact writeSeqStep_advances hj ht hk
  | issue seq addr size pos =>
    rw [hk] at ho
    exact issueServe_advances hj hk ho
  | drain size pos out k => exact drainStep_advances hj ht hk ho
  | fill seq addr data pos n lim => exact fillStep_advances hj ht hk ho
  | init pos => exact initStep_advances hj ht hk
end

/-! ### Every step -/

/-- A trace event leaves the accesses as they are, and one internal action less. -/
theorem stepsLeft_trace {p : Params} {j : Service} {ev : TraceEvent} {rest : List Internal}
    (ht : j.todo = .trace ev :: rest) : stepsLeft p { j with todo := rest } < stepsLeft p j := by
  have h : accessesLeft p { j with todo := rest } = accessesLeft p j := by simp [accessesLeft, ht, answering]
  rw [stepsLeft, stepsLeft, h, ht]
  exact Nat.lt_succ_self _

/-- R156's bounds, at acceptance. -/
theorem taskLeft_drain_start (p : Params) {size : Word} (h : 0 < size.toNat) :
    taskLeft p (.drain size (.wait 1) [] 0) = (size.toNat + 3) / 4 * (p.waitLimit + 1 + actCost (fieldRxpop p)) := by
  have hev : (size.toNat + 3) / 4 = eventsAfter size 0 + 1 := by
    unfold eventsAfter
    omega
  rw [hev, Nat.add_one_mul]
  simp only [taskLeft, drainLeft, pollsLeft_one, Nat.add_assoc]

theorem issueLeft_start (p : Params) : issueLeft p (.waitIdle 1) =
    2 * p.waitLimit + 2 + actCost (fieldRxptrClr p) + actCost (fieldSeqptrClr p) := by
  simp only [issueLeft, pollsLeft_one]
  omega

/-- Settles O52: an access lowers its rule's bound, and an internal action is one of at most two after it. -/
theorem requestsEndWithinBounds : Obligations.RequestsEndWithinBounds := by
  unfold Obligations.RequestsEndWithinBounds
  refine ⟨fun s t j hv hl hj hx => ?_, fun p index words addr size sz data lim => ?_⟩
  · cases ht : j.todo with
    | nil =>
      have hacc : accessesLeft s.cfg j = taskLeft s.cfg j.task := by simp [accessesLeft, ht, answering]
      obtain ⟨hranges, -⟩ := (localsInv_iff s).mp hl j hj
      obtain ⟨⟨k, l, hjob, hlen, hlt⟩, hhist⟩ := taskStep_advances hj ht (hranges (by rw [ht]; rfl))
      rw [exec_access hj ht] at hx
      cases hx
      rw [← hacc] at hlt
      refine ⟨.inr ⟨_, hjob, ?_⟩, fun _ => ⟨⟨k, l, hjob, hlt⟩, hhist⟩, fun h => absurd rfl h⟩
      simp only [stepsLeft]
      omega
    | cons a rest =>
      cases a with
      | trace ev =>
        rw [exec_trace hj ht] at hx
        cases hx
        have hjob : ((s.traceEv ev).queue rest).eng.job = some { j with todo := rest } := by simp [hj]
        refine ⟨.inr ⟨_, hjob, stepsLeft_trace ht⟩, by simp, fun _ => ⟨by simp, fun k hk => ?_⟩⟩
        rw [hjob] at hk
        cases hk
        rfl
      | respond r =>
        rw [exec_respond hj ht] at hx
        cases hx
        exact ⟨.inl rfl, by simp, fun _ => ⟨rfl, fun k hk => by cases hk⟩⟩
  · refine ⟨rfl, issueLeft_start p, taskLeft_drain_start p, ?_⟩
    simp only [taskLeft, fillLeft, issueLeft_start]

end Sys2Proof.Machine
end

section
/-! ## Refusals and errors (60_exceptions.md R192 to R196; 70_reset_and_hazards.md R222) -/

namespace Sys2Proof.Machine

/-! ### Refusals -/

/-- With no request in service, the port's refusal of a request that needs INIT is its outcome (R222). -/
theorem exec_refused_of_admission {i : Instr} {s : State} {r : Refusal} (hj : s.eng.job = none)
    (hr : s.admission true = .refused r)
    (hi : (∃ k, firstTask s.cfg i = some k ∧ i ≠ .init) ∨ (∃ who, i = .acquire who) ∨ ∃ who, i = .release who) :
    exec i s = .refused r := by
  obtain ⟨k, hk, hne⟩ | ⟨who, rfl⟩ | ⟨who, rfl⟩ := hi
  · cases i
    case writeSeq | issue | drain | fill =>
      simp only [exec, execWriteSeq, execIssue, execDrain, execFill, hj, hr]
    case init => exact absurd rfl hne
    all_goals cases hk
  · exact (exec_lock_refused who hr).1
  · exact (exec_lock_refused who hr).2

theorem exec_init_idle {s : State} (hj : s.eng.job = none) (hm : s.eng.mode = .idle)
    (ho : ownerAllows s.eng.owner s.eng.offer = true) : exec .init s = .refused .alreadyInitialised := by
  simp [exec, execInit, hj, admission_idle hm ho, hm]

/-- Settles O43: the port's admission refuses in Uninit; in Idle it accepts, and the request's own rule refuses. -/
theorem requestsAreRefused : Obligations.RequestsAreRefused := by
  unfold Obligations.RequestsAreRefused
  refine fun s _ hj ho => ⟨fun hm index words addr size sz data who i hi => ?_, fun hm => exec_init_idle hj hm ho,
    fun hown hm who => exec_acquire_owned who (admission_idle hm ho true) (by simp [hown]), fun hm who hne => ?_⟩
  · refine exec_refused_of_admission hj (admission_uninit hm ho) ?_
    simp only [List.mem_cons, List.not_mem_nil, or_false] at hi
    rcases hi with rfl | rfl | rfl | rfl | rfl | rfl <;> simp [firstTask]
  · rw [exec_release_accepted who (admission_idle hm ho true), if_neg hne]

/-! ### Errors -/

/-- An error response is what the request in service had next: no acceptance, no access and no operation of the device
gives one (R193). -/
theorem exec_gives_error {i : Instr} {s t : State} {who : Requester} {e : ErrorKind} (hx : exec i s = .next t)
    (hr : t.responses = s.responses ++ [(who, .err e)]) :
    ∃ j l, s.eng.job = some j ∧ j.todo = .respond (.err e) :: l ∧ i = taskInstr j.task ∧ who = j.sender := by
  have hne : t.responses ≠ s.responses := by simp [hr]
  obtain rfl | ⟨-, hd⟩ | ⟨j, hj, hk, hs⟩ | ⟨-, ha⟩ := exec_cases hx
  · exact absurd rfl hne
  · exact absurd hd.responses hne
  · obtain ⟨-, hacc⟩ | ⟨ev, l, -, rfl⟩ | ⟨r, l, htodo, rfl⟩ := hs.goes j hj
    · exact absurd hacc.responses hne
    · exact absurd rfl hne
    · rw [finish_of_job r s hj] at hr
      obtain ⟨rfl, rfl⟩ : j.sender = who ∧ r = .err e := by simpa using hr
      exact ⟨j, l, hj, htodo, hk.symm, rfl⟩
  · obtain ⟨_, -, -, -, -, -, -, hsame⟩ | ⟨-, -, -, -, x, hok⟩ := ha.goes
    · exact absurd hsame hne
    · rw [hok] at hr
      simp at hr

/-- Settles O51: an error ends no INIT with `Ok`, so its response leaves the device as it was. -/
theorem errorEndsRequest : Obligations.ErrorEndsRequest := by
  unfold Obligations.ErrorEndsRequest
  exact ⟨fun s j e l hj ht => exec_respond_plain hj ht (boots_err j e), fun s t i who e => exec_gives_error⟩

/-- No request faults: only the write of an agent outside the block does (log 21). -/
theorem exec_request_ne_fault {i : Instr} (hi : deviceInstr i = false) (s : State) (f : Fault) :
    exec i s ≠ .fault f := by
  intro hf
  cases i
  case encode | decode | writeSeq | issue | drain | fill | acquire | release | init =>
    simp only [exec, execEncode, execDecode, execWriteSeq, execIssue, execDrain, execFill, execAcquire, execRelease,
      execInit] at hf
    repeat' split at hf
    all_goals cases hf
  all_goals cases hi

/-- Settles O50: of these requests only WRITE_SEQ is ever in service, and the one response it has is `Ok`. -/
theorem noErrorFromTheseRequests : Obligations.NoErrorFromTheseRequests := by
  unfold Obligations.NoErrorFromTheseRequests
  intro s t i hl hi
  have hdev : deviceInstr i = false := by
    rcases hi with ⟨_, _, rfl⟩ | ⟨_, rfl⟩ | ⟨_, _, rfl⟩ | ⟨_, rfl⟩ | ⟨_, rfl⟩ <;> rfl
  refine ⟨exec_request_ne_fault hdev s, fun hx who e hr => ?_⟩
  obtain ⟨j, l, hj, htodo, rfl, -⟩ := exec_gives_error hx hr
  have hreply : replyOk s.cfg j.task (.err e) := (((localsInv_iff s).mp hl) j hj).reply _ (by simp [htodo])
  cases hk : j.task with
  | writeSeq => simp [hk, replyOk] at hreply
  | issue | drain | fill | init => simp [hk, taskInstr] at hi

end Sys2Proof.Machine
end

section
/-! ## No rule reads the access history or the trace (60_exceptions.md R200; 10_state.md R23)

Every operation of the model commutes with entries put before the history and the trace (`State.prepend`): it appends
what it appends whatever stands before. The lemmas `*_prepend` say so, one per operation, each moving `prepend` to the
outside; `step_prepend` is their sum. -/

namespace Sys2Proof.Machine

/-- `s` with `h` and `tr` before its history and its trace. -/
def State.prepend (h : List Event) (tr : List TraceEvent) (s : State) : State :=
  s.mapEng (fun g => { g with hist := h ++ g.hist, trace := tr ++ g.trace })

section
variable (h : List Event) (tr : List TraceEvent) (s : State)

/-! ### The state's fields and updates -/

@[simp] theorem prepend_cfg : (s.prepend h tr).cfg = s.cfg := rfl
@[simp] theorem prepend_dev : (s.prepend h tr).dev = s.dev := rfl
@[simp] theorem prepend_port : (s.prepend h tr).port = s.port := rfl
@[simp] theorem prepend_foreign : (s.prepend h tr).foreign = s.foreign := rfl
@[simp] theorem prepend_mode : (s.prepend h tr).eng.mode = s.eng.mode := rfl
@[simp] theorem prepend_owner : (s.prepend h tr).eng.owner = s.eng.owner := rfl
@[simp] theorem prepend_offer : (s.prepend h tr).eng.offer = s.eng.offer := rfl
@[simp] theorem prepend_job : (s.prepend h tr).eng.job = s.eng.job := rfl
@[simp] theorem prepend_hist : (s.prepend h tr).eng.hist = h ++ s.eng.hist := rfl
@[simp] theorem prepend_trace : (s.prepend h tr).eng.trace = tr ++ s.eng.trace := rfl

@[simp] theorem mapDev_prepend (f : Device → Device) : (s.prepend h tr).mapDev f = (s.mapDev f).prepend h tr := rfl
@[simp] theorem setTask_prepend (k : Task) : (s.prepend h tr).setTask k = (s.setTask k).prepend h tr := rfl
@[simp] theorem queue_prepend (l : List Internal) : (s.prepend h tr).queue l = (s.queue l).prepend h tr := rfl
@[simp] theorem raise_prepend (e : ErrorKind) : (s.prepend h tr).raise e = (s.raise e).prepend h tr := rfl
@[simp] theorem begin_prepend (k : Task) (l : List Internal) :
    (s.prepend h tr).begin k l = (s.begin k l).prepend h tr := rfl
@[simp] theorem replyNow_prepend (r : Response) : (s.prepend h tr).replyNow r = (s.replyNow r).prepend h tr := rfl
@[simp] theorem take_prepend (m : Posted) : (s.prepend h tr).take m = (s.take m).prepend h tr := rfl

@[simp] theorem log_prepend (e : Event) : (s.prepend h tr).log e = (s.log e).prepend h tr := by
  simp [State.log, State.prepend, State.mapEng]

@[simp] theorem traceEv_prepend (v : TraceEvent) : (s.prepend h tr).traceEv v = (s.traceEv v).prepend h tr := by
  simp [State.traceEv, State.prepend, State.mapEng]

@[simp] theorem ite_prepend (c : Prop) [Decidable c] (s t : State) :
    (if c then s.prepend h tr else t.prepend h tr) = (if c then s else t).prepend h tr :=
  (apply_ite (State.prepend h tr) c s t).symm

@[simp] theorem draw_prepend : (s.prepend h tr).draw = (s.draw.1, s.draw.2.prepend h tr) := by
  obtain ⟨_, _, _, _, _, _, answers, _, _⟩ := s
  cases answers <;> rfl

@[simp] theorem takeTurn_prepend : (s.prepend h tr).takeTurn = (s.takeTurn.1, s.takeTurn.2.prepend h tr) := by
  obtain ⟨_, _, _, _, _, _, _, schedule, _⟩ := s
  cases schedule <;> rfl

@[simp] theorem drawWords_prepend (n : Nat) :
    State.drawWords n (s.prepend h tr) = ((State.drawWords n s).1, (State.drawWords n s).2.prepend h tr) := by
  induction n generalizing s with
  | zero => rfl
  | succ n ih => simp [State.drawWords, ih]

/-! ### The device's operations -/

@[simp] theorem setLawless_prepend : (s.prepend h tr).setLawless = s.setLawless.prepend h tr := rfl
@[simp] theorem setWild_prepend : (s.prepend h tr).setWild = s.setWild.prepend h tr := rfl
@[simp] theorem dropRx_prepend : (s.prepend h tr).dropRx = s.dropRx.prepend h tr := rfl
@[simp] theorem complete_prepend : (s.prepend h tr).complete = s.complete.prepend h tr := rfl
@[simp] theorem txTake_prepend : (s.prepend h tr).txTake = s.txTake.prepend h tr := rfl
@[simp] theorem record_prepend (i : Instr) : (s.prepend h tr).record i = (s.record i).prepend h tr := rfl
@[simp] theorem startFlight_prepend (w : Word) (b : Bool) :
    (s.prepend h tr).startFlight w b = (s.startFlight w b).prepend h tr := rfl

@[simp] theorem raceIfFlying_prepend : (s.prepend h tr).raceIfFlying = s.raceIfFlying.prepend h tr :=
  ite_prepend h tr (s.dev.inFlight.isSome = true) s.setLawless s

@[simp] theorem drawRx_prepend : (s.prepend h tr).drawRx = s.drawRx.prepend h tr := by simp [State.drawRx]

@[simp] theorem drawTx_prepend : (s.prepend h tr).drawTx = s.drawTx.prepend h tr := by simp [State.drawTx]

@[simp] theorem disturbKey_prepend : (s.prepend h tr).disturbKey = s.disturbKey.prepend h tr := by
  simp [State.disturbKey]

@[simp] theorem rxptrClear_prepend : (s.prepend h tr).rxptrClear = s.rxptrClear.prepend h tr := by
  simp [State.rxptrClear]

@[simp] theorem rxPop_prepend : (s.prepend h tr).rxPop = s.rxPop.prepend h tr := by simp [State.rxPop]

@[simp] theorem drawDevice_prepend : (s.prepend h tr).drawDevice = s.drawDevice.prepend h tr := by
  simp [State.drawDevice]

@[simp] theorem softReset_prepend : (s.prepend h tr).softReset = s.softReset.prepend h tr := by
  simp [State.softReset]

@[simp] theorem writeCtrl_prepend (v : Word) : (s.prepend h tr).writeCtrl v = (s.writeCtrl v).prepend h tr := by
  simp [State.writeCtrl]

@[simp] theorem writeRxctl_prepend (v : Word) : (s.prepend h tr).writeRxctl v = (s.writeRxctl v).prepend h tr := by
  simp [State.writeRxctl]

@[simp] theorem writeIpcmd_prepend (w : Word) : (s.prepend h tr).writeIpcmd w = (s.writeIpcmd w).prepend h tr := by
  cases hf : s.dev.inFlight <;> simp [State.writeIpcmd, hf]

@[simp] theorem writeLutkey_prepend (v : Word) : (s.prepend h tr).writeLutkey v = (s.writeLutkey v).prepend h tr := by
  simp [State.writeLutkey]

@[simp] theorem writeLckcr_prepend (v : Word) : (s.prepend h tr).writeLckcr v = (s.writeLckcr v).prepend h tr := by
  simp [State.writeLckcr]

@[simp] theorem writeLut_prepend (j : Fin 64) (v : Word) :
    (s.prepend h tr).writeLut j v = (s.writeLut j v).prepend h tr := by
  simp [State.writeLut]

@[simp] theorem writeTxdata_prepend (v : Word) : (s.prepend h tr).writeTxdata v = (s.writeTxdata v).prepend h tr := by
  simp [State.writeTxdata]

@[simp] theorem writeEffect_prepend (r : Role) (v : Word) :
    (s.prepend h tr).writeEffect r v = (s.writeEffect r v).prepend h tr := by
  cases r <;> simp [State.writeEffect]

@[simp] theorem devWrite_prepend (r : Role) (v : Word) :
    (s.prepend h tr).devWrite r v = (s.devWrite r v).prepend h tr := by
  simp [State.devWrite, State.writeUnclocked]

@[simp] theorem devRead_prepend (r : Role) :
    (s.prepend h tr).devRead r = ((s.devRead r).1, (s.devRead r).2.prepend h tr) := by
  simp [State.devRead]

@[simp] theorem wildStep_prepend : (s.prepend h tr).wildStep = s.wildStep.prepend h tr := by simp [State.wildStep]

@[simp] theorem runUnwritten_prepend : (s.prepend h tr).runUnwritten = s.runUnwritten.prepend h tr := rfl

@[simp] theorem advance_prepend : (s.prepend h tr).advance = s.advance.prepend h tr :=
  ite_prepend h tr (s.dev.seqPtr + 1 < instrPerSeq) (s.mapDev fun d => { d with seqPtr := d.seqPtr + 1 })
    (s.mapDev fun d => { d with seqPtr := instrPerSeq }).complete

@[simp] theorem phaseDone_prepend (i : Instr) : phaseDone i (s.prepend h tr) = (phaseDone i s).prepend h tr := by
  simp [phaseDone]

@[simp] theorem rxPush_prepend (b : Byte) : (s.prepend h tr).rxPush b = (s.rxPush b).prepend h tr := by
  simp [State.rxPush]

@[simp] theorem phaseRead_prepend (i : Instr) : phaseRead i (s.prepend h tr) = (phaseRead i s).prepend h tr := by
  simp [phaseRead]

@[simp] theorem phaseWrite_prepend (i : Instr) : phaseWrite i (s.prepend h tr) = (phaseWrite i s).prepend h tr := by
  simp [phaseWrite]

/-! ### The engine's accesses -/

@[simp] theorem regWrite_prepend (r : Role) (v : Word) :
    (s.prepend h tr).regWrite r v = (s.regWrite r v).prepend h tr := by
  simp [State.regWrite]

@[simp] theorem regRead_prepend (r : Role) :
    (s.prepend h tr).regRead r = ((s.regRead r).1, (s.regRead r).2.prepend h tr) := by
  simp [State.regRead]

@[simp] theorem rmw_prepend (r : Role) (f : Word → Word) (a : ActPos) :
    (s.prepend h tr).rmw r f a = ((s.rmw r f a).1, (s.rmw r f a).2.prepend h tr) := by
  cases a <;> simp [State.rmw]

@[simp] theorem act_prepend (F : Field) (a : ActPos) :
    (s.prepend h tr).act F a = ((s.act F a).1, (s.act F a).2.prepend h tr) := by
  by_cases hr : isRmw F.role = true <;> simp [State.act, hr]

@[simp] theorem poll_prepend (r : Role) (ok : Word → Bool) (i : Nat) :
    (s.prepend h tr).poll r ok i = ((s.poll r ok i).1, (s.poll r ok i).2.prepend h tr) := by
  rw [State.poll, regRead_prepend]
  rfl

/-! ### One step of a request in service -/

theorem writeSeqStep_prepend (index : BitVec 4) (words : Vector Word 4) (pos : WriteSeqPos) :
    writeSeqStep index words pos (s.prepend h tr) = (writeSeqStep index words pos s).prepend h tr := by
  cases pos <;> simp [writeSeqStep]

@[simp] theorem issueStep_prepend (seq : BitVec 4) (addr : Word) (size : Half) (pos : IssuePos) :
    issueStep seq addr size pos (s.prepend h tr) =
      ((issueStep seq addr size pos s).1, (issueStep seq addr size pos s).2.prepend h tr) := by
  cases pos with
  | addr | command => simp [issueStep]
  | waitIdle i | waitDone i =>
    cases hp : (s.poll .status (busyClear s.cfg) i).1 <;> simp [issueStep, hp]
  | rxPtr a => cases ha : (s.act (fieldRxptrClr s.cfg) a).1 <;> simp [issueStep, ha]
  | seqPtr a => cases ha : (s.act (fieldSeqptrClr s.cfg) a).1 <;> simp [issueStep, ha]

theorem issueServe_prepend (seq : BitVec 4) (addr : Word) (size : Half) (pos : IssuePos) :
    issueServe seq addr size pos (s.prepend h tr) = (issueServe seq addr size pos s).prepend h tr := by
  cases hn : (issueStep seq addr size pos s).1 <;> simp [issueServe, hn]

theorem drainStep_prepend (size : Word) (pos : DrainPos) (out : List Byte) (k : Nat) :
    drainStep size pos out k (s.prepend h tr) = (drainStep size pos out k s).prepend h tr := by
  cases pos with
  | wait i => cases hp : (s.poll .status (fieldSet s.cfg.mask.rxwm) i).1 <;> simp [drainStep, hp]
  | read => simp [drainStep]
  | pop a => cases ha : (s.act (fieldRxpop s.cfg) a).1 <;> simp [drainStep, drainPopped, ha]

theorem fillStep_prepend (seq : BitVec 4) (addr : Word) (data : List Word) (pos : FillPos) (n lim : Nat) :
    fillStep seq addr data pos n lim (s.prepend h tr) = (fillStep seq addr data pos n lim s).prepend h tr := by
  cases pos with
  | txne | addr | word => simp [fillStep]
  | clear a => cases ha : (s.act (fieldClrTxf s.cfg) a).1 <;> simp [fillStep, ha]
  | wait i => cases hp : (s.poll .status (fun v => !fieldSet s.cfg.mask.txfull v) i).1 <;> simp [fillStep, hp]
  | issue q => cases hn : (issueStep seq addr (fillSize n) q s).1 <;> simp [fillStep, hn]

@[simp] theorem initRmw_prepend (r : Role) (f : Word → Word) (a : ActPos) (stay : ActPos → InitPos) (nxt : InitPos) :
    initRmw r f a stay nxt (s.prepend h tr) = (initRmw r f a stay nxt s).prepend h tr := by
  cases ha : (s.rmw r f a).1 <;> simp [initRmw, initAt, ha]

theorem initStep_prepend (pos : InitPos) : initStep pos (s.prepend h tr) = (initStep pos s).prepend h tr := by
  cases pos <;> simp [initStep, initAt]

theorem taskStep_prepend (k : Task) : taskStep k (s.prepend h tr) = (taskStep k s).prepend h tr := by
  cases k with
  | writeSeq index words pos => exact writeSeqStep_prepend ..
  | issue seq addr size pos => exact issueServe_prepend ..
  | drain size pos out k => exact drainStep_prepend ..
  | fill seq addr data pos n lim => exact fillStep_prepend ..
  | init pos => exact initStep_prepend ..

theorem finish_prepend (r : Response) : (s.prepend h tr).finish r = (s.finish r).prepend h tr := by
  cases hj : s.eng.job with
  | none => simp [State.finish, hj]
  | some j => rw [finish_of_job r s hj, finish_of_job r (s.prepend h tr) hj]; rfl

/-- One step of the request in service, if its accesses do not read the history or the trace. -/
theorem serve_prepend {f : State → State} (hf : f (s.prepend h tr) = (f s).prepend h tr) :
    (s.prepend h tr).serve f = (s.serve f).prepend h tr := by
  cases hj : s.eng.job with
  | none => simp [State.serve, hj]
  | some j =>
    cases ht : j.todo with
    | nil => rw [serve_access s f hj ht, serve_access (s.prepend h tr) f hj ht, hf]
    | cons a rest =>
      cases a with
      | trace ev => rw [serve_trace s f hj ht, serve_trace (s.prepend h tr) f hj ht, traceEv_prepend, queue_prepend]
      | respond r => rw [serve_respond s f hj ht, serve_respond (s.prepend h tr) f hj ht, finish_prepend]

/-! ### exec -/

/-- An outcome with `h` and `tr` before the history and the trace of its next state. -/
@[simp] def prependOutcome : Host.Outcome State Fault Refusal → Host.Outcome State Fault Refusal
  | .next t => .next (t.prepend h tr)
  | .fault f => .fault f
  | .refused r => .refused r

theorem lutPhase_prepend (i : Instr) (pad : BitVec 2) {f : State → State}
    (hf : f (s.prepend h tr) = (f s).prepend h tr) :
    lutPhase i pad f (s.prepend h tr) = prependOutcome h tr (lutPhase i pad f s) := by
  cases hg : s.dev.inFlight with
  | none => rw [lutPhase_idle hg, lutPhase_idle (s := s.prepend h tr) hg]; rfl
  | some g =>
    cases hp : padWired s.cfg pad with
    | true => rw [lutPhase_wired hg hp, lutPhase_wired (s := s.prepend h tr) hg hp, hf]; rfl
    | false => rw [lutPhase_unwired hg hp, lutPhase_unwired (s := s.prepend h tr) hg hp]; rfl

/-- The LUT instructions and the IP-command word: each is made of the device's operations. -/
theorem exec_device_prepend {i : Instr} (hi : deviceInstr i = true) :
    exec i (s.prepend h tr) = prependOutcome h tr (exec i s) := by
  obtain ⟨pad, x, rfl⟩ | ⟨n, pad, x, rfl⟩ | ⟨q, z, rfl⟩ | ⟨pad, f, he, -, hf⟩ := device_cases hi
  · cases hg : s.dev.inFlight <;> simp [exec, execStop, hg]
  · cases hg : s.dev.inFlight <;> simp [exec, execUnassigned, hg]
  · simp [exec, execIpcmd]
  · rw [he, he]
    refine lutPhase_prepend h tr s i pad ?_
    obtain ⟨-, rfl | rfl | rfl⟩ | ⟨-, rfl⟩ := hf <;> simp

/-- A request is held while another one is served. -/
theorem exec_not_served {s : State} {i : Instr} {j : Service} (hj : s.eng.job = some j) (hne : taskInstr j.task ≠ i)
    (hi : firstTask s.cfg i ≠ none) : exec i s = .next s := by
  cases i
  case writeSeq | issue | drain | fill | init =>
    simp only [exec, execWriteSeq, execIssue, execDrain, execFill, execInit, hj]
    cases hk : j.task <;> simp_all [taskInstr]
  all_goals exact absurd rfl hi

theorem admission_prepend (b : Bool) : (s.prepend h tr).admission b = s.admission b := rfl

/-- The requests that make accesses: one is held, starts its task, or takes the next step of its service. -/
theorem exec_task_prepend {i : Instr} (hi : firstTask s.cfg i ≠ none) :
    exec i (s.prepend h tr) = prependOutcome h tr (exec i s) := by
  cases hj : s.eng.job with
  | some j =>
    by_cases hk : taskInstr j.task = i
    · subst hk
      rw [exec_serve hj, exec_serve (s := s.prepend h tr) hj, serve_prepend h tr s (taskStep_prepend ..)]
      rfl
    · rw [exec_not_served hj hk hi, exec_not_served (s := s.prepend h tr) hj hk hi]
      rfl
  | none =>
    cases i
    case writeSeq | issue | drain =>
      simp only [exec, execWriteSeq, execIssue, execDrain, prepend_job, hj, admission_prepend]
      cases s.admission true <;> rfl
    case fill seq addr data =>
      simp only [exec, execFill, prepend_job, hj, admission_prepend]
      cases s.admission true with
      | held | refused => rfl
      | accepted => simp
    case init =>
      simp only [exec, execInit, prepend_job, hj, admission_prepend]
      cases s.admission false with
      | held | refused => rfl
      | accepted => by_cases hm : s.eng.mode = .uninit <;> simp [hm]
    all_goals exact absurd rfl hi

/-- The requests served in one step. -/
theorem exec_now_prepend {i : Instr} (hi : deviceInstr i = false) (hn : firstTask s.cfg i = none) :
    exec i (s.prepend h tr) = prependOutcome h tr (exec i s) := by
  cases i
  case encode | decode =>
    simp only [exec, execEncode, execDecode, admission_prepend]
    cases s.admission false <;> rfl
  case acquire who =>
    cases ha : s.admission true with
    | accepted =>
      by_cases ho : s.eng.owner = none
      · rw [exec_acquire_free who ha ho, exec_acquire_free (s := s.prepend h tr) who ha ho]
        symm
        exact apply_ite (prependOutcome h tr) (who = s.eng.offer) _ _
      · rw [exec_acquire_owned who ha ho, exec_acquire_owned (s := s.prepend h tr) who ha ho]
        rfl
    | held | refused => simp [exec, execAcquire, admission_prepend, ha]
  case release who =>
    cases ha : s.admission true with
    | accepted =>
      rw [exec_release_accepted who ha, exec_release_accepted (s := s.prepend h tr) who ha]
      symm
      exact apply_ite (prependOutcome h tr) (s.eng.owner = some who) _ _
    | held | refused => simp [exec, execRelease, admission_prepend, ha]
  case writeSeq | issue | drain | fill | init => cases hn
  all_goals cases hi

theorem exec_prepend (i : Instr) : exec i (s.prepend h tr) = prependOutcome h tr (exec i s) := by
  cases hd : deviceInstr i with
  | true => exact exec_device_prepend h tr s hd
  | false =>
    by_cases hn : firstTask s.cfg i = none
    · exact exec_now_prepend h tr s hd hn
    · exact exec_task_prepend h tr s hn

/-! ### step -/

theorem pick_prepend : (s.prepend h tr).pick = (s.pick.1, s.pick.2.prepend h tr) := by
  have he : (s.prepend h tr).eligible = s.eligible := rfl
  unfold State.pick
  rw [he]
  rcases s.eligible with _ | ⟨m, _ | ⟨n, ms⟩⟩
  · rfl
  · rfl
  · simp

theorem fetchEngine_prepend :
    (fetchEngine (s.prepend h tr)).outcome = prependOutcome h tr (fetchEngine s).outcome := by
  cases hj : s.eng.job with
  | some j =>
    rw [fetchEngine_serving hj, fetchEngine_serving (s := s.prepend h tr) hj]
    exact exec_prepend h tr s _
  | none =>
    simp only [fetchEngine, prepend_job, hj, pick_prepend]
    cases s.pick.1 with
    | none => rfl
    | some m =>
      cases hd : decodeRequest m.msg with
      | error e => simp [hd, Fetched.outcome]
      | ok i => simp [hd, Fetched.outcome, exec_prepend]

theorem fetchDevice_prepend :
    (fetchDevice (s.prepend h tr)).outcome = prependOutcome h tr (fetchDevice s).outcome := by
  cases hf : s.dev.inFlight with
  | none => rw [fetchDevice_idle hf, fetchDevice_idle (s := s.prepend h tr) hf]; rfl
  | some f =>
    by_cases hw : f.wild = true ∨ s.dev.enabled s.cfg = false
    · rw [fetchDevice_wild hf hw, fetchDevice_wild (s := s.prepend h tr) hf hw]
      simp [Fetched.outcome]
    obtain ⟨hw, he⟩ : f.wild = false ∧ s.dev.enabled s.cfg = true := by simpa using hw
    by_cases hc : 8 ≤ s.dev.seqPtr
    · rw [fetchDevice_past hf hw he hc, fetchDevice_past (s := s.prepend h tr) hf hw he hc]
      rfl
    have hc := Nat.not_le.mp hc
    cases hh : s.dev.lutHalf s.cfg f.seq s.dev.seqPtr with
    | none => rw [fetchDevice_unwritten hf hw he hc hh, fetchDevice_unwritten (s := s.prepend h tr) hf hw he hc hh]; rfl
    | some w =>
      rw [fetchDevice_run hf hw he hc hh, fetchDevice_run (s := s.prepend h tr) hf hw he hc hh]
      exact exec_prepend h tr s _

/-- A word for `IPCMD` with reserved bits is a register write all the same (log 33). -/
theorem fetchBus_reserved {s : State} {off : Nat} {v : Word} {rest : List (Nat × Word)} {e : Reject}
    (hs : s.foreign = (off, v) :: rest) (hr : roleAt s.cfg off = some .ipcmd) (hd : decodeIpcmd v = .error e) :
    fetchBus s = .done (.next ({ s with foreign := rest }.devWrite .ipcmd v)) := by
  simp [fetchBus, hs, hr, hd, readOnly]

theorem fetchBus_prepend : (fetchBus (s.prepend h tr)).outcome = prependOutcome h tr (fetchBus s).outcome := by
  cases hs : s.foreign with
  | nil => simp [fetchBus, hs, Fetched.outcome]
  | cons w rest =>
    obtain ⟨off, v⟩ := w
    have hrest : ({ s.prepend h tr with foreign := rest } : State) = State.prepend h tr { s with foreign := rest } :=
      rfl
    cases hr : roleAt s.cfg off with
    | none => rw [fetchBus_none hs hr, fetchBus_none (s := s.prepend h tr) hs hr]; rfl
    | some r =>
      cases ho : readOnly r with
      | true => rw [fetchBus_readOnly hs hr ho, fetchBus_readOnly (s := s.prepend h tr) hs hr ho]; rfl
      | false =>
        by_cases hi : r = .ipcmd
        · subst hi
          cases hd : decodeIpcmd v with
          | error e =>
            rw [fetchBus_reserved hs hr hd, fetchBus_reserved (s := s.prepend h tr) hs hr hd, hrest, devWrite_prepend]
            rfl
          | ok i =>
            rw [fetchBus_ipcmd hs hr hd, fetchBus_ipcmd (s := s.prepend h tr) hs hr hd, hrest]
            exact exec_prepend h tr _ i
        · rw [fetchBus_write hs hr ho hi, fetchBus_write (s := s.prepend h tr) hs hr ho hi, hrest, devWrite_prepend]
          rfl

/-- A step does the same whatever history and trace stand before, and appends the same after them. -/
theorem step_prepend : step (s.prepend h tr) = prependOutcome h tr (step s) := by
  by_cases hv : s.cfg.valid = true
  · cases ht : s.takeTurn.1 with
    | engine =>
      rw [step_engine hv ht, step_engine (s := s.prepend h tr) hv (by rw [takeTurn_prepend, ht]), takeTurn_prepend]
      exact fetchEngine_prepend ..
    | device =>
      rw [step_device hv ht, step_device (s := s.prepend h tr) hv (by rw [takeTurn_prepend, ht]), takeTurn_prepend]
      exact fetchDevice_prepend ..
    | bus =>
      rw [step_bus hv ht, step_bus (s := s.prepend h tr) hv (by rw [takeTurn_prepend, ht]), takeTurn_prepend]
      exact fetchBus_prepend ..
  · simp [step, fetch, hv]
end

/-! ### What a step appends -/

/-- `t` has what `s` had in the history and the trace, and after it one entry of one of them or none (R5). -/
def AppendsOne (s t : State) : Prop :=
  ∃ l l', l.length + l'.length ≤ 1 ∧ t.eng.hist = s.eng.hist ++ l ∧ t.eng.trace = s.eng.trace ++ l'

theorem AppendsOne.of_same {s t : State} (hh : t.eng.hist = s.eng.hist) (ht : t.eng.trace = s.eng.trace) :
    AppendsOne s t := ⟨[], [], Nat.zero_le 1, by simp [hh], by simp [ht]⟩

theorem exec_appendsOne {i : Instr} {s t : State} (hx : exec i s = .next t) : AppendsOne s t := by
  obtain rfl | ⟨-, hk⟩ | ⟨_, -, -, hs⟩ | ⟨-, ha⟩ := exec_cases hx
  · exact .of_same rfl rfl
  · exact .of_same (by rw [hk.eng]) (by rw [hk.eng])
  · obtain ⟨l, l', hlen, -, hh, ht⟩ := hs.hist
    exact ⟨l, l', hlen, hh, ht⟩
  · exact .of_same ha.hist ha.trace

theorem step_appendsOne {s t : State} (hx : step s = .next t) : AppendsOne s t := by
  obtain ⟨u, rfl, -, hc⟩ := step_cases hx
  obtain ⟨-, ⟨_, -, he⟩ | ⟨-, -, rfl⟩ | ⟨m, i, -, -, -, he⟩⟩ | ⟨-, hk⟩ | ⟨-, rfl | ⟨w, rest, r, v, -, rfl⟩⟩ := hc
  · simpa [AppendsOne] using exec_appendsOne he
  · exact .of_same (by rw [(pick_drawOnly _).eng, takeTurn_eng]) (by rw [(pick_drawOnly _).eng, takeTurn_eng])
  · obtain ⟨-, -, hg⟩ := pick_take_frame m s.takeTurn.2
    simpa [AppendsOne, hg] using exec_appendsOne he
  · exact .of_same (by rw [hk.eng, takeTurn_eng]) (by rw [hk.eng, takeTurn_eng])
  · exact .of_same (by rw [takeTurn_eng]) (by rw [takeTurn_eng])
  · exact .of_same (by simp) (by simp)

/-- A state is the one with neither history nor trace, and its own put before. -/
theorem withHistory_eq_prepend (h : List Event) (tr : List TraceEvent) (s : State) :
    s.withHistory h tr = (s.withHistory [] []).prepend h tr := by
  simp [State.withHistory, State.prepend, State.mapEng]

/-- Settles O48: what the step does from no history and no trace, it does from any. -/
theorem historyIsObservationOnly : Obligations.HistoryIsObservationOnly := by
  unfold Obligations.HistoryIsObservationOnly
  intro s h tr
  have hstep : ∀ h tr, step (s.withHistory h tr) = prependOutcome h tr (step (s.withHistory [] [])) := fun h tr => by
    rw [withHistory_eq_prepend, step_prepend]
  have hs : step s = prependOutcome s.eng.hist s.eng.trace (step (s.withHistory [] [])) :=
    hstep s.eng.hist s.eng.trace
  rw [hs, hstep h tr]
  cases hb : step (s.withHistory [] []) with
  | next b =>
    refine ⟨fun t ht => ?_, by simp, by simp⟩
    cases ht
    obtain ⟨l, l', hlen, hh, ht⟩ := step_appendsOne hb
    rw [show (s.withHistory [] []).eng.hist = [] from rfl, List.nil_append] at hh
    rw [show (s.withHistory [] []).eng.trace = [] from rfl, List.nil_append] at ht
    refine ⟨l, l', hlen, by rw [prepend_hist, hh], by rw [prepend_trace, ht], ?_⟩
    simp [State.withHistory, State.prepend, State.mapEng, hh, ht]
  | fault e => simp
  | refused e => simp

end Sys2Proof.Machine
end

section
/-! ## INIT (70_reset_and_hazards.md R224 to R226; 10_state.md R39)

Every access of INIT but the last belongs to a read-modify-write, so its run is a chain of those (`boots_rmw`), cut by
the two platform calls, at which it may end. -/

namespace Sys2Proof.Machine

/-! ### Steps of INIT that go on -/

/-- `t` is `s` after `n` steps of INIT in service that made the accesses `h`, left it at `pos`, and left the clock as
it was. -/
structure Boots (n : Nat) (s t : State) (pos : InitPos) (h : List Event) : Prop where
  run : execTimes .init n s = .next t
  moves : Moves s t (.init pos) [] h
  clock : t.dev.clockOn = s.dev.clockOn

theorem Boots.trans {m n : Nat} {s t u : State} {pos pos' : InitPos} {h h' : List Event} (a : Boots m s t pos h)
    (b : Boots n t u pos' h') : Boots (m + n) s u pos' (h ++ h') :=
  ⟨(execTimes_add a.run).trans b.run, a.moves.trans b.moves, b.clock.trans a.clock⟩

/-- The eight accesses that disable, reset and enable the controller (R224). -/
def resetTrace (p : Params) (a b c d : Word) : List Event :=
  [.rd p.off.ctrl a, .wr p.off.ctrl (a ||| p.mask.mdis), .rd p.off.ctrl b, .wr p.off.ctrl (b ||| swrstMask p),
    .rd p.off.ctrl c, .wr p.off.ctrl (c &&& ~~~swrstMask p), .rd p.off.ctrl d, .wr p.off.ctrl (d &&& ~~~p.mask.mdis)]

/-- The four accesses that clear the buffers and set the watermark (R224). -/
def setupTrace (p : Params) (e f : Word) : List Event :=
  [.rd p.off.ctrl e, .wr p.off.ctrl (e ||| (p.mask.clrRxf ||| p.mask.clrTxf)), .rd p.off.rxctl f,
    .wr p.off.rxctl ((f &&& ~~~p.mask.rxwmk) ||| p.rxwmField4B)]

section
variable {s : State} {j : Service} (hj : s.eng.job = some j) (ht : j.todo = [])
include hj ht

/-- An access step of INIT in service. -/
theorem exec_init_access {pos : InitPos} (hk : j.task = .init pos) : exec .init s = .next (initStep pos s) := by
  rw [exec_init_serve hj hk, serve_access s _ hj ht]

/-- A read-modify-write of INIT, both its accesses. -/
theorem boots_rmw {p : Params} (hp : s.cfg = p) (r : Role) (f : Params → Word → Word) {stay : ActPos → InitPos}
    (nxt : InitPos) (hk : j.task = .init (stay .start))
    (hstep : ∀ a u, initStep (stay a) u = initRmw r (f u.cfg) a stay nxt u) :
    ∃ t v, Boots 2 s t nxt [.rd (offOf p r) v, .wr (offOf p r) (f p v)] := by
  subst hp
  have hread := exec_init_access hj ht hk
  rw [hstep] at hread
  have hm := regRead_moves hj ht r (.init (stay (.write (s.regRead r).1)))
  have hwrite := exec_init_access (hm.job hj) rfl rfl
  rw [hstep, hm.cfg] at hwrite
  have hm' := regWrite_moves (hm.job hj) rfl r (f s.cfg (s.regRead r).1) (.init nxt)
  rw [hm.cfg] at hm'
  exact ⟨_, _, execTimes_two hread hwrite, hm.trans hm', (devWrite_keeps r _ _).clock.trans (devRead_keeps r s).clock⟩

/-- A step of INIT that makes no access and goes on at `pos`. -/
theorem initAt_moves {u : State} (hc : u.cfg = s.cfg) (hr : u.responses = s.responses) (he : u.eng = s.eng)
    (pos : InitPos) : Moves s (initAt pos u) (.init pos) [] [] :=
  ⟨hc, hr, by simp [initAt, State.setTask, State.mapEng, he, hj, ht]⟩

/-- INIT's hold, which is no access. -/
theorem boots_hold (hk : j.task = .init .hold) : ∃ t, Boots 1 s t (.resetClear .start) [] :=
  ⟨_, execTimes_one (exec_init_access hj ht hk), initAt_moves hj ht rfl rfl rfl _, rfl⟩

/-- INIT from its first access to its clock call. -/
theorem boots_reset {p : Params} (hp : s.cfg = p) (hk : j.task = .init (.disable .start)) :
    ∃ t a b c d, Boots 9 s t .clock (resetTrace p a b c d) := by
  obtain ⟨t1, a, h1⟩ := boots_rmw hj ht hp .ctrl (fun p => setBits p.mask.mdis) (.resetSet .start) hk fun _ _ => rfl
  obtain ⟨t2, b, h2⟩ := boots_rmw (h1.moves.job hj) rfl (h1.moves.cfg.trans hp) .ctrl (fun p => setBits (swrstMask p))
    .hold rfl fun _ _ => rfl
  have h12 := h1.trans h2
  obtain ⟨t3, h3⟩ := boots_hold (h12.moves.job hj) rfl rfl
  have h13 := h12.trans h3
  obtain ⟨t4, c, h4⟩ := boots_rmw (h13.moves.job hj) rfl (h13.moves.cfg.trans hp) .ctrl
    (fun p => clearBits (swrstMask p)) (.enable .start) rfl fun _ _ => rfl
  have h14 := h13.trans h4
  obtain ⟨t5, d, h5⟩ := boots_rmw (h14.moves.job hj) rfl (h14.moves.cfg.trans hp) .ctrl
    (fun p => clearBits p.mask.mdis) .clock rfl fun _ _ => rfl
  exact ⟨t5, a, b, c, d, h14.trans h5⟩

/-- INIT from its clock call to its last access. -/
theorem boots_setup {p : Params} (hp : s.cfg = p) (hk : j.task = .init (.clearBuffers .start)) :
    ∃ t e f, Boots 4 s t .timing (setupTrace p e f) := by
  obtain ⟨t1, e, h1⟩ := boots_rmw hj ht hp .ctrl (fun p => setBits (p.mask.clrRxf ||| p.mask.clrTxf))
    (.watermark .start) hk fun _ _ => rfl
  obtain ⟨t2, f, h2⟩ := boots_rmw (h1.moves.job hj) rfl (h1.moves.cfg.trans hp) .rxctl watermarkValue .timing rfl
    fun _ _ => rfl
  exact ⟨t2, e, f, h1.trans h2⟩
end

/-! ### How INIT ends -/

/-- `t` is `s` after steps that made the accesses `h` and ended the request `j` with the response `r` in mode `m`. -/
structure Ends (s t : State) (j : Service) (r : Response) (m : Mode) (h : List Event) : Prop where
  responses : t.responses = s.responses ++ [(j.sender, r)]
  eng : t.eng = { s.eng with mode := m, job := none, hist := s.eng.hist ++ h }

/-- Steps that go on, and then those that end the request. -/
theorem Moves.ends {s t u : State} {j : Service} {k : Task} {td : List Internal} {r : Response} {m : Mode}
    {h h' : List Event} (a : Moves s t k td h) (b : Ends t u { j with task := k, todo := td } r m h') :
    Ends s u j r m (h ++ h') := by
  refine ⟨by rw [b.responses, a.responses], ?_⟩
  rw [b.eng, a.eng]
  simp

section
variable {s : State} {j : Service} (hj : s.eng.job = some j) (ht : j.todo = [])
include hj ht

/-- A platform call that fails: the error is the response, and no access is made (R226). -/
theorem init_aborts {pos : InitPos} {e : ErrorKind} (hk : j.task = .init pos)
    (hstep : initStep pos s = s.draw.2.raise e) :
    ∃ t, execTimes .init 2 s = .next t ∧ t.dev = s.dev ∧ Ends s t j (.err e) j.resume [] := by
  have hx := exec_init_access hj ht hk
  rw [hstep, raise_eq] at hx
  have hjt : (s.draw.2.queue [.respond (.err e)]).eng.job = some { j with todo := [.respond (.err e)] } := by simp [hj]
  have hx' := exec_respond_plain hjt rfl (boots_err _ e)
  simp only [hk, taskInstr] at hx'
  exact ⟨_, execTimes_two hx hx', draw_dev s, by simp, by simp [State.queue, State.mapEng]⟩

/-- INIT's last access and its response (R224): what R39's last column says of the device is settled. -/
theorem init_completes (hk : j.task = .init .timing) :
    ∃ t1 t, exec .init s = .next t1 ∧ exec .init t1 = .next t ∧
      t1.eng.hist = s.eng.hist ++ [.wr s.cfg.off.flshcfg s.cfg.flashTiming] ∧ t1.responses = s.responses ∧
      Ends s t j (.ok .unit) .idle [.wr s.cfg.off.flshcfg s.cfg.flashTiming] ∧
      t.dev = (s.devWrite .flshcfg s.cfg.flashTiming).dev.afterInit s.cfg := by
  have hx := exec_init_access hj ht hk
  have hjt : (initStep .timing s).eng.job = some { j with todo := [.respond (.ok .unit)] } := by simp [initStep, hj]
  have hx' := exec_respond hjt rfl
  simp only [hk, taskInstr, Service.boots, if_true] at hx'
  refine ⟨_, _, hx, hx', ?_, ?_, ⟨?_, ?_⟩, ?_⟩
  · simp [initStep, offOf]
  · simp [initStep]
  · simp [initStep]
  · simp [initStep, State.queue, State.mapEng, offOf]
  · simp [initStep]
end

/-- The write of the timing register and the values that R39's last column gives: of the rest, only the key. -/
theorem afterInit_devWrite_flshcfg {s : State} (hc : s.dev.clockOn = true) (p : Params) (v : Word) :
    OnlyKey (s.dev.afterInit p) ((s.devWrite .flshcfg v).dev.afterInit p) := by
  obtain ⟨u, -, hkey, -, he⟩ := devWrite_spec hc .flshcfg v
  rw [he]
  exact hkey.map (Device.afterInit p) (fun _ _ => rfl) rfl

/-- INIT makes accesses, so its steps leave what `RunFrame` says. -/
theorem init_runFrame {n : Nat} {s t : State} (h : execTimes .init n s = .next t) : RunFrame s t :=
  execTimes_runFrame (by simp [firstTask]) h

/-- Settles O42: the write and the response, one step each. -/
theorem initCompletes : Obligations.InitCompletes := by
  unfold Obligations.InitCompletes
  intro s j hj hk ht hc
  obtain ⟨t1, t, hx, hx', hhist, hresp, hend, hdev⟩ := init_completes hj ht hk
  have hf := init_runFrame (execTimes_two hx hx')
  refine ⟨t1, t, hx, hx', hhist, hresp, hend.eng, hend.responses, ?_, hf.cfg, hf.port, hf.foreign, hf.schedule⟩
  rw [hdev]
  exact afterInit_devWrite_flshcfg hc s.cfg s.cfg.flashTiming

/-! ### The run of INIT -/

/-- INIT is accepted in Uninit, the lock being free (R222, R224). -/
theorem exec_init_accepted {s : State} (hm : s.eng.mode = .uninit) (hj : s.eng.job = none) (ho : s.eng.owner = none) :
    exec .init s = .next (s.begin (.init .map) []) := by
  have ha : s.admission false = .accepted := by simp [State.admission, hm, ho]
  simp [exec, execInit, hj, ha, hm]

/-- The device after INIT, whatever it was before (R39's last column). -/
theorem afterInit_values (p : Params) (d : Device) :
    (d.afterInit p).clockOn = d.clockOn ∧ (d.afterInit p).rxBuf = [] ∧ (d.afterInit p).txBuf = [] ∧
      (d.afterInit p).rxctl &&& p.mask.rxwmk = p.rxwmField4B &&& p.mask.rxwmk ∧
      (d.afterInit p).flshcfg = p.flashTiming ∧ (d.afterInit p).ctrl &&& (p.mask.mdis ||| swrstMask p) = 0#32 := by
  refine ⟨rfl, rfl, rfl, ?_, rfl, and_not_and_self _ _⟩
  rw [show (d.afterInit p).rxctl = (d.rxctl &&& ~~~p.mask.rxwmk) ||| p.rxwmField4B from rfl]
  ext i hi
  cases h : p.mask.rxwmk[i] <;> simp [h]

/-- The three endings of INIT, accepted in the mode `resume` (R24, R226): the response, the mode it leaves, the accesses
it has made, and the device. -/
inductive InitEnding (s : State) (resume : Mode) : Response → Mode → List Event → Device → Prop
  | mapError : InitEnding s resume (.err .mapError) resume [] s.dev
  | clockError (a b c d : Word) (x : Device) (h : x.clockOn = s.dev.clockOn) :
    InitEnding s resume (.err .clockError) resume (resetTrace s.cfg a b c d) x
  | ok (a b c d e f : Word) (x : Device) (h : x.clockOn = true) :
    InitEnding s resume (.ok .unit) .idle
      (resetTrace s.cfg a b c d ++ (setupTrace s.cfg e f ++ [.wr s.cfg.off.flshcfg s.cfg.flashTiming]))
      (x.afterInit s.cfg)

section
variable {s : State} {j : Service} (hj : s.eng.job = some j) (ht : j.todo = [])
include hj ht

/-- INIT from its clock call on. -/
theorem init_after_clock (hk : j.task = .init .clock) :
    (∃ t, execTimes .init 2 s = .next t ∧ t.dev = s.dev ∧ Ends s t j (.err .clockError) j.resume []) ∨
      ∃ (t : State) (e f : Word) (d : Device), execTimes .init 7 s = .next t ∧ t.dev = d.afterInit s.cfg ∧
        d.clockOn = true ∧ Ends s t j (.ok .unit) .idle
          (setupTrace s.cfg e f ++ [.wr s.cfg.off.flshcfg s.cfg.flashTiming]) := by
  by_cases hb : s.draw.1.getLsbD 0 = true
  · have hx := exec_init_access hj ht hk
    have hstep : initStep .clock s =
        initAt (.clearBuffers .start) (s.draw.2.mapDev (fun d => { d with clockOn := true })) := if_pos hb
    rw [hstep] at hx
    have hm := initAt_moves hj ht (u := s.draw.2.mapDev (fun d => { d with clockOn := true })) (by simp) (by simp)
      (by simp) (.clearBuffers .start)
    obtain ⟨t, e, f, hs⟩ := boots_setup (hm.job hj) rfl hm.cfg rfl
    have hall := hm.trans hs.moves
    obtain ⟨u, v, hu, hv, -, -, hend, hdev⟩ := init_completes (hall.job hj) rfl rfl
    rw [hall.cfg] at hend hdev
    refine .inr ⟨v, e, f, _, ?_, hdev, ?_, hall.ends hend⟩
    · exact (execTimes_succ hx).trans ((execTimes_add hs.run).trans (execTimes_two hu hv))
    · rw [(devWrite_keeps _ _ _).clock, hs.clock]
      rfl
  · exact .inl (init_aborts hj ht hk (if_neg hb))

/-- INIT from its first platform call on. -/
theorem init_ends (hk : j.task = .init .map) :
    ∃ n t r m l, n ≤ 17 ∧ execTimes .init n s = .next t ∧ Ends s t j r m l ∧ InitEnding s j.resume r m l t.dev := by
  by_cases hb : s.draw.1.getLsbD 0 = true
  · have hx := exec_init_access hj ht hk
    have hstep : initStep .map s = initAt (.disable .start) s.draw.2 := if_pos hb
    rw [hstep] at hx
    have hm := initAt_moves hj ht (u := s.draw.2) (by simp) (by simp) (by simp) (.disable .start)
    obtain ⟨t, a, b, c, d, hr⟩ := boots_reset (hm.job hj) rfl hm.cfg rfl
    have hall := hm.trans hr.moves
    have hrun : execTimes .init 10 s = .next t := (execTimes_succ hx).trans hr.run
    obtain ⟨u, hu, hdev, hend⟩ | ⟨u, e, f, x, hu, hdev, hon, hend⟩ := init_after_clock (hall.job hj) rfl rfl
    · refine ⟨12, u, _, _, _, by decide, (execTimes_add hrun).trans hu, hall.ends hend, ?_⟩
      rw [hdev, List.append_nil]
      exact .clockError a b c d _ (hr.clock.trans (congrArg Device.clockOn (draw_dev s)))
    · rw [hall.cfg] at hdev hend
      refine ⟨17, u, _, _, _, by decide, (execTimes_add hrun).trans hu, hall.ends hend, ?_⟩
      rw [hdev]
      exact .ok a b c d e f x hon
  · obtain ⟨t, hrun, hdev, hend⟩ := init_aborts hj ht hk (if_neg hb)
    exact ⟨2, t, _, _, _, by decide, hrun, hend, hdev ▸ .mapError⟩
end

/-- Settles O41: acceptance, and then the run, which ends at a platform call that fails or at the response. -/
theorem initBootsOrAborts : Obligations.InitBootsOrAborts := by
  unfold Obligations.InitBootsOrAborts
  intro s _ hmode hnone howner
  have hbegin := exec_init_accepted hmode hnone howner
  obtain ⟨n, t, r, m, l, hn, hrun, hend, hi⟩ := init_ends (s := s.begin (.init .map) []) rfl rfl rfl
  have hall := (execTimes_succ hbegin).trans hrun
  obtain ⟨hcfg, hown, hport, hforeign, hschedule⟩ := init_runFrame hall
  obtain ⟨hresp, heng⟩ := hend
  refine ⟨n + 1, t, l, hall, by omega, by rw [heng], hown.trans howner, by rw [heng]; rfl, by rw [heng]; rfl, hcfg,
    hport, hforeign, hschedule, ?_⟩
  rw [heng]
  generalize t.dev = d at hi
  cases hi with
  | mapError => exact .inl ⟨hmode, rfl, rfl, hresp⟩
  | clockError a b c e _ hclock => exact .inr (.inl ⟨hmode, rfl, hclock, hresp⟩)
  | ok a b c d e f x hon =>
    obtain ⟨hclock, hvalues⟩ := afterInit_values s.cfg x
    exact .inr (.inr ⟨rfl, hresp, ⟨a, b, c, d, e, f, rfl⟩, hclock.trans hon, hvalues⟩)

end Sys2Proof.Machine
end

section
/-! ## The peripheral clock past INIT's clock call (70_reset_and_hazards.md R224, R225) -/

namespace Sys2Proof.Machine

/-! ### What the invariant says, by what the engine does -/

/-- The task stands past INIT's clock call: INIT after it, or any other request. -/
def clockedTask : Task → Bool
  | .init pos =>
    match pos with
    | .clearBuffers _ | .watermark _ | .timing => true
    | .map | .disable _ | .resetSet _ | .hold | .resetClear _ | .enable _ | .clock => false
  | .writeSeq _ _ _ | .issue _ _ _ _ | .drain _ _ _ _ | .fill _ _ _ _ _ _ => true

theorem pastClock_serving {s : State} {j : Service} (hj : s.eng.job = some j) :
    pastClock s ↔ clockedTask j.task = true ∨ ∃ x, .respond (.ok x) ∈ j.todo := by
  unfold pastClock
  simp only [hj]
  cases hk : j.task with
  | init pos => cases pos <;> simp [clockedTask]
  | writeSeq | issue | drain | fill => simp [clockedTask]

theorem pastClock_waiting {s : State} (hj : s.eng.job = none) : pastClock s ↔ s.eng.mode = .idle := by
  simp [pastClock, hj]

/-- A task that stands before INIT's clock call is INIT's. -/
theorem eq_init_of_not_clocked {k : Task} (h : clockedTask k = false) : ∃ pos, k = .init pos := by
  cases k with
  | init pos => exact ⟨pos, rfl⟩
  | writeSeq | issue | drain | fill => cases h

/-- A transition that turns no clock off, and past which the engine stands only if it stood there before. -/
theorem ClockInv.of_past {s t : State} (h : ClockInv s) (hp : pastClock t → pastClock s)
    (hc : s.dev.clockOn = true → t.dev.clockOn = true) : ClockInv t := fun ht => hc (h (hp ht))

/-- One that leaves the engine's mode and its request. -/
theorem ClockInv.congr {s t : State} (h : ClockInv s) (hm : t.eng.mode = s.eng.mode) (hj : t.eng.job = s.eng.job)
    (hc : t.dev.clockOn = s.dev.clockOn) : ClockInv t :=
  h.of_past (by unfold pastClock; rw [hm, hj]; exact id) (by rw [hc]; exact id)

/-- Before the clock call nothing is claimed of the clock. -/
theorem clockInv_of_before {t : State} {j : Service} (hj : t.eng.job = some j) (hk : clockedTask j.task = false)
    (ht : ∀ x, .respond (.ok x) ∉ j.todo) : ClockInv t := fun h => by
  obtain h | ⟨x, hx⟩ := (pastClock_serving hj).mp h
  · rw [hk] at h
    cases h
  · exact absurd hx (ht x)

/-! ### One engine step -/

section
variable {s : State} {j : Service} (hj : s.eng.job = some j) (ht : j.todo = [])
include hj ht

/-- A step of INIT that goes on before its clock call. -/
theorem initAt_clockInv {pos : InitPos} (hp : clockedTask (.init pos) = false) : ClockInv (initAt pos s) :=
  clockInv_of_before (j := { j with task := .init pos }) (by simp [initAt, hj]) hp (by simp [ht])

omit ht in
/-- A platform call that fails. -/
theorem raise_clockInv {e : ErrorKind} (hk : clockedTask j.task = false) : ClockInv (s.raise e) :=
  clockInv_of_before (j := { j with todo := [.respond (.err e)] }) (by simp [raise_eq, hj]) hk (by simp)

/-- A read-modify-write of INIT before its clock call. -/
theorem initRmw_clockInv {r : Role} (hr : engineReads r = true) (hw : engineWrites r = true) (f : Word → Word)
    (a : ActPos) {stay : ActPos → InitPos} {nxt : InitPos} (hstay : ∀ b, clockedTask (.init (stay b)) = false)
    (hnxt : clockedTask (.init nxt) = false) : ClockInv (initRmw r f a stay nxt s) := by
  have hj' := (rmw_access hr hw f a s).job.trans hj
  unfold initRmw
  dsimp only
  split
  · exact initAt_clockInv hj' ht (hstay _)
  · exact initAt_clockInv hj' ht hnxt

/-- An access of INIT up to its clock call, which turns the clock on when it succeeds. -/
theorem initStep_clockInv {pos : InitPos} (hk : j.task = .init pos) (hp : clockedTask (.init pos) = false) :
    ClockInv (initStep pos s) := by
  have hdraw : s.draw.2.eng.job = some j := by rw [draw_eng]; exact hj
  cases pos <;> simp only [initStep]
  case map =>
    split
    · exact initAt_clockInv hdraw ht rfl
    · exact raise_clockInv hdraw (by rw [hk]; rfl)
  case hold => exact initAt_clockInv hj ht rfl
  case clock =>
    split
    · exact fun _ => rfl
    · exact raise_clockInv hdraw (by rw [hk]; rfl)
  case clearBuffers | watermark | timing => cases hp
  case disable | resetSet | resetClear | enable => exact initRmw_clockInv hj ht rfl rfl _ _ (fun _ => rfl) rfl
end

/-- One step of the request in service. Past the clock call no step turns the clock off; before it only the clock call
itself goes past it, for an INIT that answers with an error returns to Uninit. -/
theorem serve_clockInv {s : State} {j : Service} (hj : s.eng.job = some j) (hr : j.resume = taskMode j.task)
    (h : ClockInv s) : ClockInv (s.serve (taskStep j.task)) := by
  by_cases hp : pastClock s
  · exact fun _ => (serve_step hj (taskStep_access j.task s)).clock (h hp)
  · obtain ⟨hk, hok⟩ := not_or.mp (mt (pastClock_serving hj).mpr hp)
    rw [Bool.not_eq_true] at hk
    obtain ⟨pos, hpos⟩ := eq_init_of_not_clocked hk
    cases ht : j.todo with
    | nil =>
      rw [serve_access s _ hj ht, hpos]
      exact initStep_clockInv hj ht hpos (hpos ▸ hk)
    | cons a rest =>
      cases a with
      | trace ev =>
        rw [serve_trace s _ hj ht]
        refine clockInv_of_before (j := { j with todo := rest }) (by simp [hj]) hk fun x hx => hok ⟨x, ?_⟩
        rw [ht]
        exact List.mem_cons_of_mem _ hx
      | respond r =>
        rw [serve_respond s _ hj ht]
        cases r with
        | ok x => exact absurd ⟨x, by rw [ht]; exact List.mem_cons_self ..⟩ hok
        | err e =>
          intro hf
          rw [pastClock_waiting (finish_job _ _), finish_of_job _ s hj, boots_err, hr, hpos] at hf
          cases hf

/-- A request taken from the port: INIT starts before its clock call, and any other is accepted past it. -/
theorem exec_request_clockInv {i : Instr} {s t : State} (hj : s.eng.job = none) (hi : deviceInstr i = false)
    (hx : exec i s = .next t) (h : ClockInv s) : ClockInv t := by
  obtain rfl | ⟨hd, -⟩ | ⟨_, hs, -⟩ | ⟨-, ha⟩ := exec_cases hx
  · exact h
  · rw [hi] at hd
    cases hd
  · rw [hj] at hs
    cases hs
  · have hclock : t.dev.clockOn = s.dev.clockOn := by rw [ha.dev]
    obtain ⟨k, hk, -, -, -, hm, htj, -⟩ | ⟨-, hm, htj, -⟩ := ha.goes
    · cases i <;> cases hk
      case init.refl => exact clockInv_of_before htj rfl (by simp [firstTodo])
      all_goals exact h.of_past (fun _ => (pastClock_waiting hj).mpr hm) (by rw [hclock]; exact id)
    · exact h.congr hm htj hclock

/-- Settles O57: by the agent whose turn it is; only the engine's own turn changes what it claims. -/
theorem stepKeepsClockOn : Obligations.StepKeepsClockOn := by
  unfold Obligations.StepKeepsClockOn
  intro s t hm h hx
  have hu : ClockInv s.takeTurn.2 := h.congr (by simp) (by simp) (by simp)
  obtain ⟨u, rfl, -, hc⟩ := step_cases hx
  obtain ⟨-, ⟨j, hj, he⟩ | ⟨-, -, rfl⟩ | ⟨m, i, hj, -, hi, he⟩⟩ | ⟨-, hk⟩ | ⟨-, rfl | ⟨w, rest, r, v, -, rfl⟩⟩ := hc
  · rw [exec_serve hj] at he
    cases he
    refine serve_clockInv hj ?_ hu
    rw [takeTurn_eng] at hj
    simp only [ModeInv, hj] at hm
    exact hm.2
  · have hp := pick_drawOnly s.takeTurn.2
    exact hu.congr (by rw [hp.eng]) (by rw [hp.eng]) (by rw [hp.dev])
  · obtain ⟨-, hd, hg⟩ := pick_take_frame m s.takeTurn.2
    exact exec_request_clockInv (by rw [hg]; exact hj) (decodeRequest_not_device hi) he
      (hu.congr (by rw [hg]) (by rw [hg]) (by rw [hd]))
  · exact hu.congr (by rw [hk.eng]) (by rw [hk.eng]) hk.clock
  · exact hu
  · exact hu.congr (by simp) (by simp) (devWrite_keeps _ _ _).clock

end Sys2Proof.Machine
end

section
/-! ## Reset (70_reset_and_hazards.md R220, R221) -/

namespace Sys2Proof.Machine

/-- Settles O59: the engine's fields at reset (R220). -/
theorem resetEngineState : Obligations.ResetEngineState := by
  unfold Obligations.ResetEngineState
  exact ⟨rfl, rfl, rfl, rfl, rfl⟩

/-- The invariants of the engine after reset, whatever the device holds (R221): it serves no request, owns no lock and
has made no access. -/
theorem afterReset_invariants {s : State} (h : AfterReset s) :
    ModeInv s ∧ OwnerInv s ∧ LocalsInv s ∧ HistInv s ∧ ClockInv s ∧ TriggerInv s := by
  have hjob : s.eng.job = none := congrArg Engine.job h
  have hmode : s.eng.mode = .uninit := congrArg Engine.mode h
  have howner : s.eng.owner = none := congrArg Engine.owner h
  have hhist : s.eng.hist = [] := congrArg Engine.hist h
  have hserves : ∀ j, s.eng.job ≠ some j := by simp [hjob]
  obtain ⟨hm, ho⟩ := (modeOwner_waiting hjob).mpr ⟨by simp [hmode], fun _ => howner⟩
  refine ⟨hm, ho, fun j hj => absurd hj (hserves j), fun e he => ?_, fun hp => ?_, fun _ j hj => absurd hj (hserves j)⟩
  · rw [hhist] at he
    cases he
  · rw [pastClock_waiting hjob, hmode] at hp
    cases hp

/-- The device's reset values (log 4, log 5) are sound. -/
theorem reset_devSound : DevSound State.reset.cfg State.reset.dev :=
  ⟨Memory.wf_nil, Nat.zero_le _, Nat.zero_le _, Nat.zero_le _⟩

/-- Settles O60: the engine's invariants follow from its reset values; the device's hold of an empty table, empty
buffers and no transaction. -/
theorem resetMeetsInvariants : Obligations.ResetMeetsInvariants := by
  unfold Obligations.ResetMeetsInvariants
  obtain ⟨hmem, hcursor, hbuffer⟩ := (devSound_iff State.reset).mp reset_devSound
  exact ⟨fun _ => afterReset_invariants, rfl, hmem, hcursor, hbuffer, ExecOk.of_none rfl⟩

end Sys2Proof.Machine
end

section
/-! ## Decoding what was encoded (30_encoding.md R82, R85, R86, R88)

The decoder of LUT instructions picks from the opcode table by the opcode field; in a valid configuration the table's
values are distinct, so what is picked is the instruction that was encoded. An argument of a request is the number its
word stands for, so it is inside its width and is read back. -/

namespace Sys2Proof.Machine

/-! ### The opcode table -/

/-- The LUT instructions with a value of their own, at one pad and operand, by opcode (R85). -/
def lutTable (o : Opcodes) (pad : BitVec 2) (x : Byte) : List (BitVec 6 × Instr) :=
  [(0#6, .stop pad x), (o.cmd, .cmd pad x), (o.addr, .addr pad x), (o.dummy, .dummy pad x), (o.mode, .mode pad x),
    (o.mode2, .mode2 pad x), (o.mode4, .mode4 pad x), (o.read, .read pad x), (o.write, .write pad x),
    (o.jumpOnCs, .jumpOnCs pad x), (o.addrDdr, .addrDdr pad x), (o.modeDdr, .modeDdr pad x),
    (o.mode2Ddr, .mode2Ddr pad x), (o.mode4Ddr, .mode4Ddr pad x), (o.readDdr, .readDdr pad x),
    (o.writeDdr, .writeDdr pad x), (o.dataLearn, .dataLearn pad x)]

/-- The instruction at the first entry of value `n`, and `d` where there is none. -/
def pickOpcode (n : BitVec 6) (d : Instr) : List (BitVec 6 × Instr) → Instr
  | [] => d
  | (m, i) :: l => if n = m then i else pickOpcode n d l

theorem lutTable_opcodes (o : Opcodes) (pad : BitVec 2) (x : Byte) :
    (lutTable o pad x).map Prod.fst = 0#6 :: o.toList := rfl

theorem decodeLut_eq_pickOpcode (p : Params) (h : Half) :
    decodeLut p h =
      pickOpcode (lutOpcode h) (.unassigned (lutOpcode h) (lutPad h) (lutOperand h))
        (lutTable p.opc (lutPad h) (lutOperand h)) := rfl

/-- With distinct values, the entry of a value is the one picked. -/
theorem pickOpcode_of_mem {n : BitVec 6} {d i : Instr} {l : List (BitVec 6 × Instr)} (hl : (l.map Prod.fst).Nodup)
    (h : (n, i) ∈ l) : pickOpcode n d l = i := by
  induction l with
  | nil => cases h
  | cons e l ih =>
    obtain ⟨hnot, hl⟩ := List.nodup_cons.mp hl
    obtain rfl | h := List.mem_cons.mp h
    · exact if_pos rfl
    · have hne : n ≠ e.1 := fun he => hnot (he ▸ List.mem_map_of_mem h)
      exact (if_neg hne).trans (ih hl h)

theorem pickOpcode_of_not_mem {n : BitVec 6} {d : Instr} {l : List (BitVec 6 × Instr)} (h : n ∉ l.map Prod.fst) :
    pickOpcode n d l = d := by
  induction l with
  | nil => rfl
  | cons e l ih =>
    obtain ⟨hne, h⟩ := List.ne_and_not_mem_of_not_mem_cons h
    exact (if_neg hne).trans (ih h)

/-- STOP's value and the assigned ones are distinct in a valid configuration (D5). -/
theorem opcodes_nodup {p : Params} (hv : p.valid = true) : (0#6 :: p.opc.toList).Nodup := by
  obtain ⟨-, ho⟩ := Bool.and_eq_true_iff.mp hv
  simpa [Opcodes.valid, and_comm] using ho

/-! ### A LUT instruction -/

theorem decode_packLut (p : Params) (n : BitVec 6) (pad : BitVec 2) (x : Byte) :
    decode p (.luti16 (packLut n pad x)) = .ok (pickOpcode n (.unassigned n pad x) (lutTable p.opc pad x)) := by
  simp only [decode, decodeLut_eq_pickOpcode, lutOpcode_packLut, lutPad_packLut, lutOperand_packLut]

theorem decode_packLut_of_mem {p : Params} (hv : p.valid = true) {n : BitVec 6} {pad : BitVec 2} {x : Byte} {i : Instr}
    (h : (n, i) ∈ lutTable p.opc pad x) : decode p (.luti16 (packLut n pad x)) = .ok i := by
  have hl : ((lutTable p.opc pad x).map Prod.fst).Nodup := opcodes_nodup hv
  rw [decode_packLut, pickOpcode_of_mem hl h]

theorem decode_packLut_unassigned {p : Params} {n : BitVec 6} (hn : p.opc.isUnassigned n = true) (pad : BitVec 2)
    (x : Byte) : decode p (.luti16 (packLut n pad x)) = .ok (.unassigned n pad x) := by
  have hnot : n ∉ (lutTable p.opc pad x).map Prod.fst := by
    rw [lutTable_opcodes]
    simpa [Opcodes.isUnassigned] using hn
  rw [decode_packLut, pickOpcode_of_not_mem hnot]

/-! ### The IP-command word and the requests -/

@[simp] theorem decodeIpcmd_packIpcmd (seq : BitVec 4) (size : Half) :
    decodeIpcmd (packIpcmd seq size) = .ok (.ipcmd seq size) := by
  simp [decodeIpcmd]

@[simp] theorem allBelow_nil (n : Nat) : allBelow n [] = true := rfl

@[simp] theorem allBelow_toNat_cons {n : Nat} (a : BitVec n) (l : List Nat) :
    allBelow n (a.toNat :: l) = allBelow n l := by
  simp [allBelow, a.isLt]

@[simp] theorem allBelow_map_toNat {n : Nat} (l : List (BitVec n)) : allBelow n (l.map BitVec.toNat) = true := by
  induction l with
  | nil => rfl
  | cons a l ih => exact (allBelow_toNat_cons a _).trans ih

@[simp] theorem words32_map_toNat (l : List Word) : words32 (l.map BitVec.toNat) = l := by
  simp [words32, Function.comp_def]

/-- Four words, one by one, are the vector they come from. -/
theorem vector_of_words (ws : Vector Word 4) : #v[ws[0], ws[1], ws[2], ws[3]] = ws := by
  ext k hk
  interval_cases k <;> rfl

/-- FILL's length is the one argument that its type does not bound (10_state.md R21). -/
theorem decodeFill_args (seq : BitVec 4) (addr : Word) {data : List Word} (hl : data.length < 2 ^ 32) :
    decodeFill (seq.toNat :: addr.toNat :: data.map BitVec.toNat) = .ok (.fill seq addr data) := by
  simpa [decodeFill] using hl

/-- Settles O4: a LUT instruction is picked by its opcode, an IP-command word unpacks, and a request's arguments are
read back. -/
theorem decodeOfEncodeIsIdentity : Obligations.DecodeOfEncodeIsIdentity := by
  unfold Obligations.DecodeOfEncodeIsIdentity
  intro p i hv hw
  cases i
  case unassigned n pad x => exact decode_packLut_unassigned hw pad x
  case ipcmd seq size => exact decodeIpcmd_packIpcmd seq size
  case fill seq addr data => exact decodeFill_args seq addr (of_decide_eq_true hw)
  case writeSeq index words =>
    simp [encode, decode, decodeRequest, decodeWriteSeq, vector_of_words]
  case encode | decode | issue | drain =>
    simp [encode, decode, decodeRequest, decodeEncode, decodeDecode, decodeIssue, decodeDrain, Triple.args]
  case acquire | release | init => rfl
  case stop | cmd | addr | dummy | mode | mode2 | mode4 | read | write | jumpOnCs | addrDdr | modeDdr | mode2Ddr |
      mode4Ddr | readDdr | writeDdr | dataLearn =>
    exact decode_packLut_of_mem hv (by simp [lutTable])

/-! ### Words of the spec -/

/-- Settles O8: by decoding each (95_test_vectors.md sections 2.1, 2.4; R88, R89). -/
theorem specWordsDecode : Obligations.SpecWordsDecode := by
  unfold Obligations.SpecWordsDecode
  exact ⟨rfl, rfl, rfl, rfl, rfl, rfl, rfl, rfl, rfl, rfl, rfl⟩

end Sys2Proof.Machine
end

section
/-! ## A configuration that fails the checks (93_implementation_defined.md U19) -/

namespace Sys2Proof.Machine

theorem step_badConfiguration {s : State} (hv : s.cfg.valid = false) : step s = .refused .badConfiguration := by
  rw [step_eq, fetch, if_neg (Bool.eq_false_iff.mp hv)]
  rfl

/-- What a valid configuration says of its waits, its capacities and its lock values (R8, R32). -/
theorem valid_numbers {p : Params} (hv : p.valid = true) :
    1 ≤ p.waitLimit ∧ 4 ≤ p.txCapacity ∧ 4 ≤ p.rxCapacity ∧ p.lckUnlock ≠ p.lckLock := by
  simp only [Params.valid, Bool.and_eq_true, decide_eq_true_eq] at hv
  obtain ⟨⟨⟨⟨⟨⟨hwait, htx⟩, hrx⟩, hlock⟩, -⟩, -⟩, -⟩ := hv
  exact ⟨hwait, htx, hrx, hlock⟩

/-- Settles O11: a configuration that passes the checks has none of the faults. -/
theorem badConfigurationIsRefused : Obligations.BadConfigurationIsRefused := by
  unfold Obligations.BadConfigurationIsRefused
  refine ⟨fun s => step_badConfiguration, fun p hbad => Bool.eq_false_iff.mpr fun hv => ?_⟩
  have hwin := windowFacts hv
  obtain ⟨halign, hend⟩ := hwin.aligned p.off.status (by simp [Offsets.singles])
  have hctrl : p.off.ctrl ≠ p.off.status := List.rel_of_pairwise_cons hwin.spread (by simp)
  obtain ⟨htxdata, -⟩ := hwin.clear p.off.txdata (by simp [Offsets.singles])
  obtain ⟨-, haddr⟩ := hwin.clear p.off.addr (by simp [Offsets.singles])
  obtain ⟨hbusy, -⟩ := masks_ne hv
  obtain ⟨hwait, htx, -, hlock⟩ := valid_numbers hv
  have hopc := opcodes_nodup hv
  have hcmd : 0#6 ≠ p.opc.cmd := List.rel_of_pairwise_cons hopc (by simp [Opcodes.toList])
  have hread : p.opc.cmd ≠ p.opc.read := List.rel_of_pairwise_cons hopc.of_cons (by simp)
  obtain h | h | h | h | h | h | h | h | h | h | h := hbad
  · exact h halign
  · omega
  · exact hctrl h
  · omega
  · exact haddr h.symm
  · exact hbusy h
  · exact hlock h
  · omega
  · omega
  · exact hread h
  · exact hcmd h.symm

end Sys2Proof.Machine
end

section
/-! ## FILL's completion (43_transaction_engine.md R154) -/

namespace Sys2Proof.Machine

/-- The last three steps of a request whose second wait is satisfied: the read, the trace event and the response
(R152, R154). -/
theorem issueDone_completes {s : State} {j : Service} {seq : BitVec 4} {x : Result} (hj : s.eng.job = some j)
    (ht : j.todo = []) (hstep : taskStep j.task s = (s.regRead .status).2.queue (issueDone seq x))
    (hb : j.boots (.ok x) = false) :
    ∃ t1 t2 t, exec (taskInstr j.task) s = .next t1 ∧ exec (taskInstr j.task) t1 = .next t2 ∧
      exec (taskInstr j.task) t2 = .next t ∧ OnlyKey s.dev t.dev ∧
      t.responses = s.responses ++ [(j.sender, .ok x)] ∧
      t.eng =
        { s.eng with
          mode := j.resume, job := none, hist := s.eng.hist ++ [.rd s.cfg.off.status (s.regRead .status).1]
          trace := s.eng.trace ++ [.issueComplete seq] } := by
  obtain ⟨-, -, hkey, -, -, hresp, -, -, heng⟩ := regRead_full .status s
  have h1 := exec_access hj ht
  rw [hstep] at h1
  have hj1 : ((s.regRead .status).2.queue (issueDone seq x)).eng.job = some { j with todo := issueDone seq x } := by
    rw [queue_job, heng, hj]
    rfl
  have h2 := exec_trace hj1 rfl
  have hj2 : ((((s.regRead .status).2.queue (issueDone seq x)).traceEv (.issueComplete seq)).queue
      [.respond (.ok x)]).eng.job = some { j with todo := [.respond (.ok x)] } := by
    rw [queue_job, traceEv_job, hj1]
    rfl
  have h3 := exec_respond_plain hj2 rfl hb
  refine ⟨_, _, _, h1, h2, h3, hkey, congrArg (· ++ [(j.sender, Response.ok x)]) hresp, ?_⟩
  simp only [State.queue, State.traceEv, State.mapEng, heng]
  rfl

/-- Settles O38: FILL's inner ISSUE is done at the poll that finds `BUSY` clear, and the rest is ISSUE's completion with
the number of words. -/
theorem fillCompletes : Obligations.FillCompletes := by
  unfold Obligations.FillCompletes
  intro s j seq addr data i n lim hv hj hk ht hc ha hf
  have hbusy := busy_reads_clear hv hc ha hf
  have hstep : taskStep j.task s = (s.regRead .status).2.queue (issueDone seq (.count n)) := by
    simp only [hk, taskStep, fillStep, issueStep, poll_satisfied_eq i hbusy]
  obtain ⟨t1, t2, t, h1, h2, h3, hkey, hresp, heng⟩ :=
    issueDone_completes hj ht hstep (by simp [Service.boots, hk])
  simp only [hk, taskInstr] at h1 h2 h3
  have hrun : execTimes (.fill seq addr data) 3 s = .next t := (execTimes_succ h1).trans (execTimes_two h2 h3)
  have hframe := execTimes_runFrame (by simp [firstTask]) hrun
  exact ⟨t1, t2, t, _, h1, h2, h3, heng, hresp, hkey, hframe.cfg, hframe.port, hframe.foreign, hframe.schedule⟩

end Sys2Proof.Machine
end
